-- ==== Sys2Proof/Word.lean ====
section
/-! DEFINITION. Words, bytes and keys (00_scope.md R5, R133): a Word is 32 bits, a Byte 8 bits, a key four Words. All
arithmetic on them is `BitVec` arithmetic, which wraps at the width; nothing is signed. -/

namespace Sys2Proof

/-- A 32-bit unsigned word (R133). -/
abbrev Word := BitVec 32

/-- An 8-bit byte (R133). -/
abbrev Byte := BitVec 8

/-- The four key words, order significant (R10: "a 4-element fixed array, not a resizable collection"). -/
abbrev Key := Vector Word 4

end Sys2Proof
end

