-- ==== Sys2Proof/Config.lean ====
section
/-! DEFINITION. `DELTA` of the fixed parameters (00_scope.md R5; the others are widths and bounds that stand in the types:
`WORD_BITS` in `Word`, `KEY_WORDS` in `Key`, `MIN_M` and `MAX_M` in `MCount`, `SUPER_WORDS` in `MCount.sixteen`, `TAIL_MAX`
in `TailPort`), and what the spec leaves open: the tail delegate's functions (R6, R101) and the free values that stand for
what it calls unspecified. The open ones are opaque constants with no body, so no proof can see a value of one. -/

namespace Sys2Proof.Config

/-- `DELTA`, the per-round additive constant (R5). -/
def delta : Word := 0x9E3779B9

/-- A tail delegate's two functions (R101), `TailEnc` and `TailDec`: total, length-preserving, functions of the key and
the span alone (R96 (a) to (c), R100). The inverse law of R97 is no part of it: it is the premise `TailContract`. -/
structure Delegate where
  enc : Key → (n : Nat) → Vector Byte n → Vector Byte n
  dec : Key → (n : Nat) → Vector Byte n → Vector Byte n

/-- `TailEnc` of the delegate connected to the block, open (R6, R101; log entry 7). -/
opaque tailEnc : Key → (n : Nat) → Vector Byte n → Vector Byte n

/-- `TailDec` of the delegate connected to the block, open (R6, R101; log entry 7). -/
opaque tailDec : Key → (n : Nat) → Vector Byte n → Vector Byte n

/-- The delegate connected to the block: two open functions, of which nothing is known. -/
def delegate : Delegate := { enc := tailEnc, dec := tailDec }

/-- Free value number `k` of width `w`: what the spec leaves unspecified (R17, R54, R117, R120; log entry 21). -/
opaque freeBits : (w : Nat) → (k : Nat) → BitVec w

/-- Free byte number `k`. -/
def freeByte (k : Nat) : Byte := freeBits 8 k

end Sys2Proof.Config
end

