-- ==== Sys2Proof/Syntax.lean ====
section
/-! DEFINITION. The commands of the block: one constructor per row of spec/opcode_table.json (30_encoding.md R47 for the
nine `CMDW` rows, R53 for the two `TAILREQ` rows). -/

namespace Sys2Proof

/-- The direction of a cipher command (R16: `DIR` is 0 for encrypt and 1 for decrypt). -/
inductive Dir where
  | enc
  | dec
deriving DecidableEq, Repr

/-- The nine commands a host launches through `CMD` and the two operations the engine asks of the tail delegate. A
command's operands are the registers of R48, so its constructor carries none; a tail operation carries `TLEN` (R53),
its key and span standing in the port's registers. -/
inductive Instr where
  /-- `NOP` (R61). -/
  | nop
  /-- `LOADKEY` (R62). -/
  | loadkey
  /-- `ENCRYPT` (R67). -/
  | encrypt
  /-- `DECRYPT` (R68). -/
  | decrypt
  /-- `ENC_FIXED` (R87). -/
  | encFixed
  /-- `DEC_FIXED` (R88). -/
  | decFixed
  /-- `ENC_WORDS` (R85). -/
  | encWords
  /-- `DEC_WORDS` (R86). -/
  | decWords
  /-- `CLRF` (R63). -/
  | clrf
  /-- `TAIL_ENC` with its `TLEN` (R96). -/
  | tailEnc (len : BitVec 3)
  /-- `TAIL_DEC` with its `TLEN` (R97). -/
  | tailDec (len : BitVec 3)
deriving DecidableEq, Repr

end Sys2Proof
end

