-- ==== Sys2Proof/WellFormed.lean ====
section
/-! DEFINITION. Which instructions are well formed: every command word is, and a tail operation whose `TLEN` is 1 to 7
(43_tail_port.md R99: "The span length on the port is never 0 and never more than 7"). -/

namespace Sys2Proof

/-- Well-formedness of an instruction (R53, R99): a tail request of length 0 is never sent. -/
def Instr.wellFormed : Instr → Bool
  | .nop | .loadkey | .encrypt | .decrypt | .encFixed | .decFixed | .encWords | .decWords | .clrf => true
  | .tailEnc len => len != 0
  | .tailDec len => len != 0

/-- The instructions the host launches through `CMD` (R47); the other two are "issued by the engine, never by the
host" (43_tail_port.md). -/
def Instr.isCommand : Instr → Bool
  | .nop | .loadkey | .encrypt | .decrypt | .encFixed | .decFixed | .encWords | .decWords | .clrf => true
  | .tailEnc _ => false
  | .tailDec _ => false

end Sys2Proof
end

