-- ==== Sys2Proof/Decode.lean ====
section
/-! DEFINITION. The decoder of command words and tail-request headers, and the encoder after it (30_encoding.md R46, R47,
R49, R53). A `CMDW` is one 32-bit register write, a `TAILREQ` header is the four bits `THDR`; both decoders are total,
and a word that is no command is rejected by a name that says why. -/

namespace Sys2Proof

/-- Why a word is no command (R49). -/
inductive DecodeError where
  /-- `RSV`, bits 31:4, is not zero, whatever `OP` is. -/
  | reservedBitsSet
  /-- `OP` is `1001` to `1111`. -/
  | reservedOpcode (op : BitVec 4)
deriving DecidableEq, Repr

/-- The field `OP`, bits 3:0 of a command word (R46). -/
def opField (w : Word) : BitVec 4 := w.extractLsb' 0 4

/-- The field `RSV`, bits 31:4 of a command word (R46). -/
def rsvField (w : Word) : BitVec 28 := w.extractLsb' 4 28

/-- The command of an opcode, by the table of R47. -/
def decodeOp (op : BitVec 4) : Except DecodeError Instr :=
  match op.toNat with
  | 0 => .ok .nop
  | 1 => .ok .loadkey
  | 2 => .ok .encrypt
  | 3 => .ok .decrypt
  | 4 => .ok .encFixed
  | 5 => .ok .decFixed
  | 6 => .ok .encWords
  | 7 => .ok .decWords
  | 8 => .ok .clrf
  | _ => .error (.reservedOpcode op)

/-- The decoder of a `CMD` write (R46, R47, R49): all 32 bits are compared. -/
def decodeCmd (w : Word) : Except DecodeError Instr :=
  if rsvField w = 0 then decodeOp (opField w) else .error .reservedBitsSet

/-- The direction bit `TDIR = THDR[3]` (R53). -/
def tdirField (h : BitVec 4) : BitVec 1 := h.extractLsb' 3 1

/-- The length field `TLEN = THDR[2:0]` (R53). -/
def tlenField (h : BitVec 4) : BitVec 3 := h.extractLsb' 0 3

/-- The decoder of a tail request's header (R53): `0LLL` is `TAIL_ENC`, `1LLL` is `TAIL_DEC`. Every header has a
reading; a `TLEN` of 0 reads as an instruction that is not well formed (R99, log entry 8). -/
def decodeTail (h : BitVec 4) : Instr :=
  if tdirField h = 0 then .tailEnc (tlenField h) else .tailDec (tlenField h)

/-- What goes over the two channels on which an instruction reaches its agent: a command word, written by the host to
`CMD`, or a request header, sent by the engine to the delegate. -/
inductive Wire where
  | cmd (w : Word)
  | thdr (h : BitVec 4)
deriving DecidableEq, Repr

/-- The decoder over both channels. -/
def decode : Wire → Except DecodeError Instr
  | .cmd w => decodeCmd w
  | .thdr h => .ok (decodeTail h)

/-- The bit `TDIR` of a direction (R53): 0 for `TAIL_ENC`, 1 for `TAIL_DEC`. -/
def Dir.bit : Dir → BitVec 1
  | .enc => 0
  | .dec => 1

/-- A tail request's header (R53): `THDR[3] = TDIR`, `THDR[2:0] = TLEN`. -/
def tailHeader (d : Dir) (len : BitVec 3) : BitVec 4 := d.bit ++ len

/-- The encoder, from the tables of R47 and R53. -/
def encode : Instr → Wire
  | .nop => .cmd 0x00000000
  | .loadkey => .cmd 0x00000001
  | .encrypt => .cmd 0x00000002
  | .decrypt => .cmd 0x00000003
  | .encFixed => .cmd 0x00000004
  | .decFixed => .cmd 0x00000005
  | .encWords => .cmd 0x00000006
  | .decWords => .cmd 0x00000007
  | .clrf => .cmd 0x00000008
  | .tailEnc len => .thdr (tailHeader .enc len)
  | .tailDec len => .thdr (tailHeader .dec len)

/-- The instruction the decoder reads from bits numbered as spec/opcode_table.json numbers them: 32 bits are a command
word, 4 bits (or the byte that holds them, its upper half zero) a tail request's header. -/
def decodeTableWord (nbits w : Nat) : Option Instr :=
  if nbits = 32 then
    if w < 2 ^ 32 then
      match decodeCmd (BitVec.ofNat 32 w) with
      | .ok i => some i
      | .error _ => none
    else none
  else if nbits = 8 ∨ nbits = 4 then
    if w < 16 then some (decodeTail (BitVec.ofNat 4 w)) else none
  else none

end Sys2Proof
end

