-- ==== Sys2Proof/Machine/State.lean ====
section
/-! DEFINITION. The state of the machine as plain data (10_state.md): the key, the working registers, the host-visible
registers, the tail port, the buffer, and the schedule of the agents' moves; the state right after reset (R25); and the
reasons a step can stop. -/

namespace Sys2Proof.Machine

/-- The phase of the command in flight (R20). -/
inductive Phase where
  | idle
  | super
  | words
  | tail
deriving DecidableEq, Repr

/-- The working registers of the round function and the dispatcher (R12 to R16), with the spec's widths. They are not
visible to the host and hold unspecified values between commands (R17). -/
structure Work where
  /-- `V[0..15]` (R12). -/
  v : Vector Word 16
  /-- `SUM` (R13). -/
  sum : Word
  /-- `Y`, the right-hand neighbour (R13). -/
  y : Word
  /-- `Z`, the left-hand neighbour (R13). -/
  z : Word
  /-- `E` (R14). -/
  e : BitVec 2
  /-- `P` (R14). -/
  p : BitVec 4
  /-- `M` (R15). -/
  m : BitVec 5
  /-- `ROUNDS` (R15). -/
  rounds : BitVec 6
  /-- `RND` (R15). -/
  rnd : BitVec 6
  /-- `DIR` (R16). -/
  dir : Dir
  /-- `OFF` (R16). -/
  off : BitVec 32
  /-- `FULL` (R16). -/
  full : BitVec 26
  /-- `LEFT` (R16). -/
  left : BitVec 6
  /-- `NW` (R16). -/
  nw : BitVec 4
deriving DecidableEq, Repr

/-- Whether a request stands on the tail port (R95): none, one the delegate has not answered, one it has. -/
inductive PortStatus where
  | quiet
  | requested
  | answered
deriving DecidableEq, Repr

/-- The tail port: the request's fields (R53) and the response's (R54). -/
structure TailPort where
  /-- Whether a request is outstanding. -/
  status : PortStatus
  /-- `THDR[3:0]`: `TDIR` and `TLEN`. -/
  thdr : BitVec 4
  /-- `TKEY0..3`. -/
  tkey : Key
  /-- `TDATA0..6`. -/
  tdata : Vector Byte 7
  /-- `RDATA0..6`. -/
  rdata : Vector Byte 7
  /-- The model's own count of requests sent so far (log entry 17). -/
  sent : Nat
deriving DecidableEq, Repr

/-- One move of an agent (R7, R131): what the host does to the block, what the delegate answers, or the engine going
on with the command in flight. -/
inductive Move where
  /-- `WR`: a host register write; after a launch the host waits until `BUSY` reads 0 (R55). -/
  | wr (off : BitVec 6) (v : Word)
  /-- A host register write after which the host goes on at once, also while `BUSY = 1` (R51, R120, R122). -/
  | post (off : BitVec 6) (v : Word)
  /-- `RD`: a host register read (R55). -/
  | rd (off : BitVec 6)
  /-- A byte or half-word access to a register, which "a platform must not issue" (R51 (a)). -/
  | narrow (off : BitVec 6)
  /-- A write of one byte of the buffer by the host, or by any other agent that is not the engine (R120, R131). -/
  | poke (a : Word) (b : Byte)
  /-- A read of one byte of the buffer by the host (R131). -/
  | peek (a : Word)
  /-- The reset input is asserted (R116, R117). -/
  | reset
  /-- No agent does anything. -/
  | pause
  /-- The engine goes on with the command in flight by one part (R39). -/
  | engine
  /-- The tail delegate answers the outstanding request, with the functions of the connected delegate (R96, R97). -/
  | delegate
  /-- The tail delegate answers the outstanding request with these bytes, whatever its contract says (R127). -/
  | answer (r : Vector Byte 7)
deriving DecidableEq, Repr

/-- The state: every piece of state the spec gives the machine, and the model's own fields, which say so. -/
structure State where
  /-- `KEY[0..3]` (R10). -/
  key : Key
  /-- `KEYV` (R11), also `STATUS[2]`. -/
  keyv : Bool
  /-- `KEYIN0..3` (R19). -/
  keyin : Vector Word 4
  /-- `START` (R18). -/
  start : Word
  /-- `COUNT` (R18). -/
  count : Word
  /-- `BUFLEN` (R18). -/
  buflen : Word
  /-- `STATUS.BUSY` (R21). -/
  busy : Bool
  /-- `STATUS.FAULT` (R21). -/
  fault : Bool
  /-- `STATUS.FCODE` (R21, R103). -/
  fcode : BitVec 4
  /-- The phase of the command in flight (R20). -/
  phase : Phase
  /-- The working registers (R12 to R16). -/
  work : Work
  /-- The command launched and not yet complete (R20, R60); none when the engine is idle. -/
  inflight : Option Instr
  /-- The model's own: the region offsets another agent wrote since the launch (R120, log entry 12). -/
  touched : List Nat
  /-- The tail port (R95). -/
  port : TailPort
  /-- The buffer `BUF` (R30), a list of bytes at rising offsets; an offset not listed reads as 0 (log entry 1). -/
  buf : List Host.Cell
  /-- The model's own: the agents' coming moves, first move first (R7, log entry 5). -/
  todo : List Move
  /-- The model's own: the word the host's last register read returned (R131, log entry 18). -/
  hostWord : Word
  /-- The model's own: the byte the host's last buffer read returned (R131, log entry 18). -/
  hostByte : Byte
  /-- The sticky mark that a fault was recorded in this run, kept after `CLRF` (R109, log entry 16). -/
  faulted : Bool
  /-- The model's own: how many free values have been drawn (log entry 21). -/
  draws : Nat
deriving DecidableEq, Repr

/-- Why a step stops with a fault. A precondition failure of a command is no such stop: it is recorded in `STATUS` and
the machine goes on (R105). -/
inductive Fault where
  /-- Raised by the moves `.delegate` and `.answer` when no request stands on the tail port. Safe: the delegate "acts
  only when the engine sends it a request" (R7); for a late answer to a request that reset has withdrawn the spec is
  silent, and the model's choice is to say nothing of what follows (log entry 26). -/
  | answerUnasked
deriving DecidableEq, Repr

/-- Why a step gives no meaning. -/
inductive Refusal where
  /-- Raised by no arm: every instruction has its meaning. Safe: the model says nothing of a run that meets it. -/
  | notModelled (mnemonic : String)
  /-- Raised by the move `.narrow`. Safe: "the block defines no byte or half-word access to `REG`, and a platform must
  not issue one" (R51 (a), U9). -/
  | narrowRegisterAccess
  /-- Raised by the moves `.wr`, `.post` and `.rd` at an offset that is no multiple of 4. Safe: "every access is one
  whole aligned 32-bit word" (R51 (a), U9). -/
  | unalignedRegisterAccess
deriving DecidableEq, Repr

/-- The working registers in `State.reset`. The spec leaves them unspecified (R25); 0 is the model's choice (log
entry 2). -/
def Work.reset : Work where
  v := Vector.replicate 16 0
  sum := 0
  y := 0
  z := 0
  e := 0
  p := 0
  m := 0
  rounds := 0
  rnd := 0
  dir := .enc
  off := 0
  full := 0
  left := 0
  nw := 0

/-- The tail port after reset: nothing stands on it (R116); its fields hold the model's choice 0 (log entry 17). -/
def TailPort.reset : TailPort where
  status := .quiet
  thdr := 0
  tkey := Vector.replicate 4 0
  tdata := Vector.replicate 7 0
  rdata := Vector.replicate 7 0
  sent := 0

/-- The machine right after reset (R25, R116), with nothing in the buffer and nothing scheduled (R118). -/
def State.reset : State where
  key := Vector.replicate 4 0
  keyv := false
  keyin := Vector.replicate 4 0
  start := 0
  count := 0
  buflen := 0
  busy := false
  fault := false
  fcode := 0
  phase := .idle
  work := Work.reset
  inflight := none
  touched := []
  port := TailPort.reset
  buf := []
  todo := []
  hostWord := 0
  hostByte := 0
  faulted := false
  draws := 0

end Sys2Proof.Machine
end

