-- ==== Sys2Proof/Machine/Ops.lean ====
section
/-! DEFINITION. The named operations over the buffer, the working registers and the state: reading and writing `BUF`
(20_memory.md), free values, taking a fault (60_exceptions.md R105) and clearing it (R107), and the end of a command
(R128). -/

namespace Sys2Proof.Machine

/-! The buffer. -/

/-- The byte of the buffer at offset `a`; an offset that is not listed reads as 0 (R30, log entry 1). -/
def readByte : List Host.Cell → Nat → Byte
  | [], _ => 0
  | (b, v) :: rest, a => if b = a then v else readByte rest a

/-- The buffer with `v` at offset `a`, in canonical form: offsets strictly rising, no listed byte 0. -/
def writeByte : List Host.Cell → Nat → Byte → List Host.Cell
  | [], a, v => if v = 0 then [] else [(a, v)]
  | (b, w) :: rest, a, v =>
    if a < b then (if v = 0 then (b, w) :: rest else (a, v) :: (b, w) :: rest)
    else if a = b then (if v = 0 then rest else (a, v) :: rest)
    else (b, w) :: writeByte rest a v

/-- The canonical form, from the offset `lo` on. -/
def wfFrom : Nat → List Host.Cell → Bool
  | _, [] => true
  | lo, (a, v) :: rest => decide (lo ≤ a) && (v != 0) && wfFrom (a + 1) rest

/-- The canonical form of the buffer: offsets strictly rising, no entry equal to what an unlisted offset reads as. -/
def Memory.wf (m : List Host.Cell) : Bool := wfFrom 0 m

/-- Every listed offset is one of the 32-bit offset space (R30). -/
def Memory.inSpace (m : List Host.Cell) : Bool := m.all fun c => decide (c.1 < 2 ^ 32)

/-- `MemRead(a, n)` as the number R33 gives: the sum over `i` of `BUF[a+i] * 256^i`. -/
def memRead (m : List Host.Cell) (a : Nat) : Nat → Nat
  | 0 => 0
  | n + 1 => memRead m a n + (readByte m (a + n)).toNat * 256 ^ n

/-- `MemRead(a, 4)`, the little-endian word at offset `a` (R32, R33). -/
def readWord (m : List Host.Cell) (a : Nat) : Word :=
  readByte m (a + 3) ++ (readByte m (a + 2) ++ (readByte m (a + 1) ++ readByte m a))

/-- `MemWrite(a, 4, w)`: the word `w` stored little-endian at offset `a` (R34). -/
def writeWord (m : List Host.Cell) (a : Nat) (w : Word) : List Host.Cell :=
  writeByte (writeByte (writeByte (writeByte m a (w.extractLsb' 0 8)) (a + 1) (w.extractLsb' 8 8)) (a + 2)
    (w.extractLsb' 16 8)) (a + 3) (w.extractLsb' 24 8)

/-- The bytes `f 0 .. f (n-1)` stored at offsets `a .. a+n-1`. -/
def writeBytes (m : List Host.Cell) (a : Nat) (f : Nat → Byte) : Nat → List Host.Cell
  | 0 => m
  | n + 1 => writeByte (writeBytes m a f n) (a + n) (f n)

/-! Working registers. -/

/-- `V[i]` (R134). -/
def Work.word (w : Work) (i : BitVec 4) : Word := w.v[i.toNat]'i.isLt

/-- `V[i] <- x` (R134). -/
def Work.setWord (w : Work) (i : BitVec 4) (x : Word) : Work := { w with v := w.v.set i.toNat x i.isLt }

/-- Working registers that hold free values, numbered from `k` on (R17: "unspecified values between commands"). -/
def freeWork (k : Nat) : Work where
  v := Vector.ofFn fun i => Config.freeBits 32 (k + i.val)
  sum := Config.freeBits 32 (k + 16)
  y := Config.freeBits 32 (k + 17)
  z := Config.freeBits 32 (k + 18)
  e := Config.freeBits 2 (k + 19)
  p := Config.freeBits 4 (k + 20)
  m := Config.freeBits 5 (k + 21)
  rounds := Config.freeBits 6 (k + 22)
  rnd := Config.freeBits 6 (k + 23)
  dir := if Config.freeBits 1 (k + 24) = 0 then .enc else .dec
  off := Config.freeBits 32 (k + 25)
  full := Config.freeBits 26 (k + 26)
  left := Config.freeBits 6 (k + 27)
  nw := Config.freeBits 4 (k + 28)

/-- How many free values `freeWork` uses. -/
def freeWorkSize : Nat := 29

/-- The working registers are left unspecified (R17, log entry 3). -/
def State.forgetWork (s : State) : State :=
  { s with work := freeWork s.draws, draws := s.draws + freeWorkSize }

/-- The `n` bytes at offset `a` are left unspecified: each holds a free value. -/
def State.forgetBytes (s : State) (a n : Nat) : State :=
  { s with buf := writeBytes s.buf a (fun i => Config.freeByte (s.draws + i)) n, draws := s.draws + n }

/-! Faults. -/

/-- The causes of a fault (R103). -/
inductive FCode where
  /-- `F_NOKEY`. -/
  | noKey
  /-- `F_RANGE`. -/
  | range
  /-- `F_OPERAND`. -/
  | operand
  /-- `F_ILLCMD`. -/
  | illCmd
deriving DecidableEq, Repr

/-- The code `STATUS.FCODE` records for a cause (R103). -/
def FCode.code : FCode → BitVec 4
  | .noKey => 1
  | .range => 2
  | .operand => 3
  | .illCmd => 4

/-- The engine stands idle: no command in flight, nothing on the tail port, `BUSY` 0. -/
def State.toIdle (s : State) : State :=
  { s with busy := false, inflight := none, phase := .idle, touched := [], port := { s.port with status := .quiet } }

/-- `raise Fault(c)` (R105): `FAULT <- 1`, `FCODE <- code`, `BUSY <- 0`, and nothing else the spec gives the machine;
the model's sticky mark is set (R109). -/
def raiseFault (c : FCode) (s : State) : State :=
  { s.toIdle with fault := true, fcode := c.code, faulted := true }

/-- Return from a fault (R63, R107): `FAULT <- 0`, `FCODE <- 0`. Nothing is restored because nothing was saved. -/
def clearFault (s : State) : State := { s with fault := false, fcode := 0 }

end Sys2Proof.Machine
end

