-- ==== Sys2Proof/Machine/Flags.lean ====
section
/-! DEFINITION. The flags of the block: the word `STATUS` the host reads (10_state.md R21, 30_encoding.md R52). There is
no other flag: no arithmetic sets one (R21, R75). -/

namespace Sys2Proof.Machine

/-- One bit of a word from a flag. -/
def flagBit (b : Bool) : BitVec 1 := if b then 1 else 0

/-- `STATUS` (R21): bit 0 `BUSY`, bit 1 `FAULT`, bit 2 `KEYV`, bits 7:4 `FCODE`, every other bit 0. -/
def State.status (s : State) : Word :=
  (0 : BitVec 24) ++ (s.fcode ++ ((0 : BitVec 1) ++ (flagBit s.keyv ++ (flagBit s.fault ++ flagBit s.busy))))

end Sys2Proof.Machine
end

