-- ==== Sys2Proof/Machine/Operands.lean ====
section
/-! DEFINITION. The operands of the commands (30_encoding.md R48): the region a command works on, the partition of a
dispatch region (41_dispatch_commands.md R66), the parts another agent can disturb (R120), and the host's register map
(30_encoding.md R50). Sums of offsets and counts are `Nat` sums, so none wraps (20_memory.md R36). -/

namespace Sys2Proof.Machine

/-- An operand count of the round function: it "is never run with `m < 2`", and the block has 16 working words (R94,
R12), so the round function takes only these. -/
structure MCount where
  val : Nat
  two_le : 2 ≤ val
  le_16 : val ≤ 16

/-- The operand count of the fixed-width path. -/
def MCount.sixteen : MCount := ⟨16, by decide, by decide⟩

/-- `InRange` for a region of `len` bytes at `START` (R36): `START + len <= BUFLEN`, without wrap. -/
def State.inRange (s : State) (len : Nat) : Bool := decide (s.start.toNat + len ≤ s.buflen.toNat)

/-- `LegalN` (R85, R132): `2 <= COUNT <= 16`. -/
abbrev State.legalN (s : State) : Prop := 2 ≤ s.count.toNat ∧ s.count.toNat ≤ 16

/-- The guard of the fixed path (R89): `START + 64 > BUFLEN`, which includes `START > BUFLEN`. -/
def State.guard (s : State) : Bool := decide (s.buflen.toNat < s.start.toNat + 64)

/-- The partition of a region of `count` bytes (R66). -/
structure Partition where
  /-- Number of super-blocks. -/
  full : Nat
  /-- Bytes after the super-blocks. -/
  left : Nat
  /-- Whole words after the super-blocks. -/
  n : Nat
  /-- Words the variable-width path takes: 0, or 2 to 15. -/
  nw : Nat
  /-- Bytes the tail path takes. -/
  tail : Nat
deriving DecidableEq, Repr

/-- The partition's numbers, by the definitions of R66. -/
def partition (count : Nat) : Partition :=
  let full := count / 64
  let left := count % 64
  let n := left / 4
  let nw := if 1 < n then n else 0
  { full := full, left := left, n := n, nw := nw, tail := left - 4 * nw }

/-- How many bytes from `START` on the command reads and writes when it is launched in this state (R26, R38): none if
it faults, or if the guard holds, or if it is no cipher command. -/
def footprint (i : Instr) (s : State) : Nat :=
  match i with
  | .nop => 0
  | .loadkey => 0
  | .encrypt => if s.keyv && s.inRange s.count.toNat then s.count.toNat else 0
  | .decrypt => if s.keyv && s.inRange s.count.toNat then s.count.toNat else 0
  | .encFixed => if s.keyv && !s.guard then 64 else 0
  | .decFixed => if s.keyv && !s.guard then 64 else 0
  | .encWords => if s.keyv && decide s.legalN && s.inRange (4 * s.count.toNat) then 4 * s.count.toNat else 0
  | .decWords => if s.keyv && decide s.legalN && s.inRange (4 * s.count.toNat) then 4 * s.count.toNat else 0
  | .clrf => 0
  | .tailEnc _ => 0
  | .tailDec _ => 0

/-- Offset `a` is one of the region of the command. -/
def inRegion (i : Instr) (s : State) (a : Nat) : Bool :=
  decide (s.start.toNat ≤ a) && decide (a < s.start.toNat + footprint i s)

/-- The part of a dispatch region that holds the offset `START + r`, as its offset from `START` and its length (R66,
R73): a super-block, the words run or the tail. -/
def dispatchPart (count r : Nat) : Nat × Nat :=
  let q := partition count
  if r < 64 * q.full then (64 * (r / 64), 64)
  else if r < 64 * q.full + 4 * q.nw then (64 * q.full, 4 * q.nw)
  else (64 * q.full + 4 * q.nw, q.tail)

/-- The part ("super-block, words run or tail", R120) of the command's region that holds offset `a` of the region: its
first offset and its length. The direct commands have one part, their region. -/
def partOf (i : Instr) (s : State) (a : Nat) : Nat × Nat :=
  match i with
  | .encrypt | .decrypt =>
    let q := dispatchPart s.count.toNat (a - s.start.toNat)
    (s.start.toNat + q.1, q.2)
  | .nop | .loadkey | .encFixed | .decFixed | .encWords | .decWords | .clrf | .tailEnc _ | .tailDec _ =>
    (s.start.toNat, footprint i s)

/-- What another agent's write to the region while `BUSY = 1` leaves (R120): every byte of the part that holds it is
unspecified when the command ends. -/
def settle (i : Instr) : List Nat → State → State
  | [], s => s
  | a :: rest, s =>
    settle i rest
      (if inRegion i s a then s.forgetBytes (partOf i s a).1 (partOf i s a).2 else s)

/-- The end of a command (R128): what others disturbed is settled, `BUSY <- 0`, the engine is idle. -/
def finish (i : Instr) (s : State) : State := (settle i s.touched s).toIdle

/-- The end of a cipher command that did its work: the working registers are left unspecified (R17). -/
def finishCipher (i : Instr) (s : State) : State := (finish i s).forgetWork

/-! The host's register map (30_encoding.md R50). -/

/-- The registers of the `REG` space. -/
inductive Reg where
  | cmd
  | status
  | start
  | count
  | buflen
  | keyin (i : Fin 4)
  | reserved
deriving DecidableEq, Repr

/-- The register at an offset that is a multiple of 4 (R50). -/
def regAt (off : BitVec 6) : Reg :=
  match off.toNat with
  | 0x00 => .cmd
  | 0x04 => .status
  | 0x08 => .start
  | 0x0C => .count
  | 0x10 => .buflen
  | 0x20 => .keyin 0
  | 0x24 => .keyin 1
  | 0x28 => .keyin 2
  | 0x2C => .keyin 3
  | _ => .reserved

/-- An access is one whole aligned word (R51 (a)). -/
def regAligned (off : BitVec 6) : Bool := off.toNat % 4 == 0

/-- What a host read of a register returns (R50, R51 (c), (d)): 0 for the write-only and the reserved ones. -/
def readReg (r : Reg) (s : State) : Word :=
  match r with
  | .cmd => 0
  | .status => s.status
  | .start => s.start
  | .count => s.count
  | .buflen => s.buflen
  | .keyin _ => 0
  | .reserved => 0

/-- A host write to a register that is not `CMD`, the engine idle (R18, R19, R51 (d)). -/
def writeReg (r : Reg) (v : Word) (s : State) : State :=
  match r with
  | .cmd => s
  | .status => s
  | .start => { s with start := v }
  | .count => { s with count := v }
  | .buflen => { s with buflen := v }
  | .keyin i => { s with keyin := s.keyin.set i.val v i.isLt }
  | .reserved => s

end Sys2Proof.Machine
end

