-- ==== Sys2Proof/Machine/Control.lean ====
section
/-! DEFINITION. The control commands `NOP`, `LOADKEY` and `CLRF` (40_control_commands.md R61 to R63). -/

namespace Sys2Proof.Machine

/-- `NOP` (R61): nothing. -/
def execNop (s : State) : Host.Outcome State Fault Refusal := .next (finish .nop s)

/-- `LOADKEY` (R62): `KEY[i] <- KEYINi`, `KEYV <- 1`. -/
def execLoadkey (s : State) : Host.Outcome State Fault Refusal :=
  .next (finish .loadkey { s with key := s.keyin, keyv := true })

/-- `CLRF` (R63): `FAULT <- 0`, `FCODE <- 0`. -/
def execClrf (s : State) : Host.Outcome State Fault Refusal := .next (finish .clrf (clearFault s))

end Sys2Proof.Machine
end

