-- ==== Sys2Proof/Machine/Round.lean ====
section
/-! DEFINITION. The round function (42_round_function.md): `MX` (R75), the key rotation multiplexer (R76), the round
count (R77), loading and storing the vector (R78, R79), the two directions (R80, R81) and the block operations (R82,
R83), each as the pseudocode writes it, over the working registers. -/

namespace Sys2Proof.Machine

/-- `MX(y, z, sum, k)` (R75). -/
def mx (y z sum k : Word) : Word :=
  let a := (z >>> 5) ^^^ (y <<< 2)
  let b := (y >>> 3) ^^^ (z <<< 4)
  let c := a + b
  let d := (sum ^^^ y) + (k ^^^ z)
  c ^^^ d

/-- The index `(p & 3) ^ e` of the key rotation multiplexer (R76). -/
def keyIndex (p : BitVec 4) (e : BitVec 2) : BitVec 2 := p.extractLsb' 0 2 ^^^ e

/-- `KeySel(p, e)` (R76): the key word `KEY[(p & 3) ^ e]`. -/
def keySel (key : Key) (p : BitVec 4) (e : BitVec 2) : Word := key[(keyIndex p e).toNat]'(keyIndex p e).isLt

/-- The round's key rotation `(SUM >> 2) & 3`, that is `SUM[3:2]` (R76). -/
def rotation (sum : Word) : BitVec 2 := sum.extractLsb' 2 2

/-- `Rounds(m) = 6 + (52 div m)` (R77). -/
def roundCount (m : MCount) : Nat := 6 + 52 / m.val

/-- The index `m - 1` of the last word. -/
def lastIndex (m : MCount) : BitVec 4 := BitVec.ofNat 4 (m.val - 1)

/-- `LoadV(off, m)` (R78), the first `n` of its words. -/
def loadV (buf : List Host.Cell) (off : Nat) (w : Work) : Nat → Work
  | 0 => w
  | n + 1 => (loadV buf off w n).setWord (BitVec.ofNat 4 n) (readWord buf (off + 4 * n))

/-- `StoreV(off, m)` (R79), the first `n` of its words. -/
def storeV (buf : List Host.Cell) (off : Nat) (w : Work) : Nat → List Host.Cell
  | 0 => buf
  | n + 1 => writeWord (storeV buf off w n) (off + 4 * n) (w.word (BitVec.ofNat 4 n))

/-- One word update of an encryption round (R80): `P <- p`, `Y <- V[next]`, `V[P]` plus `MX`, `Z <- V[P]`. -/
def encWord (key : Key) (p next : BitVec 4) (w : Work) : Work :=
  let y := w.word next
  let x := w.word p + mx y w.z w.sum (keySel key p w.e)
  { w.setWord p x with p := p, y := y, z := x }

/-- The words `P = 0 .. n-1` of an encryption round, ascending, each with its right-hand neighbour (R80). -/
def encWordsUpTo (key : Key) (w : Work) : Nat → Work
  | 0 => w
  | n + 1 => encWord key (BitVec.ofNat 4 n) (BitVec.ofNat 4 (n + 1)) (encWordsUpTo key w n)

/-- The head of an encryption round (R80): `RND` and `SUM` advance, and `E` is taken from the advanced `SUM`. -/
def encHead (w : Work) : Work :=
  { w with rnd := w.rnd + 1, sum := w.sum + Config.delta, e := rotation (w.sum + Config.delta) }

/-- One round of encryption (R80): `SUM` advances before it is used, then `P = 0 .. m-2`, then `P = m-1` with `V[0]`. -/
def encRound (key : Key) (m : MCount) (w : Work) : Work :=
  encWord key (lastIndex m) 0 (encWordsUpTo key (encHead w) (m.val - 1))

/-- `r` rounds of encryption. -/
def encRounds (key : Key) (m : MCount) (w : Work) : Nat → Work
  | 0 => w
  | r + 1 => encRound key m (encRounds key m w r)

/-- What `RoundEnc(m)` sets before its first round (R80): `M`, `ROUNDS`, `RND` and `SUM` 0, `Z` the last word. -/
def encInit (m : MCount) (w : Work) : Work :=
  { w with
    m := BitVec.ofNat 5 m.val, rounds := BitVec.ofNat 6 (roundCount m), rnd := 0, sum := 0, z := w.word (lastIndex m) }

/-- `RoundEnc(m)` (R80). -/
def roundEnc (key : Key) (m : MCount) (w : Work) : Work := encRounds key m (encInit m w) (roundCount m)

/-- One word update of a decryption round (R81): `P <- p`, `Z <- V[prev]`, `V[P]` minus `MX`, `Y <- V[P]`. -/
def decWord (key : Key) (p prev : BitVec 4) (w : Work) : Work :=
  let z := w.word prev
  let x := w.word p - mx w.y z w.sum (keySel key p w.e)
  { w.setWord p x with p := p, z := z, y := x }

/-- The words `P = n .. 1` of a decryption round, descending, each with its left-hand neighbour (R81). -/
def decWordsFrom (key : Key) (w : Work) : Nat → Work
  | 0 => w
  | n + 1 => decWordsFrom key (decWord key (BitVec.ofNat 4 (n + 1)) (BitVec.ofNat 4 n) w) n

/-- The head of a decryption round (R81): `E` is taken from `SUM` before it is stepped back. -/
def decHead (w : Work) : Work := { w with e := rotation w.sum }

/-- The end of a decryption round (R81): `SUM` steps back and `RND` advances. -/
def decStepBack (w : Work) : Work := { w with sum := w.sum - Config.delta, rnd := w.rnd + 1 }

/-- One round of decryption (R81): `E` from `SUM` before it is stepped back, `P = m-1 .. 1`, then `P = 0` with `V[m-1]`,
then `SUM` steps back. -/
def decRound (key : Key) (m : MCount) (w : Work) : Work :=
  decStepBack (decWord key 0 (lastIndex m) (decWordsFrom key (decHead w) (m.val - 1)))

/-- The loop of R81: the body runs, then ends the loop when `SUM` is 0. `fuel` bounds it; by R91 the loop ends after
exactly `Rounds(m)` rounds, which is the fuel `roundDec` gives. -/
def decLoop (key : Key) (m : MCount) : Nat → Work → Work
  | 0, w => w
  | fuel + 1, w =>
    let w := decRound key m w
    if w.sum = 0 then w else decLoop key m fuel w

/-- What `RoundDec(m)` sets before its first round (R81): `SUM` is `Rounds(m)` times `DELTA`, `Y` the first word. -/
def decInit (m : MCount) (w : Work) : Work :=
  { w with
    m := BitVec.ofNat 5 m.val, rounds := BitVec.ofNat 6 (roundCount m), rnd := 0,
    sum := BitVec.ofNat 32 (roundCount m) * Config.delta, y := w.word 0 }

/-- `RoundDec(m)` (R81). -/
def roundDec (key : Key) (m : MCount) (w : Work) : Work := decLoop key m (roundCount m) (decInit m w)

/-- `RoundEnc(m)` or `RoundDec(m)`. -/
def roundFn (d : Dir) (key : Key) (m : MCount) (w : Work) : Work :=
  match d with
  | .enc => roundEnc key m w
  | .dec => roundDec key m w

/-- `EncBlock(off, m)` and `DecBlock(off, m)` (R82, R83): load, mix, store the `4*m` bytes at `off`. -/
def block (d : Dir) (off : Nat) (m : MCount) (s : State) : State :=
  let w := roundFn d s.key m (loadV s.buf off s.work m.val)
  { s with work := w, buf := storeV s.buf off w m.val }

end Sys2Proof.Machine
end

