-- ==== Sys2Proof/Machine/Direct.lean ====
section
/-! DEFINITION. The direct commands `ENC_FIXED`, `DEC_FIXED`, `ENC_WORDS` and `DEC_WORDS` (42_round_function.md R85 to
R90): their checks in the order of R104, then one block operation. -/

namespace Sys2Proof.Machine

/-- The fixed path as a command (R87, R88): `F_NOKEY`, then the guard of R89, which ends the command with no effect, then
one block of 16 words at `START`. -/
def fixedCommand (i : Instr) (d : Dir) (s : State) : State :=
  if !s.keyv then raiseFault .noKey s
  else if s.guard then finish i s
  else finishCipher i (block d s.start.toNat .sixteen s)

/-- The words path as a command (R85, R86): `F_NOKEY`, `F_OPERAND`, `F_RANGE`, then one block of `COUNT` words at
`START`. -/
def wordsCommand (i : Instr) (d : Dir) (s : State) : State :=
  if !s.keyv then raiseFault .noKey s
  else if h : s.legalN then
    if !s.inRange (4 * s.count.toNat) then raiseFault .range s
    else finishCipher i (block d s.start.toNat ⟨s.count.toNat, h.1, h.2⟩ s)
  else raiseFault .operand s

/-- `ENC_FIXED` (R87). -/
def execEncFixed (s : State) : Host.Outcome State Fault Refusal := .next (fixedCommand .encFixed .enc s)

/-- `DEC_FIXED` (R88). -/
def execDecFixed (s : State) : Host.Outcome State Fault Refusal := .next (fixedCommand .decFixed .dec s)

/-- `ENC_WORDS` (R85). -/
def execEncWords (s : State) : Host.Outcome State Fault Refusal := .next (wordsCommand .encWords .enc s)

/-- `DEC_WORDS` (R86). -/
def execDecWords (s : State) : Host.Outcome State Fault Refusal := .next (wordsCommand .decWords .dec s)

end Sys2Proof.Machine
end

