-- ==== Sys2Proof/Machine/TailPort.lean ====
section
/-! DEFINITION. The tail port and the two operations of the delegate (43_tail_port.md): the engine's request (R53), the
delegate's answer (R54, R96, R97) and the writing back (R98). -/

namespace Sys2Proof.Machine

/-- The delegate's function of a direction: `TailEnc(k, s)` (R96) or `TailDec(k, s)` (R97). -/
def tailFn (D : Config.Delegate) (d : Dir) (k : Key) {n : Nat} (s : Vector Byte n) : Vector Byte n :=
  match d with
  | .enc => D.enc k n s
  | .dec => D.dec k n s

/-- The span of a request: `TDATAi` for `i < TLEN` (R53). -/
def TailPort.span (p : TailPort) (len : BitVec 3) : Vector Byte len.toNat :=
  Vector.ofFn fun i => p.tdata[i.val]'(by have := i.isLt; have := len.isLt; omega)

/-- The delegate `D` answers the request whose header gives `len` (R54, R96, R97): `RDATAi` for `i < TLEN` is the answer's
byte, the rest of `RDATA`, which the engine ignores, is left free (log entry 9). -/
def respond (D : Config.Delegate) (d : Dir) (len : BitVec 3) (s : State) : State :=
  let a := tailFn D d s.port.tkey (s.port.span len)
  { s with
    port := { s.port with
      status := .answered
      rdata := Vector.ofFn fun i => if h : i.val < len.toNat then a[i.val] else Config.freeByte (s.draws + i.val) }
    draws := s.draws + 7 }

/-- The engine sends the request for the `LEFT` bytes at `OFF` (R53, R98): `TDIR = DIR`, `TLEN = LEFT`, `TKEY = KEY`, the
bytes copied out in buffer order, 0 beyond the span. -/
def tailSend (s : State) : State :=
  { s with
    port := { s.port with
      status := .requested
      thdr := tailHeader s.work.dir (s.work.left.setWidth 3)
      tkey := s.key
      tdata := Vector.ofFn fun i =>
        if i.val < s.work.left.toNat then readByte s.buf (s.work.off.toNat + i.val) else 0
      sent := s.port.sent + 1 } }

/-- The answer's first `TLEN` bytes are written back at the same `OFF` (R98); the rest is ignored (R54). -/
def tailBack (s : State) : State :=
  { s with buf := writeBytes s.buf s.work.off.toNat (fun i => s.port.rdata[i]?.getD 0) (tlenField s.port.thdr).toNat }

/-- `TAIL_ENC` (R96): the delegate's `encrypt_bytes` on the request's key and span. -/
def execTailEnc (len : BitVec 3) (s : State) : Host.Outcome State Fault Refusal :=
  .next (respond Config.delegate .enc len s)

/-- `TAIL_DEC` (R97): the delegate's `decrypt_bytes` on the request's key and span. -/
def execTailDec (len : BitVec 3) (s : State) : Host.Outcome State Fault Refusal :=
  .next (respond Config.delegate .dec len s)

end Sys2Proof.Machine
end

