-- ==== Sys2Proof/Machine/Dispatcher.lean ====
section
/-! DEFINITION. The dispatch commands `ENCRYPT` and `DECRYPT` (41_dispatch_commands.md): the checks (R65), the pseudocode
of R67 as one atomic command (R60, log entry 4), and the same pseudocode cut into the engine's moves, one part a move,
for a command whose `BUSY` time the host looks into (R39, log entry 24). -/

namespace Sys2Proof.Machine

/-- The checks of `ENCRYPT` and `DECRYPT`, in order (R65). -/
def dispatchCheck (s : State) : Option FCode :=
  if !s.keyv then some .noKey
  else if !s.inRange s.count.toNat then some .range
  else none

/-- `DIR`, `FULL <- COUNT div 64`, `LEFT <- COUNT mod 64`, `OFF <- START` (R67). -/
def dispatchBegin (d : Dir) (s : State) : State :=
  { s with
    phase := .super
    work := { s.work with
      dir := d, full := BitVec.ofNat 26 (s.count.toNat / 64), left := BitVec.ofNat 6 (s.count.toNat % 64),
      off := s.start } }

/-- Step 2 of R67, its body: one super-block at `OFF`, `OFF <- OFF + 64`, `FULL <- FULL - 1`. -/
def superBlock (s : State) : State :=
  let s := block s.work.dir s.work.off.toNat .sixteen s
  { s with work := { s.work with off := s.work.off + 64, full := s.work.full - 1 } }

/-- Step 2 of R67: the super-blocks, first to last (R70). -/
def superPhase : Nat → State → State
  | 0, s => s
  | n + 1, s => superPhase n (superBlock s)

/-- Step 4 of R67, its head: `NW <- LEFT div 4`. -/
def enterWords (s : State) : State :=
  { s with phase := .words, work := { s.work with nw := BitVec.ofNat 4 (s.work.left.toNat / 4) } }

/-- The words run at `OFF`, and `LEFT <- LEFT - 4 * NW` (R67, R71). -/
def wordsBlock (m : MCount) (s : State) : State :=
  let s := block s.work.dir s.work.off.toNat m s
  { s with work := { s.work with left := s.work.left - BitVec.ofNat 6 (4 * s.work.nw.toNat) } }

/-- `OFF <- OFF + 4 * NW` (R67), and on to the tail. -/
def advanceWords (s : State) : State :=
  { s with phase := .tail, work := { s.work with off := s.work.off + BitVec.ofNat 32 (4 * s.work.nw.toNat) } }

/-- Nothing taken by the words path: on to the tail with `OFF` and `LEFT` as they are (R67, 90_conflicts.md C3). -/
def skipWords (s : State) : State := { s with phase := .tail }

/-- The operand count `NW`, when it is more than 1 (R71). -/
def nwCount (s : State) (h : 1 < s.work.nw.toNat) : MCount :=
  ⟨s.work.nw.toNat, h, Nat.le_of_lt s.work.nw.isLt⟩

/-- Step 5 of R67: `TailEncPhase(OFF, LEFT)` or `TailDecPhase(OFF, LEFT)` (R98), the delegate answering at once. -/
def tailPhase (D : Config.Delegate) (s : State) : State :=
  let s := tailSend s
  tailBack (respond D s.work.dir (tlenField s.port.thdr) s)

/-- Steps 4 and 5 of R67, for a `LEFT` that is not 0. -/
def restPhase (D : Config.Delegate) (s : State) : State :=
  let s := enterWords s
  if h : 1 < s.work.nw.toNat then
    let s := wordsBlock (nwCount s h) s
    if s.work.left = 0 then s else tailPhase D (advanceWords s)
  else tailPhase D (skipWords s)

/-- Steps 2 to 5 of R67 (and of R68 with `DIR` 1): every part of the region in turn. -/
def dispatchParts (D : Config.Delegate) (s : State) : State :=
  let s := superPhase s.work.full.toNat s
  if s.work.left = 0 then s else restPhase D s

/-- The pseudocode of R67 after the checks and the setting of `DIR`, `FULL`, `LEFT`, `OFF`, to the command's end. -/
def dispatchRun (D : Config.Delegate) (i : Instr) (s : State) : State := finishCipher i (dispatchParts D s)

/-- `ENCRYPT` and `DECRYPT` as one atomic command (R60, R67, R68), with the tail delegate `D` (R101: the delegate's
functions are arguments of the model). -/
def dispatchCommand (D : Config.Delegate) (i : Instr) (d : Dir) (s : State) : State :=
  match dispatchCheck s with
  | some c => raiseFault c s
  | none => dispatchRun D i (dispatchBegin d s)

/-- `ENCRYPT` (R67). -/
def execEncrypt (s : State) : Host.Outcome State Fault Refusal :=
  .next (dispatchCommand Config.delegate .encrypt .enc s)

/-- `DECRYPT` (R68). -/
def execDecrypt (s : State) : Host.Outcome State Fault Refusal :=
  .next (dispatchCommand Config.delegate .decrypt .dec s)

/-! The engine's moves of a dispatch command in flight. -/

/-- The first move: the checks, then the setting of the working registers. -/
def dispatchLaunch (d : Dir) (s : State) : State :=
  match dispatchCheck s with
  | some c => raiseFault c s
  | none => dispatchBegin d s

/-- A move in the phase `SUPER`: one super-block, or on to step 3. -/
def superMove (i : Instr) (s : State) : State :=
  if s.work.full = 0 then
    if s.work.left = 0 then finishCipher i s else enterWords s
  else superBlock s

/-- A move in the phase `WORDS`: the words run, or on to the tail. -/
def wordsMove (i : Instr) (s : State) : State :=
  if h : 1 < s.work.nw.toNat then
    let s := wordsBlock (nwCount s h) s
    if s.work.left = 0 then finishCipher i s else advanceWords s
  else skipWords s

/-- A move in the phase `TAIL`: send the request, wait for the answer without a timeout (R127), write it back. -/
def tailMove (i : Instr) (s : State) : State :=
  match s.port.status with
  | .quiet => tailSend s
  | .requested => s
  | .answered => finishCipher i (tailBack s)

/-- One move of the engine on a dispatch command in flight. -/
def dispatchMove (i : Instr) (d : Dir) (s : State) : State :=
  match s.phase with
  | .idle => dispatchLaunch d s
  | .super => superMove i s
  | .words => wordsMove i s
  | .tail => tailMove i s

end Sys2Proof.Machine
end

