-- ==== Sys2Proof/Machine/Dispatch.lean ====
section
/-! DEFINITION. `exec`: one arm per constructor of `Instr`, each one call of its meaning. -/

namespace Sys2Proof.Machine

def exec (i : Instr) (s : State) : Host.Outcome State Fault Refusal :=
  match i with
  | .nop => Sys2Proof.Machine.execNop s
  | .loadkey => Sys2Proof.Machine.execLoadkey s
  | .encrypt => Sys2Proof.Machine.execEncrypt s
  | .decrypt => Sys2Proof.Machine.execDecrypt s
  | .encFixed => Sys2Proof.Machine.execEncFixed s
  | .decFixed => Sys2Proof.Machine.execDecFixed s
  | .encWords => Sys2Proof.Machine.execEncWords s
  | .decWords => Sys2Proof.Machine.execDecWords s
  | .clrf => Sys2Proof.Machine.execClrf s
  | .tailEnc len => Sys2Proof.Machine.execTailEnc len s
  | .tailDec len => Sys2Proof.Machine.execTailDec len s

end Sys2Proof.Machine
end

