-- ==== Sys2Proof/Machine/Moves.lean ====
section
/-! DEFINITION. What each agent's move does to the block (70_reset_and_hazards.md R131): the host's register writes and
reads and the launch of a command (40_control_commands.md R60, 30_encoding.md R51), its buffer accesses (R120), reset
(R116, R117), the engine going on, the delegate answering (R95, R127); and what happens when nothing is scheduled. -/

namespace Sys2Proof.Machine

/-- A command is launched (R60): `BUSY <- 1`. -/
def launch (i : Instr) (s : State) : State := { s with busy := true, inflight := some i }

/-- The command word that is accepted while `FAULT = 1` (R106). -/
def clrfWord : Word := 0x00000008

/-- A host write of `w` to `CMD` (R60, log entry 25). With `wait` the command is one atomic step (R60, R41, R55, log
entry 4); without it the command is left in flight, makes its checks at the engine's first move (log entry 23), and the
agents' next moves happen while `BUSY = 1`. -/
def cmdWrite (wait : Bool) (w : Word) (s : State) : Host.Outcome State Fault Refusal :=
  if s.busy then .next s
  else if s.fault then
    if w = clrfWord then exec .clrf s else .next s
  else
    match decodeCmd w with
    | .error _ => .next (raiseFault .illCmd s)
    | .ok i => if wait then exec i (launch i s) else .next (launch i s)

/-- A host register write (R51): one aligned word (log entry 13); ignored while `BUSY = 1`, so a command in flight reads
its sampled operands in the registers (R48, log entry 15). -/
def hostWrite (wait : Bool) (off : BitVec 6) (v : Word) (s : State) : Host.Outcome State Fault Refusal :=
  if !regAligned off then .refused .unalignedRegisterAccess
  else if s.busy then .next s
  else if regAt off = .cmd then cmdWrite wait v s
  else .next (writeReg (regAt off) v s)

/-- A host register read (R51): one aligned word, also while `BUSY = 1`; no side effect on the block (R40). -/
def hostRead (off : BitVec 6) (s : State) : Host.Outcome State Fault Refusal :=
  if !regAligned off then .refused .unalignedRegisterAccess
  else .next { s with hostWord := readReg (regAt off) s }

/-- Another agent than the engine writes a byte of the buffer. During a command the offset is noted, and the part it
lies in ends unspecified (R120). -/
def poke (a : Word) (b : Byte) (s : State) : State :=
  { s with
    buf := writeByte s.buf a.toNat b
    touched := if s.inflight.isSome then a.toNat :: s.touched else s.touched }

/-- The offset lies in the region of the command in flight. -/
def owned (s : State) (a : Nat) : Bool :=
  match s.inflight with
  | none => false
  | some i => inRegion i s a

/-- The host reads a byte of the buffer: in the region of a command in flight "what it reads there is unspecified"
(R120), a free value (log entry 11). -/
def peek (a : Word) (s : State) : State :=
  if owned s a.toNat then { s with hostByte := Config.freeByte s.draws, draws := s.draws + 1 }
  else { s with hostByte := readByte s.buf a.toNat }

/-- Reset abandons the command in flight: the bytes of its region are unspecified (R117). -/
def abandon (s : State) : State :=
  match s.inflight with
  | none => s
  | some i => s.forgetBytes s.start.toNat (footprint i s)

/-- The reset input is asserted (R116): every piece of the engine's state as R25 says, the working registers
unspecified, the buffer outside an abandoned command's region untouched, nothing sent on the tail port. A request that
stands on the port is withdrawn with its command, which the spec does not say (log entry 26). The model's own fields go
on: what is scheduled, what the host read last, the sticky mark, the counters. -/
def assertReset (s : State) : State :=
  let t := abandon s
  { State.reset with
    buf := t.buf
    work := freeWork t.draws
    port := { TailPort.reset with sent := t.port.sent }
    todo := t.todo
    hostWord := t.hostWord
    hostByte := t.hostByte
    faulted := t.faulted
    draws := t.draws + freeWorkSize }

/-- The engine goes on with the command in flight by one part; idle, it does nothing (R118). -/
def engineMove (s : State) : Host.Outcome State Fault Refusal :=
  match s.inflight with
  | none => .next s
  | some .encrypt => .next (dispatchMove .encrypt .enc s)
  | some .decrypt => .next (dispatchMove .decrypt .dec s)
  | some i => exec i s

/-- The delegate answers the request on the port (R95, R96, R97): it decodes the header and executes. With no request on
the port the model stops: one was never sent (log entry 22), or reset has withdrawn it and the answer comes late, of
which the spec says nothing (log entry 26). -/
def delegateMove (s : State) : Host.Outcome State Fault Refusal :=
  if s.port.status = .requested then exec (decodeTail s.port.thdr) s else .fault .answerUnasked

/-- The delegate answers the request on the port with the bytes `r`, which the engine takes as they are (R127). With no
request on the port the model stops, as in `delegateMove` (log entries 22 and 26). -/
def answerMove (r : Vector Byte 7) (s : State) : Host.Outcome State Fault Refusal :=
  if s.port.status = .requested then .next { s with port := { s.port with status := .answered, rdata := r } }
  else .fault .answerUnasked

/-- Nothing is scheduled: a command in flight goes on, the delegate answering what it is asked; an idle engine waits
(R118, log entry 6). -/
def ownMove (s : State) : Host.Outcome State Fault Refusal :=
  if s.port.status = .requested then delegateMove s else engineMove s

/-- One move. -/
def makeMove (mv : Move) (s : State) : Host.Outcome State Fault Refusal :=
  match mv with
  | .wr off v => hostWrite true off v s
  | .post off v => hostWrite false off v s
  | .rd off => hostRead off s
  | .narrow _ => .refused .narrowRegisterAccess
  | .poke a b => .next (poke a b s)
  | .peek a => .next (peek a s)
  | .reset => .next (assertReset s)
  | .pause => .next s
  | .engine => engineMove s
  | .delegate => delegateMove s
  | .answer r => answerMove r s

/-- One step: the first scheduled move, taken off the schedule, or the block's own. -/
def runMove (s : State) : Host.Outcome State Fault Refusal :=
  match s.todo with
  | [] => ownMove s
  | mv :: rest => makeMove mv { s with todo := rest }

/-- The command word `w` stands as the host's next `CMD` write, the engine ready for it (R60): idle, and, but for
`CLRF`, which a recorded fault does not hold up, with no fault recorded. -/
def placeCommand (w : Word) (s : State) : State :=
  let t := { s.toIdle with todo := .wr 0x00 w :: s.todo }
  if w = clrfWord then t else { t with fault := false, fcode := 0 }

/-- The request header `h` stands on the tail port, and the delegate moves next. -/
def placeRequest (h : BitVec 4) (s : State) : State :=
  { s with port := { s.port with status := .requested, thdr := h }, todo := .delegate :: s.todo }

end Sys2Proof.Machine
end

