-- ==== Sys2Proof/Machine/HostProgram.lean ====
section
/-! DEFINITION. Host programs (30_encoding.md R55 to R57): the primitive lines `WR` and `RD` are the moves `.wr` and
`.rd`, and each pseudo-command of R56 expands to such lines, in the order shown there. -/

namespace Sys2Proof.Machine.HostProgram

/-- The offset of a register in the `REG` space (R50). -/
def offCmd : BitVec 6 := 0x00
def offStatus : BitVec 6 := 0x04
def offStart : BitVec 6 := 0x08
def offCount : BitVec 6 := 0x0C
def offBuflen : BitVec 6 := 0x10
def offKeyin (i : Fin 4) : BitVec 6 := BitVec.ofNat 6 (0x20 + 4 * i.val)

/-- The pseudo-commands (R56). -/
def nop : List Move := [.wr offCmd 0x0]
def loadkey (k0 k1 k2 k3 : Word) : List Move :=
  [.wr (offKeyin 0) k0, .wr (offKeyin 1) k1, .wr (offKeyin 2) k2, .wr (offKeyin 3) k3, .wr offCmd 0x1]
def setlen (len : Word) : List Move := [.wr offBuflen len]
def encrypt (start count : Word) : List Move := [.wr offStart start, .wr offCount count, .wr offCmd 0x2]
def decrypt (start count : Word) : List Move := [.wr offStart start, .wr offCount count, .wr offCmd 0x3]
def encFixed (start : Word) : List Move := [.wr offStart start, .wr offCmd 0x4]
def decFixed (start : Word) : List Move := [.wr offStart start, .wr offCmd 0x5]
def encWords (start n : Word) : List Move := [.wr offStart start, .wr offCount n, .wr offCmd 0x6]
def decWords (start n : Word) : List Move := [.wr offStart start, .wr offCount n, .wr offCmd 0x7]
def clrf : List Move := [.wr offCmd 0x8]

/-- `FILL a, b0 b1 ...`: the host writes the bytes to `BUF[a], BUF[a+1], ...`; no register access. -/
def fill (a : Word) : List Byte → List Move
  | [] => []
  | b :: rest => .poke a b :: fill (a + 1) rest

end Sys2Proof.Machine.HostProgram
end

