-- ==== Sys2Proof/Machine/Step.lean ====
section
/-! DEFINITION. The step of the machine, and how the host's check places one instruction where the step takes it. -/

namespace Sys2Proof.Machine

/-- One step (R7, R131): the next move of the schedule, or the block's own when nothing is scheduled. -/
def step (s : State) : Host.Outcome State Fault Refusal := runMove s

/-- The instruction of `nbits` bits `w`, placed where the next step takes it (log entry 5): a command word as the host's
next `CMD` write, a request header on the tail port with the delegate next to move. -/
def State.withFetchWord (s : State) (nbits w : Nat) : State :=
  if nbits = 32 then placeCommand (BitVec.ofNat 32 w) s else placeRequest (BitVec.ofNat 4 w) s

end Sys2Proof.Machine
end

