-- ==== Sys2Proof/Safety.lean ====
section
/-! DEFINITION. What counts as a safe run, in the terms claims use: the named premises of 70_reset_and_hazards.md R132, the
invariant of the machine, and what a command leaves behind (R26, R38, R66). -/

namespace Sys2Proof.Machine

/-! The premises of R132. `Backed` holds of every state: every 32-bit offset is a byte of the model's buffer (log entry
14); `LegalN` is `State.legalN`. -/

/-- `KeyLoaded`. -/
def KeyLoaded (s : State) : Prop := s.keyv = true

/-- `NoFault`: none recorded, and none recorded earlier in the run (R109). -/
def NoFault (s : State) : Prop := s.fault = false ∧ s.faulted = false

/-- `InRange` for a region of `len` bytes, without wrap-around (R36). -/
def InRange (s : State) (len : Nat) : Prop := s.start.toNat + len ≤ s.buflen.toNat

/-- `Owned`: no other agent has written the region of the command `i` during it; writes of bytes outside the region are
no matter (R120). -/
def Owned (i : Instr) (s : State) : Prop := ∀ a ∈ s.touched, inRegion i s a = false

/-- `TailContract`: the inverse law of a delegate, on spans of length 1 to 7 (R97 (d)); that its functions are total,
length-preserving and depend on their arguments alone stands in their types (R96 (a) to (c), R100). -/
def TailContract (D : Config.Delegate) : Prop :=
  ∀ (k : Key) (n : Nat) (x : Vector Byte n), 1 ≤ n → n ≤ 7 → D.dec k n (D.enc k n x) = x

/-- `SameCall`: the same `START`, `COUNT` and key (R124, R132). -/
def SameCall (s t : State) : Prop := t.start = s.start ∧ t.count = s.count ∧ t.key = s.key

/-- `Idle`, with the sequencing state that goes with it: no command in flight, nothing on the tail port. -/
def AtRest (s : State) : Prop :=
  s.busy = false ∧ s.inflight = none ∧ s.phase = .idle ∧ s.touched = [] ∧ s.port.status = .quiet

/-! The invariant. -/

/-- How far a dispatch command in flight has come (R20): `OFF` and the counters account for every byte still to do, so
`OFF` never leaves `START .. START + COUNT` and never wraps. -/
def Progress (s : State) : Prop :=
  match s.phase with
  | .idle => True
  | .super =>
    s.work.off.toNat + 64 * s.work.full.toNat + s.work.left.toNat = s.start.toNat + s.count.toNat ∧
      s.start.toNat ≤ s.work.off.toNat
  | .words =>
    s.work.off.toNat + s.work.left.toNat = s.start.toNat + s.count.toNat ∧ s.start.toNat ≤ s.work.off.toNat ∧
      s.work.left ≠ 0 ∧ s.work.nw.toNat = s.work.left.toNat / 4
  | .tail =>
    s.work.off.toNat + s.work.left.toNat = s.start.toNat + s.count.toNat ∧ s.start.toNat ≤ s.work.off.toNat ∧
      1 ≤ s.work.left.toNat ∧ s.work.left.toNat ≤ 7

/-- The direction a dispatch command works in. -/
def Runs (s : State) (d : Dir) : Prop :=
  s.work.dir = d ∧ KeyLoaded s ∧ InRange s s.count.toNat

/-- The invariant every step keeps. -/
structure EngineInv (s : State) : Prop where
  /-- The buffer is in canonical form and lists only offsets of the 32-bit space (R30). -/
  canonical : Memory.wf s.buf = true
  inSpace : Memory.inSpace s.buf = true
  /-- `FCODE` is 0 exactly when `FAULT` is 0 (R21), and never a reserved code (R103). -/
  code : s.fault = false ↔ s.fcode = 0
  legalCode : s.fcode.toNat ≤ 4
  /-- A fault is recorded only by an engine that is idle again (R105), and is in the sticky mark (R109). -/
  faultIdle : s.fault = true → s.busy = false
  sticky : s.fault = true → s.faulted = true
  /-- Before `LOADKEY` the key is the reset's (R25). -/
  noKey : s.keyv = false → s.key = Vector.replicate 4 0
  /-- `BUSY` is 1 exactly while a command is in flight, and that is one of the nine commands (R60, R95). -/
  busy : s.busy = s.inflight.isSome
  command : ∀ i, s.inflight = some i → i.isCommand = true
  /-- An idle engine is at rest (R20). -/
  rest : s.inflight = none → AtRest s
  /-- Beyond its first move only a dispatch command is in flight, its checks passed (R65). -/
  running : s.phase ≠ .idle →
    s.inflight = some .encrypt ∧ Runs s .enc ∨ s.inflight = some .decrypt ∧ Runs s .dec
  progress : Progress s
  /-- A request stands on the port only in the tail phase, for the bytes that are left (R53, R95). -/
  port : s.port.status ≠ .quiet →
    s.phase = .tail ∧ s.port.thdr = tailHeader s.work.dir (s.work.left.setWidth 3)

/-! What a command leaves. -/

/-- A fault was recorded, and nothing else the spec gives the machine has changed (R105): from `s` to `t`. -/
def FaultRecorded (code : BitVec 4) (s t : State) : Prop :=
  t = { s with
    fault := true, fcode := code, busy := false, faulted := true, inflight := none, phase := .idle, touched := [],
    port := { s.port with status := .quiet } }

/-- The command ended and nothing else the spec gives the machine has changed. -/
def Ended (s t : State) : Prop :=
  t = { s with
    busy := false, inflight := none, phase := .idle, touched := [], port := { s.port with status := .quiet } }

/-- What no cipher command that completes writes (R10, R18, R26): the key, the operand registers, the fault record, the
host's side; the engine is at rest again. -/
def KeepsRegisters (s t : State) : Prop :=
  t.key = s.key ∧ t.keyv = s.keyv ∧ t.keyin = s.keyin ∧ t.start = s.start ∧ t.count = s.count ∧ t.buflen = s.buflen ∧
    t.fault = s.fault ∧ t.fcode = s.fcode ∧ t.faulted = s.faulted ∧ t.todo = s.todo ∧ t.hostWord = s.hostWord ∧
    t.hostByte = s.hostByte ∧ AtRest t

/-- Every byte outside the `len` bytes at `START` reads as before (R38). -/
def KeepsOutside (s t : State) (len : Nat) : Prop :=
  ∀ a, a < s.start.toNat ∨ s.start.toNat + len ≤ a → readByte t.buf a = readByte s.buf a

/-- One round of `RoundEnc(m)` as R80 tells it, from the working registers `w` to `w'`: `SUM` advances first; for `P` from 0
to `m-2` `Y` is the old next word and `Z` the word just written (at first the carried `Z`); for `P = m-1` `Y` is the new
`V[0]`; the key word is `KEY[(P & 3) ^ E]` with `E = (SUM >> 2) & 3`; `Z` is carried on. -/
def EncRoundStep (key : Key) (m : MCount) (w w' : Work) : Prop :=
  let e := w'.sum.toNat / 4 % 4
  w'.sum = w.sum + 0x9E3779B9 ∧ w'.z = w'.word (BitVec.ofNat 4 (m.val - 1)) ∧
    (∀ p, p + 1 < m.val → ∃ k, key[p % 4 ^^^ e]? = some k ∧
      w'.word (BitVec.ofNat 4 p) = w.word (BitVec.ofNat 4 p) +
        mx (w.word (BitVec.ofNat 4 (p + 1))) (if p = 0 then w.z else w'.word (BitVec.ofNat 4 (p - 1))) w'.sum k) ∧
    ∃ k, key[(m.val - 1) % 4 ^^^ e]? = some k ∧
      w'.word (BitVec.ofNat 4 (m.val - 1)) = w.word (BitVec.ofNat 4 (m.val - 1)) +
        mx (w'.word 0) (w'.word (BitVec.ofNat 4 (m.val - 2))) w'.sum k

/-- One round of `RoundDec(m)` as R81 tells it, from the working registers `w` to `w'`: `E` is from the `SUM` before it is
stepped back; for `P` from `m-1` down to 1 `Z` is the not yet restored word before and `Y` the word just restored (at
first the carried `Y`); for `P = 0` `Z` is the restored `V[m-1]`; then `SUM` steps back; `Y` is carried on. -/
def DecRoundStep (key : Key) (m : MCount) (w w' : Work) : Prop :=
  let e := w.sum.toNat / 4 % 4
  w'.sum = w.sum - 0x9E3779B9 ∧ w'.y = w'.word 0 ∧
    (∀ p, 1 ≤ p → p < m.val → ∃ k, key[p % 4 ^^^ e]? = some k ∧
      w'.word (BitVec.ofNat 4 p) = w.word (BitVec.ofNat 4 p) -
        mx (if p + 1 = m.val then w.y else w'.word (BitVec.ofNat 4 (p + 1))) (w.word (BitVec.ofNat 4 (p - 1))) w.sum k) ∧
    ∃ k, key[e]? = some k ∧
      w'.word 0 = w.word 0 - mx (w'.word 1) (w'.word (BitVec.ofNat 4 (m.val - 1))) w.sum k

/-- Word `j` of what the round function makes of the `m` words at offset `off` of a buffer (R82, R83), begun from working
registers that hold zeros: a command's result does not depend on what they held (R17). -/
def mixedWord (d : Dir) (key : Key) (m : MCount) (buf : List Host.Cell) (off j : Nat) : Word :=
  (roundFn d key m (loadV buf off Work.reset m.val)).word (BitVec.ofNat 4 j)

/-- The `m` words at offset `off` have been mixed: from the buffer of `s` to that of `t`. -/
def Mixed (d : Dir) (m : MCount) (off : Nat) (s t : State) : Prop :=
  ∀ j, j < m.val → readWord t.buf (off + 4 * j) = mixedWord d s.key m s.buf off j

/-- The span of `n` bytes at offset `off` (R98). -/
def spanAt (buf : List Host.Cell) (off n : Nat) : Vector Byte n := Vector.ofFn fun i => readByte buf (off + i.val)

/-- The `n` bytes at offset `off` have gone through the connected tail delegate's function (R98). -/
def Tailed (d : Dir) (n off : Nat) (s t : State) : Prop :=
  ∀ k, (h : k < n) → readByte t.buf (off + k) = (tailFn Config.delegate d s.key (spanAt s.buf off n))[k]

/-- Offset `c` lies in no part of the region of command `i` that holds one of the offsets `l` (R120). -/
def ClearOf (i : Instr) (s : State) (l : List Nat) (c : Nat) : Prop :=
  ∀ a ∈ l, inRegion i s a = true → c < (partOf i s a).1 ∨ (partOf i s a).1 + (partOf i s a).2 ≤ c

/-- What `ENCRYPT` and `DECRYPT` leave (R66, R67, R68, R70 to R73): every super-block, the words run and the tail, each
made from its own old bytes and the key; every other byte as before. -/
def Dispatched (d : Dir) (s t : State) : Prop :=
  let q := partition s.count.toNat
  let b := s.start.toNat
  (∀ i, i < q.full → Mixed d .sixteen (b + 64 * i) s t) ∧
    (∀ m : MCount, m.val = q.nw → Mixed d m (b + 64 * q.full) s t) ∧
    Tailed d q.tail (b + 64 * q.full + 4 * q.nw) s t ∧
    KeepsOutside s t s.count.toNat

end Sys2Proof.Machine
end

