-- ==== Sys2Proof/Certificates/Slice0/Obligations.lean ====
section
/-! DEFINITION. The statements about the model, for the provers. Each says in its docstring which rule of spec/ it
formalises; where it rests on a choice of the model's, it says so and names the log entry. -/

open Sys2Proof Sys2Proof.Machine

/-! Encoding. -/

/-- Words written out from R47 and R53 decode to what those tables say, and two illegal words are rejected (R49). -/
def Obligations.TableWordsDecode : Prop :=
  decodeCmd 0x00000000 = .ok .nop ∧ decodeCmd 0x00000001 = .ok .loadkey ∧ decodeCmd 0x00000002 = .ok .encrypt ∧
    decodeCmd 0x00000005 = .ok .decFixed ∧ decodeCmd 0x00000006 = .ok .encWords ∧ decodeCmd 0x00000008 = .ok .clrf ∧
    decodeTail 0b0011 = .tailEnc 3 ∧ decodeTail 0b1111 = .tailDec 7 ∧
    decodeCmd 0x00000009 = .error (.reservedOpcode 9) ∧ decodeCmd 0x00000012 = .error .reservedBitsSet

/-- Decode and encode agree, both ways: every instruction is read back from its own encoding, and what decodes to an
instruction is that instruction's encoding, so no other word or header executes as it (R47, R49, R53). -/
def Obligations.DecodeAndEncodeAgree : Prop :=
  (∀ i : Instr, decode (encode i) = .ok i) ∧
    (∀ (x : Wire) (i : Instr), decode x = .ok i → encode i = x)

/-- R49: a `CMD` write, made while `BUSY = 0` and `FAULT = 0`, whose `OP` is `1001` to `1111` or whose `RSV` is not zero,
launches nothing and records `F_ILLCMD`; every other word is the encoding of one command. -/
def Obligations.IllegalCommandWordsFault : Prop :=
  ∀ w : Word,
    (9 ≤ (w.extractLsb' 0 4).toNat ∨ w.extractLsb' 4 28 ≠ 0 →
      ∀ (s : State) (rest : List Move), AtRest s → s.fault = false →
        (s.todo = .wr 0x00 w :: rest ∨ s.todo = .post 0x00 w :: rest) →
        step s = .next { s with todo := rest, fault := true, fcode := 4, faulted := true }) ∧
    (¬ (9 ≤ (w.extractLsb' 0 4).toNat ∨ w.extractLsb' 4 28 ≠ 0) →
      ∃ i : Instr, decodeCmd w = .ok i ∧ i.isCommand = true ∧ encode i = .cmd w)

/-! A step. -/

/-- A step whose next move is a `CMD` write of a word that decodes, the engine idle and no fault recorded, is `exec` of
that command, launched (R60); the move is taken off the schedule. -/
def Obligations.StepRunsTheLaunchedCommand : Prop :=
  ∀ (s : State) (w : Word) (i : Instr) (rest : List Move),
    s.todo = .wr 0x00 w :: rest → s.busy = false → s.fault = false → decodeCmd w = .ok i →
    step s = exec i { s with todo := rest, busy := true, inflight := some i }

/-- A step whose next move is the delegate's, a request standing on the port, is `exec` of the instruction the request's
header decodes to (R53, R95). -/
def Obligations.StepRunsTheDelegatesOperation : Prop :=
  ∀ (s : State) (rest : List Move),
    s.todo = .delegate :: rest → s.port.status = .requested →
    step s = exec (decodeTail s.port.thdr) { s with todo := rest }

/-- A `CMD` write that does not wait leaves the command in flight with `BUSY = 1` and nothing else changed (the launch of
R60; that its checks wait for the engine's first move is the model's, log entry 23), and the engine's next move on a
command other than `ENCRYPT` and `DECRYPT` is `exec` of it (that it runs in one move is the model's choice, log entry
24). -/
def Obligations.PostedCommandIsInFlight : Prop :=
  ∀ (s : State) (w : Word) (i : Instr) (rest : List Move),
    s.todo = .post 0x00 w :: .engine :: rest → s.busy = false → s.fault = false → decodeCmd w = .ok i →
    step s = .next { s with todo := .engine :: rest, busy := true, inflight := some i } ∧
      (i ≠ .encrypt → i ≠ .decrypt →
        step { s with todo := .engine :: rest, busy := true, inflight := some i } =
          exec i { s with todo := rest, busy := true, inflight := some i })

/-- R106: while `FAULT = 1` the engine accepts no command but `CLRF`; any other value written to `CMD` is ignored and does
not replace the recorded code; writes to the operand registers and `KEYIN0..3` are accepted as usual. -/
def Obligations.FaultedEngineTakesOnlyClrf : Prop :=
  ∀ (s : State) (v : Word) (rest : List Move), AtRest s → s.fault = true →
    (∀ mv, (mv = .wr 0x00 v ∨ mv = .post 0x00 v) → s.todo = mv :: rest →
      step s = if v = 0x00000008 then .next { s with todo := rest, fault := false, fcode := 0 }
        else .next { s with todo := rest }) ∧
    (∀ off, (s.todo = .wr off v :: rest ∨ s.todo = .post off v :: rest) →
      (off = 0x08 → step s = .next { s with todo := rest, start := v }) ∧
      (off = 0x0C → step s = .next { s with todo := rest, count := v }) ∧
      (off = 0x10 → step s = .next { s with todo := rest, buflen := v }) ∧
      (∀ i : Fin 4, off = BitVec.ofNat 6 (0x20 + 4 * i.val) →
        step s = .next { s with todo := rest, keyin := s.keyin.set i.val v }))

/-- R51 (b), R122: a host write to any register while `BUSY = 1` changes nothing and raises no fault. -/
def Obligations.RegisterWritesWhileBusyAreLost : Prop :=
  ∀ (s : State) (off : BitVec 6) (v : Word) (rest : List Move),
    s.busy = true → off.toNat % 4 = 0 → (s.todo = .wr off v :: rest ∨ s.todo = .post off v :: rest) →
    step s = .next { s with todo := rest }

/-- R50, R51 (c) and (d): a host read returns the register, or 0 for a write-only or reserved offset, idle or busy, and
changes nothing of the block. -/
def Obligations.HostReadsReturnTheRegister : Prop :=
  ∀ (s : State) (off : BitVec 6) (rest : List Move), off.toNat % 4 = 0 → s.todo = .rd off :: rest →
    step s = .next { s with
      todo := rest
      hostWord :=
        if off = 0x04 then s.status else if off = 0x08 then s.start else if off = 0x0C then s.count
        else if off = 0x10 then s.buflen else 0 }

/-- R18, R19, R50, R51 (d): a host write to an operand register of an idle engine sets it and nothing else; a write to
`STATUS` or to a reserved offset is ignored. -/
def Obligations.HostWritesSetTheOperandRegisters : Prop :=
  ∀ (s : State) (off : BitVec 6) (v : Word) (rest : List Move),
    s.busy = false → off.toNat % 4 = 0 → off ≠ 0x00 → (s.todo = .wr off v :: rest ∨ s.todo = .post off v :: rest) →
    step s = .next
      (if off = 0x08 then { s with todo := rest, start := v }
      else if off = 0x0C then { s with todo := rest, count := v }
      else if off = 0x10 then { s with todo := rest, buflen := v }
      else if off = 0x20 then { s with todo := rest, keyin := s.keyin.set 0 v }
      else if off = 0x24 then { s with todo := rest, keyin := s.keyin.set 1 v }
      else if off = 0x28 then { s with todo := rest, keyin := s.keyin.set 2 v }
      else if off = 0x2C then { s with todo := rest, keyin := s.keyin.set 3 v }
      else { s with todo := rest })

/-- R55, R56: on an engine at rest the expansion of each of the eleven pseudo-commands does what it stands for. `CLRF`
clears `FAULT` and `FCODE`, whether or not a fault is recorded; `FILL` writes its bytes at rising offsets, no other byte
and no register. With no fault recorded `NOP` changes nothing, `LOADKEY k0, k1, k2, k3` leaves the four words in `KEYIN0..3`
and in `KEY`, `SETLEN` sets `BUFLEN`, and a cipher pseudo-command comes to `exec` of its command with `START` and `COUNT` as
given. (The lines stand in the model's schedule, log entry 5.) -/
def Obligations.PseudoCommandsLaunchTheirCommand : Prop :=
  (∀ (s : State) (rest : List Move), AtRest s → s.todo = HostProgram.clrf ++ rest →
    Host.Core.run Sys2Proof.core 1 s = .next { s with todo := rest, fault := false, fcode := 0 }) ∧
  (∀ (s : State) (rest : List Move) (a : Word) (bytes : List Byte), AtRest s → Memory.wf s.buf = true →
    a.toNat + bytes.length ≤ 2 ^ 32 → s.todo = HostProgram.fill a bytes ++ rest →
    ∃ t, Host.Core.run Sys2Proof.core bytes.length s = .next t ∧ t = { s with todo := rest, buf := t.buf } ∧
      (∀ j, (h : j < bytes.length) → readByte t.buf (a.toNat + j) = bytes[j]) ∧
      ∀ c, c < a.toNat ∨ a.toNat + bytes.length ≤ c → readByte t.buf c = readByte s.buf c) ∧
  ∀ (s : State) (rest : List Move) (a n : Word), AtRest s → s.fault = false →
    (s.todo = HostProgram.nop ++ rest → Host.Core.run Sys2Proof.core 1 s = .next { s with todo := rest }) ∧
    (∀ k : Key, s.todo = HostProgram.loadkey k[0] k[1] k[2] k[3] ++ rest →
      Host.Core.run Sys2Proof.core 5 s = .next { s with todo := rest, keyin := k, key := k, keyv := true }) ∧
    (s.todo = HostProgram.setlen n ++ rest →
      Host.Core.run Sys2Proof.core 1 s = .next { s with todo := rest, buflen := n }) ∧
    (∀ p ∈ [(HostProgram.encrypt a n, Instr.encrypt), (HostProgram.decrypt a n, .decrypt),
        (HostProgram.encWords a n, .encWords), (HostProgram.decWords a n, .decWords)],
      s.todo = p.1 ++ rest →
      Host.Core.run Sys2Proof.core 3 s =
        exec p.2 { s with todo := rest, start := a, count := n, busy := true, inflight := some p.2 }) ∧
    (∀ p ∈ [(HostProgram.encFixed a, Instr.encFixed), (HostProgram.decFixed a, .decFixed)],
      s.todo = p.1 ++ rest →
      Host.Core.run Sys2Proof.core 2 s =
        exec p.2 { s with todo := rest, start := a, busy := true, inflight := some p.2 })

/-- R51 (a), and U9 of 93_implementation_defined.md ("refuse"): the model gives a byte or half-word access, or one that is
not aligned, no meaning (log entry 13). -/
def Obligations.NarrowRegisterAccessesAreRefused : Prop :=
  ∀ (s : State) (off : BitVec 6) (v : Word) (rest : List Move),
    (s.todo = .narrow off :: rest → step s = .refused .narrowRegisterAccess) ∧
    (off.toNat % 4 ≠ 0 → (s.todo = .wr off v :: rest ∨ s.todo = .post off v :: rest ∨ s.todo = .rd off :: rest) →
      step s = .refused .unalignedRegisterAccess)

/-- R118: with nothing scheduled an idle engine waits, and nothing changes (that an empty schedule lets the agents go on by
themselves is the model's choice, log entry 6). -/
def Obligations.IdleEngineWaits : Prop :=
  ∀ s : State, AtRest s → s.todo = [] → step s = .next s

/-- R7: a delegate acts only when the engine has sent a request; the model stops on any other answer (log entry 22; for
a late one after reset, on which the spec is silent, log entry 26). -/
def Obligations.UnaskedAnswersStop : Prop :=
  ∀ (s : State) (r : Vector Byte 7) (rest : List Move), s.port.status ≠ .requested →
    (s.todo = .delegate :: rest ∨ s.todo = .answer r :: rest) → step s = .fault .answerUnasked

/-- R41 (d), R30: a host's buffer write puts the byte at its offset and changes no other; during a command the offset is
noted, which is how the model keeps R120 (log entry 12). A host's read of a byte that is not in the region of a command in
flight returns that byte and changes nothing of the block. -/
def Obligations.HostBufferAccesses : Prop :=
  (∀ (s : State) (a : Word) (b : Byte) (rest : List Move), Memory.wf s.buf = true → s.todo = .poke a b :: rest →
    ∃ t, step s = .next t ∧ readByte t.buf a.toNat = b ∧
      (∀ c, c ≠ a.toNat → readByte t.buf c = readByte s.buf c) ∧
      t = { s with todo := rest, buf := t.buf, touched := t.touched } ∧
      t.touched = if s.inflight.isSome then a.toNat :: s.touched else s.touched) ∧
  (∀ (s : State) (a : Word) (rest : List Move), s.todo = .peek a :: rest →
    (∀ i, s.inflight = some i → a.toNat < s.start.toNat ∨ s.start.toNat + footprint i s ≤ a.toNat) →
    step s = .next { s with todo := rest, hostByte := readByte s.buf a.toNat })

/-! `STATUS`, reset, the invariant. -/

/-- R52, with the layout of R21: bit 0 `BUSY`, bit 1 `FAULT`, bit 2 `KEYV`, bits 7:4 `FCODE`, all other bits 0; so the
values a host can read when the engine is idle are `0`, `4`, and `0xX2` and `0xX6` with `X` the fault code 1 to 4. -/
def Obligations.StatusLayoutAndIdleValues : Prop :=
  (∀ s : State,
    s.status.toNat = (if s.busy then 1 else 0) + 2 * (if s.fault then 1 else 0) + 4 * (if s.keyv then 1 else 0) +
      16 * s.fcode.toNat) ∧
  (∀ s : State, EngineInv s → s.busy = false →
    s.status ∈ ([0x00, 0x04, 0x12, 0x22, 0x32, 0x42, 0x16, 0x26, 0x36, 0x46] : List Word))

/-- R25: the value the spec gives each piece of state after reset (the working registers, the buffer and the model's own
fields are not in it: the spec leaves them unspecified or does not name them). -/
def Obligations.ResetStateHoldsTheResetValues : Prop :=
  State.reset.key = Vector.replicate 4 0 ∧ State.reset.keyv = false ∧ State.reset.keyin = Vector.replicate 4 0 ∧
    State.reset.start = 0 ∧ State.reset.count = 0 ∧ State.reset.buflen = 0 ∧ State.reset.status = 0 ∧
    State.reset.phase = .idle ∧ State.reset.port.status = .quiet

/-- The invariant holds right after reset. -/
def Obligations.ResetMeetsTheInvariant : Prop := EngineInv State.reset

/-- Every step keeps the invariant (R20, R21, R25, R36, R60, R95, R105, R109): whatever the next move is, whoever makes
it. -/
def Obligations.EveryStepKeepsTheInvariant : Prop :=
  ∀ s t : State, EngineInv s → step s = .next t → EngineInv t

/-- R116, R117: reset from any state puts the engine at the values of R25 and sends nothing on the tail port; an idle
engine's buffer is untouched, and a command in flight is abandoned with every byte outside its region unchanged (that the
schedule, the sticky mark and the host's last reads go on and that a request on the port is withdrawn is the model's
choice, log entries 5, 16, 18 and 26). -/
def Obligations.AssertingResetClearsTheEngine : Prop :=
  ∀ (s : State) (rest : List Move), s.todo = .reset :: rest →
    ∃ t, step s = .next t ∧ t.key = Vector.replicate 4 0 ∧ t.keyv = false ∧ t.keyin = Vector.replicate 4 0 ∧
      t.start = 0 ∧ t.count = 0 ∧ t.buflen = 0 ∧ t.status = 0 ∧ AtRest t ∧ t.port.sent = s.port.sent ∧ t.todo = rest ∧
      (s.inflight = none → t.buf = s.buf) ∧
      (∀ i, s.inflight = some i → KeepsOutside s t (footprint i s))

/-- R10, R26, R116: only `LOADKEY` and reset change `KEY`, and only reset clears `KEYV`. -/
def Obligations.OnlyLoadkeyAndResetChangeTheKey : Prop :=
  ∀ s t : State, step s = .next t →
    (t.key = s.key ∧ t.keyv = s.keyv) ∨
    (t.key = s.keyin ∧ t.keyv = true ∧ ((∃ rest, s.todo = .wr 0x00 0x00000001 :: rest) ∨ s.inflight = some .loadkey)) ∨
    (t.key = Vector.replicate 4 0 ∧ t.keyv = false ∧ ∃ rest, s.todo = .reset :: rest)

/-- R108: faults do not nest: while `FAULT = 1` no step records another code; it stays, or is cleared; and `CLRF` itself
cannot fault. -/
def Obligations.FaultsDoNotNest : Prop :=
  (∀ s t : State, EngineInv s → s.fault = true → step s = .next t →
    (t.fault = true ∧ t.fcode = s.fcode) ∨ (t.fault = false ∧ t.fcode = 0)) ∧
  (∀ s : State, ∃ t, exec .clrf s = .next t ∧ t.fault = false ∧ t.fcode = 0)

/-- R109: a recorded fault stays in the model's sticky mark, after `CLRF` too (and after reset, the model's choice, log
entry 16). -/
def Obligations.RecordedFaultsStayMarked : Prop :=
  ∀ s t : State, step s = .next t →
    (s.faulted = true → t.faulted = true) ∧ (s.fault = false → t.fault = true → t.faulted = true)

/-- R127: while the delegate does not answer, the engine stays busy with its request standing, whatever else happens short
of a reset. -/
def Obligations.UnansweredRequestHoldsTheEngine : Prop :=
  ∀ (s t : State) (mv : Move) (rest : List Move), EngineInv s → s.port.status = .requested → s.todo = mv :: rest →
    mv ≠ .reset → mv ≠ .delegate → (∀ r, mv ≠ .answer r) → step s = .next t →
    t.busy = true ∧ t.port = s.port ∧ t.inflight = s.inflight ∧ t.phase = .tail

/-! The buffer. -/

/-- R33: the word at offset `a` is the little-endian sum of its four bytes, and the general form is the sum over `i` of
`BUF[a+i] * 256^i`. -/
def Obligations.WordReadIsLittleEndian : Prop :=
  ∀ (m : List Host.Cell) (a : Nat),
    (readWord m a).toNat =
      (readByte m a).toNat + 256 * (readByte m (a + 1)).toNat + 65536 * (readByte m (a + 2)).toNat +
        16777216 * (readByte m (a + 3)).toNat ∧
    (readWord m a).toNat = memRead m a 4 ∧
    (∀ n, n ≤ 7 → memRead m a n = ((List.range n).map fun i => (readByte m (a + i)).toNat * 256 ^ i).sum)

/-- R34: storing a word puts its four bytes at rising offsets, least significant first, changes no other byte, and reads
back as the word. -/
def Obligations.WordWriteIsLittleEndian : Prop :=
  ∀ (m : List Host.Cell) (a : Nat) (w : Word), Memory.wf m = true →
    readByte (writeWord m a w) a = w.extractLsb' 0 8 ∧ readByte (writeWord m a w) (a + 1) = w.extractLsb' 8 8 ∧
      readByte (writeWord m a w) (a + 2) = w.extractLsb' 16 8 ∧ readByte (writeWord m a w) (a + 3) = w.extractLsb' 24 8 ∧
      (∀ c, c < a ∨ a + 4 ≤ c → readByte (writeWord m a w) c = readByte m c) ∧ readWord (writeWord m a w) a = w

/-- Every instruction keeps the buffer in its canonical form and inside the 32-bit offset space, from every state (R30,
R36; the canonical form is the model's own, log entry 1). -/
def Obligations.ExecKeepsTheBufferCanonical : Prop :=
  ∀ (i : Instr) (s t : State), Memory.wf s.buf = true → Memory.inSpace s.buf = true → exec i s = .next t →
    Memory.wf t.buf = true ∧ Memory.inSpace t.buf = true

/-! The round function. -/

/-- R75: `MX` on unsigned numbers, with the wrap of each shift and addition written out (R133). -/
def Obligations.MxIsTheMixingFunction : Prop :=
  ∀ y z sum k : Word,
    (mx y z sum k).toNat =
      (((z.toNat / 32 ^^^ y.toNat * 4 % 2 ^ 32) + (y.toNat / 8 ^^^ z.toNat * 16 % 2 ^ 32)) % 2 ^ 32) ^^^
        (((sum.toNat ^^^ y.toNat) + (k.toNat ^^^ z.toNat)) % 2 ^ 32)

/-- R76: the key rotation multiplexer selects `KEY[(p & 3) ^ e]`, an index that is always in `0..3`, and `e` is
`(SUM >> 2) & 3`. -/
def Obligations.KeySelectionIsTheRotation : Prop :=
  ∀ (key : Key) (p : BitVec 4) (e : BitVec 2) (sum : Word),
    p.toNat % 4 ^^^ e.toNat < 4 ∧ key[p.toNat % 4 ^^^ e.toNat]? = some (keySel key p e) ∧
      (rotation sum).toNat = sum.toNat / 4 % 4

/-- R80, R93: after `r` rounds of encryption `SUM` is `r *32 DELTA`, `RND` is `r`, and `E` is that round's rotation. -/
def Obligations.EncryptionSumSchedule : Prop :=
  ∀ (key : Key) (m : MCount) (w : Work) (r : Nat), w.sum = 0 → w.rnd = 0 → r ≤ roundCount m →
    (encRounds key m w r).sum = BitVec.ofNat 32 r * Config.delta ∧ (encRounds key m w r).rnd.toNat = r ∧
      (1 ≤ r → (encRounds key m w r).e = rotation (BitVec.ofNat 32 r * Config.delta))

/-- R91: a multiple `k *32 DELTA` is 0 only when `k` is a multiple of 2^32; the decryption loop runs exactly `Rounds(m)`
times: after `j` rounds `SUM` is `(Rounds(m) - j) *32 DELTA`, which is 0 after round `Rounds(m)` and never before, so the
test `SUM = 0` and a count of rounds are the same thing, however long the loop may run. -/
def Obligations.DecryptionRunsExactlyItsRounds : Prop :=
  ∀ (key : Key) (m : MCount) (w : Work), w.sum = BitVec.ofNat 32 (roundCount m) * Config.delta → w.rnd = 0 →
    (∀ k : Nat, BitVec.ofNat 32 k * Config.delta = 0 ↔ 2 ^ 32 ∣ k) ∧
    (∀ j, j ≤ roundCount m →
      (decLoop key m j w).sum = BitVec.ofNat 32 (roundCount m - j) * Config.delta ∧
        (decLoop key m j w).rnd.toNat = j ∧ ((decLoop key m j w).sum = 0 ↔ j = roundCount m)) ∧
    (∀ fuel, roundCount m ≤ fuel → decLoop key m fuel w = decLoop key m (roundCount m) w)

/-- R84: for every key, every `m` in 2..16 and every vector, `RoundDec(m)` after `RoundEnc(m)` restores `V[0..m-1]`, and
`RoundEnc(m)` after `RoundDec(m)` does too. -/
def Obligations.RoundFunctionRoundTrip : Prop :=
  ∀ (key : Key) (m : MCount) (w : Work) (i : Nat), i < m.val →
    (roundDec key m (roundEnc key m w)).word (BitVec.ofNat 4 i) = w.word (BitVec.ofNat 4 i) ∧
      (roundEnc key m (roundDec key m w)).word (BitVec.ofNat 4 i) = w.word (BitVec.ofNat 4 i)

/-- R12, R78: `V[m..15]` are not written by a call of the round function with operand count `m`, nor by its load. -/
def Obligations.RoundFunctionKeepsTheOtherWords : Prop :=
  ∀ (d : Dir) (key : Key) (m : MCount) (w : Work) (buf : List Host.Cell) (off i : Nat), m.val ≤ i → i < 16 →
    (roundFn d key m w).word (BitVec.ofNat 4 i) = w.word (BitVec.ofNat 4 i) ∧
      (loadV buf off w m.val).word (BitVec.ofNat 4 i) = w.word (BitVec.ofNat 4 i)

/-- R12, R17: what a call of the round function leaves in `V[0..m-1]` depends on `V[0..m-1]` and the key alone, on no other
working register. -/
def Obligations.RoundFunctionReadsOnlyItsWords : Prop :=
  ∀ (d : Dir) (key : Key) (m : MCount) (w w' : Work),
    (∀ i, i < m.val → w.word (BitVec.ofNat 4 i) = w'.word (BitVec.ofNat 4 i)) →
    ∀ i, i < m.val →
      (roundFn d key m w).word (BitVec.ofNat 4 i) = (roundFn d key m w').word (BitVec.ofNat 4 i)

/-- R80, R81: `RoundEnc(m)` is `6 + (52 div m)` rounds, each as R80 tells it (`EncRoundStep`), begun with `SUM = 0` and `Z`
the input `V[m-1]`; `RoundDec(m)` is as many rounds, each as R81 tells it (`DecRoundStep`), begun with `SUM` the round count
times `DELTA` and `Y` the input `V[0]`; what the last round leaves in `V[0..m-1]` is the result. -/
def Obligations.RoundsUpdateTheWords : Prop :=
  ∀ (key : Key) (m : MCount) (w : Work),
    (∃ f : Nat → Work, (∀ j, j < m.val → (f 0).word (BitVec.ofNat 4 j) = w.word (BitVec.ofNat 4 j)) ∧ (f 0).sum = 0 ∧
      (f 0).z = w.word (BitVec.ofNat 4 (m.val - 1)) ∧
      (∀ r, r < 6 + 52 / m.val → EncRoundStep key m (f r) (f (r + 1))) ∧
      ∀ j, j < m.val →
        (roundFn .enc key m w).word (BitVec.ofNat 4 j) = (f (6 + 52 / m.val)).word (BitVec.ofNat 4 j)) ∧
    ∃ f : Nat → Work, (∀ j, j < m.val → (f 0).word (BitVec.ofNat 4 j) = w.word (BitVec.ofNat 4 j)) ∧
      (f 0).sum = BitVec.ofNat 32 (6 + 52 / m.val) * 0x9E3779B9 ∧ (f 0).y = w.word 0 ∧
      (∀ r, r < 6 + 52 / m.val → DecRoundStep key m (f r) (f (r + 1))) ∧
      ∀ j, j < m.val →
        (roundFn .dec key m w).word (BitVec.ofNat 4 j) = (f (6 + 52 / m.val)).word (BitVec.ofNat 4 j)

/-- R78, R79: `LoadV(off, m)` puts the word at `off + 4*j` in `V[j]` and leaves `V[m..15]` alone; `StoreV(off, m)` puts `V[j]`
there and writes no other byte. -/
def Obligations.LoadAndStoreMoveTheWords : Prop :=
  ∀ (buf : List Host.Cell) (off : Nat) (w : Work) (m : MCount), Memory.wf buf = true →
    (∀ j, j < 16 → (loadV buf off w m.val).word (BitVec.ofNat 4 j) =
      if j < m.val then readWord buf (off + 4 * j) else w.word (BitVec.ofNat 4 j)) ∧
    (∀ j, j < m.val → readWord (storeV buf off w m.val) (off + 4 * j) = w.word (BitVec.ofNat 4 j)) ∧
    ∀ c, c < off ∨ off + 4 * m.val ≤ c → readByte (storeV buf off w m.val) c = readByte buf c

/-! The control commands. -/

/-- R61: `NOP` writes no state, from every state; launched on an engine at rest it leaves the state as it was. -/
def Obligations.NopChangesNothing : Prop :=
  (∀ s : State, ∃ t, exec .nop s = .next t ∧ Ended s t) ∧
    (∀ s : State, AtRest s → exec .nop { s with busy := true, inflight := some .nop } = .next s)

/-- R62: `LOADKEY` completes in every state: `KEY[i] <- KEYINi`, `KEYV <- 1`, `KEYIN0..3` kept, and nothing else written. -/
def Obligations.LoadkeyCopiesTheKey : Prop :=
  ∀ s : State, ∃ t, exec .loadkey s = .next t ∧ Ended { s with key := s.keyin, keyv := true } t

/-- R63, R107: `CLRF` completes in every state: `FAULT <- 0`, `FCODE <- 0`, and nothing else written. -/
def Obligations.ClrfClearsTheFault : Prop :=
  ∀ s : State, ∃ t, exec .clrf s = .next t ∧ Ended { s with fault := false, fcode := 0 } t

/-! Faults of the cipher commands. -/

/-- R64, R65, R85, R87, R103, R104, R105: when each cipher command faults, with which code, the first cause in the order
`F_NOKEY`, `F_OPERAND`, `F_RANGE`; a fault changes nothing but the fault record. -/
def Obligations.CipherFaultsInOrder : Prop :=
  ∀ s : State,
    (s.keyv = false → ∀ i ∈ [Instr.encrypt, .decrypt, .encFixed, .decFixed, .encWords, .decWords],
      ∃ t, exec i s = .next t ∧ FaultRecorded 1 s t) ∧
    (s.keyv = true → ¬ InRange s s.count.toNat → ∀ i ∈ [Instr.encrypt, .decrypt],
      ∃ t, exec i s = .next t ∧ FaultRecorded 2 s t) ∧
    (s.keyv = true → ¬ (2 ≤ s.count.toNat ∧ s.count.toNat ≤ 16) → ∀ i ∈ [Instr.encWords, .decWords],
      ∃ t, exec i s = .next t ∧ FaultRecorded 3 s t) ∧
    (s.keyv = true → 2 ≤ s.count.toNat → s.count.toNat ≤ 16 → ¬ InRange s (4 * s.count.toNat) →
      ∀ i ∈ [Instr.encWords, .decWords], ∃ t, exec i s = .next t ∧ FaultRecorded 2 s t)

/-- R102, R132: with the key loaded, a legal `N` and a region in range no cipher command faults; the fixed commands never
fault once the key is loaded. -/
def Obligations.WellFormedCommandsDoNotFault : Prop :=
  ∀ s : State, s.keyv = true →
    (InRange s s.count.toNat → ∀ i ∈ [Instr.encrypt, .decrypt],
      ∃ t, exec i s = .next t ∧ t.fault = s.fault ∧ t.fcode = s.fcode ∧ t.faulted = s.faulted ∧ AtRest t) ∧
    (2 ≤ s.count.toNat → s.count.toNat ≤ 16 → InRange s (4 * s.count.toNat) → ∀ i ∈ [Instr.encWords, .decWords],
      ∃ t, exec i s = .next t ∧ t.fault = s.fault ∧ t.fcode = s.fcode ∧ t.faulted = s.faulted ∧ AtRest t) ∧
    (∀ i ∈ [Instr.encFixed, .decFixed],
      ∃ t, exec i s = .next t ∧ t.fault = s.fault ∧ t.fcode = s.fcode ∧ t.faulted = s.faulted ∧ AtRest t)

/-! The direct commands. -/

/-- R85, R86, R26, R38: with the key loaded, a legal `N` and its `4*N` bytes in range, `ENC_WORDS` and `DEC_WORDS` complete:
the `N` words at `START` are mixed, every other byte and every register is as before. -/
def Obligations.WordsCommandsMixTheirWords : Prop :=
  ∀ (s : State) (m : MCount), s.keyv = true → m.val = s.count.toNat → InRange s (4 * m.val) →
    Owned .encWords s → Owned .decWords s → Memory.wf s.buf = true →
    (∃ t, exec .encWords s = .next t ∧ Mixed .enc m s.start.toNat s t ∧ KeepsOutside s t (4 * m.val) ∧
      KeepsRegisters s t ∧ t.port = { s.port with status := .quiet }) ∧
    (∃ t, exec .decWords s = .next t ∧ Mixed .dec m s.start.toNat s t ∧ KeepsOutside s t (4 * m.val) ∧
      KeepsRegisters s t ∧ t.port = { s.port with status := .quiet })

/-- R87, R88, R26, R38: with the key loaded and 64 bytes left at `START`, `ENC_FIXED` and `DEC_FIXED` complete: the 16 words
at `START` are mixed, whatever `COUNT` holds; every other byte and every register is as before. -/
def Obligations.FixedCommandsMixTheSuperBlock : Prop :=
  ∀ s : State, s.keyv = true → s.start.toNat + 64 ≤ s.buflen.toNat → Owned .encFixed s → Owned .decFixed s →
    Memory.wf s.buf = true →
    (∃ t, exec .encFixed s = .next t ∧ Mixed .enc .sixteen s.start.toNat s t ∧ KeepsOutside s t 64 ∧
      KeepsRegisters s t ∧ t.port = { s.port with status := .quiet }) ∧
    (∃ t, exec .decFixed s = .next t ∧ Mixed .dec .sixteen s.start.toNat s t ∧ KeepsOutside s t 64 ∧
      KeepsRegisters s t ∧ t.port = { s.port with status := .quiet })

/-- R89: when fewer than 64 bytes remain between `START` and the buffer's end, also when `START > BUFLEN`, the fixed path
reads no byte, writes no byte, raises no fault and sets no flag; the command completes normally. -/
def Obligations.GuardDoesNothing : Prop :=
  ∀ s : State, s.keyv = true → s.start.toNat + 64 > s.buflen.toNat →
    (∃ t, exec .encFixed s = .next t ∧ Ended s t) ∧ (∃ t, exec .decFixed s = .next t ∧ Ended s t)

/-- R90: `ENC_FIXED start` and `ENC_WORDS start, 16` give the same buffer contents whenever `start + 64 <= BUFLEN`, and so do
the decrypting two, with 9 rounds; they differ only when `start + 64 > BUFLEN`: the fixed command does nothing, the words
command faults with `F_RANGE`. -/
def Obligations.FixedPathIsTheWordsPathAtSixteen : Prop :=
  roundCount .sixteen = 9 ∧
  ∀ s : State, s.keyv = true → s.count = 16 →
    ∀ p ∈ [(Instr.encFixed, Instr.encWords), (.decFixed, .decWords)],
      ∃ t u, exec p.1 s = .next t ∧ exec p.2 s = .next u ∧
        (s.start.toNat + 64 ≤ s.buflen.toNat → t = u) ∧
        (s.start.toNat + 64 > s.buflen.toNat → Ended s t ∧ FaultRecorded 2 s u)

/-- R84, R86, R88: a direct decryption after the direct encryption with the same operands and key restores every byte. -/
def Obligations.DirectCommandsRoundTrip : Prop :=
  ∀ s : State, s.keyv = true → Owned .encWords s → Owned .encFixed s → Memory.wf s.buf = true →
    (2 ≤ s.count.toNat → s.count.toNat ≤ 16 → InRange s (4 * s.count.toNat) →
      ∃ t u, exec .encWords s = .next t ∧ exec .decWords t = .next u ∧ ∀ a, readByte u.buf a = readByte s.buf a) ∧
    (∃ t u, exec .encFixed s = .next t ∧ exec .decFixed t = .next u ∧ ∀ a, readByte u.buf a = readByte s.buf a)

/-! The dispatch commands. -/

/-- R66: the partition of a region: the parts cover it, there is a tail of 0 to 7 bytes, and the three cases of its length;
a single whole word is not mixed but goes to the tail. -/
def Obligations.PartitionCoversTheRegion : Prop :=
  ∀ count : Nat, ∃ q, q = partition count ∧
    q.full = count / 64 ∧ q.left = count % 64 ∧ q.n = q.left / 4 ∧ (q.nw = 0 ∧ q.n ≤ 1 ∨ q.nw = q.n ∧ 2 ≤ q.n) ∧
      64 * q.full + 4 * q.nw + q.tail = count ∧ q.tail ≤ 7 ∧ q.nw ≤ 15 ∧
      (q.n = 0 → q.tail = q.left ∧ q.tail ≤ 3) ∧ (q.n = 1 → q.tail = q.left ∧ 4 ≤ q.tail) ∧
      (2 ≤ q.n → q.tail = q.left % 4)

/-- R67, R68, R70 to R73, R26: with the key loaded and the region in range, `ENCRYPT` and `DECRYPT` complete: each
super-block is mixed on its own at `m = 16`, then the words run at `m = NW`, then the tail goes through the delegate's
function, each part from its own old bytes; every other byte and every register is as before. Nothing is asked of the
delegate but that it is a function (R101). -/
def Obligations.DispatchTransformsEveryPart : Prop :=
  ∀ s : State, s.keyv = true → InRange s s.count.toNat → Owned .encrypt s → Owned .decrypt s → Memory.wf s.buf = true →
    (∃ t, exec .encrypt s = .next t ∧ Dispatched .enc s t ∧ KeepsRegisters s t) ∧
    (∃ t, exec .decrypt s = .next t ∧ Dispatched .dec s t ∧ KeepsRegisters s t)

/-- R9, R101, R124, R132: `exec` of the dispatch commands is the dispatch with the connected delegate; with every delegate
that keeps its contract, a named premise, `DECRYPT` after `ENCRYPT` restores every byte of the buffer, for every key, every
buffer and every operand in range: at once, and from every later state that has the same call and the buffer `ENCRYPT`
left. A region with no tail asks nothing of the delegate. -/
def Obligations.DecryptUndoesEncrypt : Prop :=
  (∀ s : State, exec .encrypt s = .next (dispatchCommand Config.delegate .encrypt .enc s) ∧
    exec .decrypt s = .next (dispatchCommand Config.delegate .decrypt .dec s)) ∧
  (∀ (D : Config.Delegate) (s : State), TailContract D → KeyLoaded s → InRange s s.count.toNat → Owned .encrypt s →
    Memory.wf s.buf = true →
    (∀ a, readByte (dispatchCommand D .decrypt .dec (dispatchCommand D .encrypt .enc s)).buf a = readByte s.buf a) ∧
    ∀ v : State, SameCall s v → KeyLoaded v → InRange v v.count.toNat → Owned .decrypt v →
      v.buf = (dispatchCommand D .encrypt .enc s).buf →
      ∀ a, readByte (dispatchCommand D .decrypt .dec v).buf a = readByte s.buf a) ∧
  ∀ s : State, KeyLoaded s → InRange s s.count.toNat → Owned .encrypt s → Memory.wf s.buf = true →
    (partition s.count.toNat).tail = 0 →
    ∃ t u, exec .encrypt s = .next t ∧ exec .decrypt t = .next u ∧ ∀ a, readByte u.buf a = readByte s.buf a

/-- R74: under `ENCRYPT` and `DECRYPT` the guard never holds: at the `i`-th super-block `OFF = START + 64*i`, and
`OFF + 64 <= BUFLEN`. -/
def Obligations.GuardNeverHoldsUnderDispatch : Prop :=
  ∀ (s : State) (d : Dir) (i : Nat), InRange s s.count.toNat → i < s.count.toNat / 64 →
    (superPhase i (dispatchBegin d s)).work.off.toNat = s.start.toNat + 64 * i ∧
      s.start.toNat + 64 * i + 64 ≤ s.buflen.toNat

/-- R95, R99, R72: `ENCRYPT` and `DECRYPT` send at most one request, exactly when the region has a tail, with the key, the
length 1 to 7 of the tail and its bytes; the direct and the control commands send none. -/
def Obligations.TailPortUse : Prop :=
  (∀ s : State, s.keyv = true → InRange s s.count.toNat →
    ∀ p ∈ [(Instr.encrypt, Dir.enc), (.decrypt, .dec)], ∃ t, exec p.1 s = .next t ∧
      ((partition s.count.toNat).tail = 0 → t.port = { s.port with status := .quiet }) ∧
      ((partition s.count.toNat).tail ≠ 0 →
        t.port.sent = s.port.sent + 1 ∧ t.port.tkey = s.key ∧
          t.port.thdr = tailHeader p.2 (BitVec.ofNat 3 (partition s.count.toNat).tail) ∧
          ∀ k : Fin 7, t.port.tdata[k] =
            if k.val < (partition s.count.toNat).tail then
              readByte s.buf (s.start.toNat + (s.count.toNat - (partition s.count.toNat).tail) + k.val)
            else 0)) ∧
  (∀ (s t : State), ∀ i ∈ [Instr.nop, .loadkey, .clrf, .encFixed, .decFixed, .encWords, .decWords],
    exec i s = .next t → t.port.sent = s.port.sent)

/-- R8, R24: what a cipher command leaves in its region, and whether and how it faults, depends on the key, the operands,
the buffer length and the bytes of the region, and on nothing else. -/
def Obligations.ResultDependsOnKeyOperandsAndRegion : Prop :=
  ∀ (s s' : State), ∀ i ∈ [Instr.encrypt, .decrypt, .encFixed, .decFixed, .encWords, .decWords],
    SameCall s s' → s'.buflen = s.buflen → s'.keyv = s.keyv → Owned i s → Owned i s' → Memory.wf s.buf = true →
    Memory.wf s'.buf = true → s'.fault = s.fault → s'.fcode = s.fcode →
    (∀ a, s.start.toNat ≤ a → a < s.start.toNat + footprint i s → readByte s'.buf a = readByte s.buf a) →
    ∃ t t', exec i s = .next t ∧ exec i s' = .next t' ∧ t'.fault = t.fault ∧ t'.fcode = t.fcode ∧
      ∀ a, s.start.toNat ≤ a → a < s.start.toNat + footprint i s → readByte t'.buf a = readByte t.buf a

/-- R124, R70: a region may be split at multiples of 64 bytes from `START`: the first `64*k` bytes and then the rest give
the same buffer contents as the whole region at once. -/
def Obligations.RegionsSplitAtSuperBlocks : Prop :=
  ∀ (s : State) (k : Nat), s.keyv = true → InRange s s.count.toNat → Memory.wf s.buf = true →
    64 * k ≤ s.count.toNat →
    ∀ i ∈ [Instr.encrypt, .decrypt], Owned i s →
      ∃ t t1 t2, exec i s = .next t ∧ exec i { s with count := BitVec.ofNat 32 (64 * k) } = .next t1 ∧
        exec i { t1 with start := s.start + BitVec.ofNat 32 (64 * k), count := s.count - BitVec.ofNat 32 (64 * k) } =
          .next t2 ∧
        ∀ a, readByte t2.buf a = readByte t.buf a

/-! The frame, and the busy window. -/

/-- R26, R38, R18, R10: the frame of the six cipher commands, from every state: no key, operand register or host-side field
changes; every byte outside the region as before; and either no fault is recorded, or one is and the whole buffer, the
working registers and the request on the port are as before. -/
def Obligations.CipherCommandsFrame : Prop :=
  ∀ (s t : State), ∀ i ∈ [Instr.encrypt, .decrypt, .encFixed, .decFixed, .encWords, .decWords], exec i s = .next t →
    t.key = s.key ∧ t.keyv = s.keyv ∧ t.keyin = s.keyin ∧ t.start = s.start ∧ t.count = s.count ∧
      t.buflen = s.buflen ∧ t.todo = s.todo ∧ t.hostWord = s.hostWord ∧ t.hostByte = s.hostByte ∧ AtRest t ∧
      KeepsOutside s t (footprint i s) ∧
      (t.fault = s.fault ∧ t.fcode = s.fcode ∧ t.faulted = s.faulted ∨ ∃ c, FaultRecorded c s t)

/-- R96, R97, R53, R54: the delegate's operations complete in every state, for every `TLEN`: the answer's bytes are the
delegate's function of the request's key and span; nothing but the answer changes (the bytes of `RDATA` beyond the span
are free, log entry 9). -/
def Obligations.TailOperationsAnswer : Prop :=
  ∀ (s : State) (len : BitVec 3),
    (∃ t, exec (.tailEnc len) s = .next t ∧
      (∀ k, (h : k < len.toNat) → t.port.rdata[k]? = some (Config.tailEnc s.port.tkey _ (s.port.span len))[k]) ∧
      t.port.status = .answered ∧
      t = { s with port := { s.port with status := .answered, rdata := t.port.rdata }, draws := t.draws }) ∧
    (∃ t, exec (.tailDec len) s = .next t ∧
      (∀ k, (h : k < len.toNat) → t.port.rdata[k]? = some (Config.tailDec s.port.tkey _ (s.port.span len))[k]) ∧
      t.port.status = .answered ∧
      t = { s with port := { s.port with status := .answered, rdata := t.port.rdata }, draws := t.draws })

/-- R97: `exec` of the tail operations is the answer of the connected delegate; and for every delegate that keeps the
contract, a named premise (R101), `TAIL_DEC` is the exact inverse of `TAIL_ENC` under the same key, and `TAIL_ENC` of
`TAIL_DEC`: the answer to a request, sent back as a request of the other direction, gives the span again. -/
def Obligations.TailDecUndoesTailEnc : Prop :=
  (∀ (s : State) (len : BitVec 3), exec (.tailEnc len) s = .next (respond Config.delegate .enc len s) ∧
    exec (.tailDec len) s = .next (respond Config.delegate .dec len s)) ∧
  ∀ (D : Config.Delegate) (s : State) (len : BitVec 3), TailContract D → len ≠ 0 →
    ∀ p ∈ [(Dir.enc, Dir.dec), (.dec, .enc)], ∀ t, t = respond D p.1 len s →
      ∀ k, k < len.toNat →
        (respond D p.2 len { t with port := { t.port with tdata := t.port.rdata } }).port.rdata[k]? = s.port.tdata[k]?

/-- R54, R98, R127: whatever bytes the delegate answers, they stand on the port as it gave them; and the engine's move on
an answered request writes `RDATAi` for `i < TLEN` at `OFF + i` as they stand, ignores the rest, writes no other byte, and
ends the command with every register as it was. (How the command is cut into moves is the model's choice, log entry
24.) -/
def Obligations.AnswersAreTakenAsTheyStand : Prop :=
  (∀ (s : State) (r : Vector Byte 7) (rest : List Move), s.todo = .answer r :: rest → s.port.status = .requested →
    step s = .next { s with todo := rest, port := { s.port with status := .answered, rdata := r } }) ∧
  ∀ (s : State) (i : Instr) (rest : List Move), EngineInv s → s.inflight = some i → s.port.status = .answered →
    s.todo = .engine :: rest → Owned i s →
    s.work.left.toNat = (tlenField s.port.thdr).toNat ∧
    ∃ t, step s = .next t ∧
      (∀ k, k < (tlenField s.port.thdr).toNat → some (readByte t.buf (s.work.off.toNat + k)) = s.port.rdata[k]?) ∧
      (∀ c, c < s.work.off.toNat ∨ s.work.off.toNat + (tlenField s.port.thdr).toNat ≤ c →
        readByte t.buf c = readByte s.buf c) ∧
      KeepsRegisters { s with todo := rest } t

/-- R41, R39, R51 (f), R60: a command left in flight on an engine at rest, nothing else scheduled, comes by the engine's and
the delegate's own moves to the very state the atomic command gives, free values included (that they go on by themselves,
in parts, drawing the same free values, is the model's choice, log entries 6, 24 and 21). -/
def Obligations.CommandInFlightReachesTheAtomicResult : Prop :=
  ∀ (s : State) (i : Instr), AtRest s → s.todo = [] → i.isCommand = true →
    ∃ k t, exec i { s with busy := true, inflight := some i } = .next t ∧
      Host.Core.run Sys2Proof.core k { s with busy := true, inflight := some i } = .next t

/-- R120, in the form the model keeps it (log entry 12): `exec` of a cipher command in a state with noted offsets of other
agents' writes gives every byte that lies in no part that holds a noted offset the value that `exec` gives it from the
same state, the same buffer, with nothing noted. -/
def Obligations.OnlyDisturbedPartsAreLost : Prop :=
  ∀ (s t u : State) (c : Nat), ∀ i ∈ [Instr.encrypt, .decrypt, .encFixed, .decFixed, .encWords, .decWords],
    ClearOf i s s.touched c → exec i s = .next t → exec i { s with touched := [] } = .next u →
    readByte t.buf c = readByte u.buf c

/-- R120, for a command in flight, wherever it stands: another agent writes a byte, and from there on the run goes on as
the run without the write does. After every number of steps both are next states, both busy or both not, and every byte
but the written one that lies in no part of the region holding a written offset is the same in both. (That the engine and
the delegate go on by themselves, in parts, and that the offset is noted, is the model's choice, log entries 6, 24, 12.) -/
def Obligations.RunsKeepTheUndisturbedParts : Prop :=
  ∀ (s : State) (i : Instr) (a : Word) (b : Byte) (k : Nat), EngineInv s → s.todo = [] → s.inflight = some i →
    step { s with todo := [.poke a b] } = .next (poke a b s) ∧
    ∃ t u, Host.Core.run Sys2Proof.core k s = .next t ∧ Host.Core.run Sys2Proof.core k (poke a b s) = .next u ∧
      u.busy = t.busy ∧
      ∀ c, c ≠ a.toNat → ClearOf i s (a.toNat :: s.touched) c → readByte u.buf c = readByte t.buf c
end

