-- ==== Sys2Proof/Laws/Memory.lean ====
section
/-! SUPPORT. The laws of the buffer operations: reading after writing, and the canonical form, for bytes, runs of bytes,
words and stored vectors (20_memory.md R33, R34). -/

namespace Sys2Proof.Laws

open Sys2Proof.Machine

theorem wfFrom_mono {lo hi : Nat} {m : List Host.Cell} (hle : lo ≤ hi) (h : wfFrom hi m = true) :
    wfFrom lo m = true := by
  cases m with
  | nil => rfl
  | cons c rest =>
    obtain ⟨a, v⟩ := c
    simp only [wfFrom, Bool.and_eq_true, decide_eq_true_eq] at h ⊢
    exact ⟨⟨by omega, h.1.2⟩, h.2⟩

theorem readByte_below {lo a : Nat} {m : List Host.Cell} (h : wfFrom lo m = true) (hlt : a < lo) :
    readByte m a = 0 := by
  induction m generalizing lo with
  | nil => rfl
  | cons c rest ih =>
    obtain ⟨b, v⟩ := c
    simp only [wfFrom, Bool.and_eq_true, decide_eq_true_eq] at h
    have hne : b ≠ a := by omega
    simp only [readByte, if_neg hne]
    exact ih h.2 (by omega)

theorem readByte_writeByte_ne (m : List Host.Cell) (a c : Nat) (v : Byte) (h : c ≠ a) :
    readByte (writeByte m a v) c = readByte m c := by
  induction m with
  | nil => simp only [writeByte]; split <;> simp [readByte, h.symm]
  | cons d rest ih =>
    obtain ⟨b, w⟩ := d
    simp only [writeByte]
    split
    · split <;> simp [readByte, h.symm]
    · split
      · next hab => subst hab; split <;> simp [readByte, h.symm]
      · simp only [readByte, ih]

theorem readByte_writeByte_self {lo : Nat} {m : List Host.Cell} (h : wfFrom lo m = true) (a : Nat) (v : Byte) :
    readByte (writeByte m a v) a = v := by
  induction m generalizing lo with
  | nil => simp only [writeByte]; split <;> simp [readByte, *]
  | cons d rest ih =>
    obtain ⟨b, w⟩ := d
    simp only [wfFrom, Bool.and_eq_true, decide_eq_true_eq] at h
    simp only [writeByte]
    split
    · next hab =>
      split
      · next hv =>
        have hne : b ≠ a := by omega
        simp only [readByte, if_neg hne, hv]
        exact readByte_below h.2 (by omega)
      · simp [readByte]
    · split
      · next hab =>
        subst hab
        split
        · next hv => rw [hv]; exact readByte_below h.2 (by omega)
        · simp [readByte]
      · next hab =>
        have hne : ¬ b = a := fun e => hab e.symm
        simp only [readByte, if_neg hne]
        exact ih h.2

theorem wfFrom_writeByte {lo : Nat} {m : List Host.Cell} (h : wfFrom lo m = true) {a : Nat} (ha : lo ≤ a)
    (v : Byte) : wfFrom lo (writeByte m a v) = true := by
  induction m generalizing lo with
  | nil => simp only [writeByte]; split <;> simp_all [wfFrom]
  | cons d rest ih =>
    obtain ⟨b, w⟩ := d
    have h0 := h
    simp only [wfFrom, Bool.and_eq_true, decide_eq_true_eq] at h
    simp only [writeByte]
    split
    · next hab =>
      split
      · exact h0
      · next hv =>
        simp only [wfFrom, Bool.and_eq_true, decide_eq_true_eq, bne_iff_ne]
        exact ⟨⟨ha, hv⟩, ⟨by omega, by simpa using h.1.2⟩, h.2⟩
    · split
      · next hab =>
        subst hab
        split
        · exact wfFrom_mono (by omega) h.2
        · next hv =>
          simp only [wfFrom, Bool.and_eq_true, decide_eq_true_eq, bne_iff_ne]
          exact ⟨⟨ha, hv⟩, h.2⟩
      · next hab hne =>
        simp only [wfFrom, Bool.and_eq_true, decide_eq_true_eq]
        exact ⟨h.1, ih h.2 (by omega)⟩

/-- Reading after writing one byte (R34: "It changes no other byte"). -/
theorem readByte_writeByte {m : List Host.Cell} (h : Memory.wf m = true) (a c : Nat) (v : Byte) :
    readByte (writeByte m a v) c = if c = a then v else readByte m c := by
  split
  · next e => subst e; exact readByte_writeByte_self h c v
  · next e => exact readByte_writeByte_ne m a c v e

theorem wf_writeByte {m : List Host.Cell} (h : Memory.wf m = true) (a : Nat) (v : Byte) :
    Memory.wf (writeByte m a v) = true := wfFrom_writeByte h (Nat.zero_le a) v

theorem mem_writeByte {m : List Host.Cell} {a : Nat} {v : Byte} {c : Host.Cell} (h : c ∈ writeByte m a v) :
    c ∈ m ∨ c = (a, v) := by
  induction m with
  | nil => simp only [writeByte] at h; split at h <;> simp_all
  | cons d rest ih =>
    obtain ⟨b, w⟩ := d
    simp only [writeByte] at h
    split at h
    · split at h
      · exact .inl h
      · rcases List.mem_cons.1 h with h | h
        · exact .inr h
        · exact .inl h
    · split at h
      · split at h
        · exact .inl (List.mem_cons_of_mem _ h)
        · rcases List.mem_cons.1 h with h | h
          · exact .inr h
          · exact .inl (List.mem_cons_of_mem _ h)
      · rcases List.mem_cons.1 h with h | h
        · exact .inl (h ▸ List.mem_cons_self)
        · rcases ih h with h | h
          · exact .inl (List.mem_cons_of_mem _ h)
          · exact .inr h

theorem inSpace_writeByte {m : List Host.Cell} (h : Memory.inSpace m = true) {a : Nat} (ha : a < 2 ^ 32) (v : Byte) :
    Memory.inSpace (writeByte m a v) = true := by
  simp only [Memory.inSpace, List.all_eq_true, decide_eq_true_eq] at h ⊢
  intro c hc
  rcases mem_writeByte hc with hc | hc
  · exact h c hc
  · subst hc; exact ha

/-! Runs of bytes. -/

theorem wf_writeBytes {m : List Host.Cell} (h : Memory.wf m = true) (a : Nat) (f : Nat → Byte) (n : Nat) :
    Memory.wf (writeBytes m a f n) = true := by
  induction n with
  | zero => exact h
  | succ n ih => exact wf_writeByte ih _ _

theorem inSpace_writeBytes {m : List Host.Cell} (h : Memory.inSpace m = true) (a : Nat) (f : Nat → Byte) {n : Nat}
    (ha : a + n ≤ 2 ^ 32) : Memory.inSpace (writeBytes m a f n) = true := by
  induction n with
  | zero => exact h
  | succ n ih => exact inSpace_writeByte (ih (by omega)) (by omega) _

/-- Bytes outside the run are as before, in every buffer. -/
theorem readByte_writeBytes_outside (m : List Host.Cell) (a : Nat) (f : Nat → Byte) (n c : Nat)
    (h : c < a ∨ a + n ≤ c) : readByte (writeBytes m a f n) c = readByte m c := by
  induction n with
  | zero => rfl
  | succ n ih =>
    rw [writeBytes, readByte_writeByte_ne _ _ _ _ (by omega)]
    exact ih (by omega)

theorem readByte_writeBytes {m : List Host.Cell} (h : Memory.wf m = true) (a : Nat) (f : Nat → Byte) (n i : Nat)
    (hi : i < n) : readByte (writeBytes m a f n) (a + i) = f i := by
  induction n with
  | zero => omega
  | succ n ih =>
    rw [writeBytes, readByte_writeByte (wf_writeBytes h a f n)]
    by_cases e : i = n
    · subst e; simp
    · rw [if_neg (by omega)]; exact ih (by omega)

/-! Words. -/

theorem wf_writeWord {m : List Host.Cell} (h : Memory.wf m = true) (a : Nat) (w : Word) :
    Memory.wf (writeWord m a w) = true :=
  wf_writeByte (wf_writeByte (wf_writeByte (wf_writeByte h _ _) _ _) _ _) _ _

theorem inSpace_writeWord {m : List Host.Cell} (h : Memory.inSpace m = true) {a : Nat} (ha : a + 4 ≤ 2 ^ 32)
    (w : Word) : Memory.inSpace (writeWord m a w) = true :=
  inSpace_writeByte (inSpace_writeByte (inSpace_writeByte (inSpace_writeByte h (by omega) _) (by omega) _)
    (by omega) _) (by omega) _

theorem readByte_writeWord_outside (m : List Host.Cell) (a c : Nat) (w : Word) (h : c < a ∨ a + 4 ≤ c) :
    readByte (writeWord m a w) c = readByte m c := by
  simp only [writeWord]
  rw [readByte_writeByte_ne _ _ _ _ (by omega), readByte_writeByte_ne _ _ _ _ (by omega),
    readByte_writeByte_ne _ _ _ _ (by omega), readByte_writeByte_ne _ _ _ _ (by omega)]

/-- Byte `i` of a word. -/
def wordByte (w : Word) (i : Nat) : Byte := w.extractLsb' (8 * i) 8

theorem readByte_writeWord {m : List Host.Cell} (h : Memory.wf m = true) (a i : Nat) (w : Word) (hi : i < 4) :
    readByte (writeWord m a w) (a + i) = wordByte w i := by
  have h1 := wf_writeByte h a (w.extractLsb' 0 8)
  have h2 := wf_writeByte h1 (a + 1) (w.extractLsb' 8 8)
  have h3 := wf_writeByte h2 (a + 2) (w.extractLsb' 16 8)
  simp only [writeWord]
  rw [readByte_writeByte h3, readByte_writeByte h2, readByte_writeByte h1, readByte_writeByte h]
  match i, hi with
  | 0, _ => simp [wordByte]
  | 1, _ => simp [wordByte]
  | 2, _ => simp [wordByte]
  | 3, _ => simp [wordByte]

theorem readWord_congr {m m' : List Host.Cell} {a a' : Nat} (h : ∀ i, i < 4 → readByte m (a + i) = readByte m' (a' + i)) :
    readWord m a = readWord m' a' := by
  have h0 := h 0 (by omega)
  simp only [Nat.add_zero] at h0
  simp only [readWord, h0, h 1 (by omega), h 2 (by omega), h 3 (by omega)]

theorem append_wordBytes (w : Word) : wordByte w 3 ++ (wordByte w 2 ++ (wordByte w 1 ++ wordByte w 0)) = w := by
  apply BitVec.eq_of_getLsbD_eq
  intro i hi
  simp only [wordByte, BitVec.getLsbD_append, BitVec.getLsbD_extractLsb']
  by_cases h8 : i < 8
  · have : i < 16 ∧ i < 24 := by omega
    simp [h8, this]
  by_cases h16 : i < 16
  · have : i < 24 ∧ i - 8 < 8 ∧ 8 + (i - 8) = i := by omega
    simp [h8, h16, this]
  by_cases h24 : i < 24
  · have : i - 16 < 8 ∧ 16 + (i - 16) = i := by omega
    simp [h16, h24, this]
  · have : i - 24 < 8 ∧ 24 + (i - 24) = i := by omega
    simp [h24, this]

/-- A word read back after it was written. -/
theorem readWord_of_bytes {m : List Host.Cell} {a : Nat} {w : Word}
    (h : ∀ i, i < 4 → readByte m (a + i) = wordByte w i) : readWord m a = w := by
  have h0 := h 0 (by omega)
  simp only [Nat.add_zero] at h0
  simp only [readWord, h0, h 1 (by omega), h 2 (by omega), h 3 (by omega)]
  exact append_wordBytes w

theorem wordByte_readWord (m : List Host.Cell) (a i : Nat) (hi : i < 4) :
    wordByte (readWord m a) i = readByte m (a + i) := by
  apply BitVec.eq_of_getLsbD_eq
  intro j hj
  simp only [wordByte, readWord, BitVec.getLsbD_append, BitVec.getLsbD_extractLsb', hj, decide_true, Bool.true_and]
  match i, hi with
  | 0, _ =>
    have : j < 16 ∧ j < 24 := by omega
    simp [hj, this]
  | 1, _ =>
    have : 8 + j < 16 ∧ 8 + j < 24 := by omega
    simp [hj, this]
  | 2, _ =>
    have : ¬ 16 + j < 16 ∧ 16 + j < 24 := by omega
    simp [hj, this]
  | 3, _ =>
    have : ¬ 24 + j < 24 := by omega
    simp [hj, this]

/-! Stored vectors (R79). -/

theorem wf_storeV {m : List Host.Cell} (h : Memory.wf m = true) (off : Nat) (w : Work) (n : Nat) :
    Memory.wf (storeV m off w n) = true := by
  induction n with
  | zero => exact h
  | succ n ih => exact wf_writeWord ih _ _

theorem inSpace_storeV {m : List Host.Cell} (h : Memory.inSpace m = true) (off : Nat) (w : Work) {n : Nat}
    (ha : off + 4 * n ≤ 2 ^ 32) : Memory.inSpace (storeV m off w n) = true := by
  induction n with
  | zero => exact h
  | succ n ih => exact inSpace_writeWord (ih (by omega)) (by omega) _

/-- `StoreV` writes its `4*n` bytes and no others, in every buffer (R79). -/
theorem readByte_storeV_outside (m : List Host.Cell) (off : Nat) (w : Work) (n c : Nat)
    (h : c < off ∨ off + 4 * n ≤ c) : readByte (storeV m off w n) c = readByte m c := by
  induction n with
  | zero => rfl
  | succ n ih =>
    rw [storeV, readByte_writeWord_outside _ _ _ _ (by omega)]
    exact ih (by omega)

/-- Word `i` of the stored vector stands at the `i`-th lowest offset (R79). -/
theorem readWord_storeV {m : List Host.Cell} (h : Memory.wf m = true) (off : Nat) (w : Work) (n i : Nat) (hi : i < n) :
    readWord (storeV m off w n) (off + 4 * i) = w.word (BitVec.ofNat 4 i) := by
  induction n with
  | zero => omega
  | succ n ih =>
    by_cases e : i = n
    · subst e
      apply readWord_of_bytes
      intro j hj
      exact readByte_writeWord (wf_storeV h off w i) _ _ _ hj
    · rw [← ih (by omega)]
      apply readWord_congr
      intro j hj
      rw [storeV, readByte_writeWord_outside _ _ _ _ (by omega)]

end Sys2Proof.Laws
end

