-- ==== Sys2Proof/Laws/State.lean ====
section
/-! SUPPORT. What each named update of the state does to each field, one lemma a field, true by unfolding the update:
later proofs rewrite with these and never unfold a record update. -/

namespace Sys2Proof.Laws

open Sys2Proof.Machine

/-! The engine stands idle. -/

@[simp] theorem toIdle_key (s : State) : (s.toIdle).key = s.key := rfl
@[simp] theorem toIdle_keyv (s : State) : (s.toIdle).keyv = s.keyv := rfl
@[simp] theorem toIdle_keyin (s : State) : (s.toIdle).keyin = s.keyin := rfl
@[simp] theorem toIdle_start (s : State) : (s.toIdle).start = s.start := rfl
@[simp] theorem toIdle_count (s : State) : (s.toIdle).count = s.count := rfl
@[simp] theorem toIdle_buflen (s : State) : (s.toIdle).buflen = s.buflen := rfl
@[simp] theorem toIdle_busy (s : State) : (s.toIdle).busy = false := rfl
@[simp] theorem toIdle_fault (s : State) : (s.toIdle).fault = s.fault := rfl
@[simp] theorem toIdle_fcode (s : State) : (s.toIdle).fcode = s.fcode := rfl
@[simp] theorem toIdle_phase (s : State) : (s.toIdle).phase = .idle := rfl
@[simp] theorem toIdle_work (s : State) : (s.toIdle).work = s.work := rfl
@[simp] theorem toIdle_inflight (s : State) : (s.toIdle).inflight = none := rfl
@[simp] theorem toIdle_touched (s : State) : (s.toIdle).touched = [] := rfl
@[simp] theorem toIdle_port (s : State) : (s.toIdle).port = { s.port with status := .quiet } := rfl
@[simp] theorem toIdle_buf (s : State) : (s.toIdle).buf = s.buf := rfl
@[simp] theorem toIdle_todo (s : State) : (s.toIdle).todo = s.todo := rfl
@[simp] theorem toIdle_hostWord (s : State) : (s.toIdle).hostWord = s.hostWord := rfl
@[simp] theorem toIdle_hostByte (s : State) : (s.toIdle).hostByte = s.hostByte := rfl
@[simp] theorem toIdle_faulted (s : State) : (s.toIdle).faulted = s.faulted := rfl
@[simp] theorem toIdle_draws (s : State) : (s.toIdle).draws = s.draws := rfl

/-! Fault entry (R105). -/

@[simp] theorem raiseFault_key (c : FCode) (s : State) : (raiseFault c s).key = s.key := rfl
@[simp] theorem raiseFault_keyv (c : FCode) (s : State) : (raiseFault c s).keyv = s.keyv := rfl
@[simp] theorem raiseFault_keyin (c : FCode) (s : State) : (raiseFault c s).keyin = s.keyin := rfl
@[simp] theorem raiseFault_start (c : FCode) (s : State) : (raiseFault c s).start = s.start := rfl
@[simp] theorem raiseFault_count (c : FCode) (s : State) : (raiseFault c s).count = s.count := rfl
@[simp] theorem raiseFault_buflen (c : FCode) (s : State) : (raiseFault c s).buflen = s.buflen := rfl
@[simp] theorem raiseFault_busy (c : FCode) (s : State) : (raiseFault c s).busy = false := rfl
@[simp] theorem raiseFault_fault (c : FCode) (s : State) : (raiseFault c s).fault = true := rfl
@[simp] theorem raiseFault_fcode (c : FCode) (s : State) : (raiseFault c s).fcode = c.code := rfl
@[simp] theorem raiseFault_phase (c : FCode) (s : State) : (raiseFault c s).phase = .idle := rfl
@[simp] theorem raiseFault_work (c : FCode) (s : State) : (raiseFault c s).work = s.work := rfl
@[simp] theorem raiseFault_inflight (c : FCode) (s : State) : (raiseFault c s).inflight = none := rfl
@[simp] theorem raiseFault_touched (c : FCode) (s : State) : (raiseFault c s).touched = [] := rfl
@[simp] theorem raiseFault_port (c : FCode) (s : State) :
    (raiseFault c s).port = { s.port with status := .quiet } := rfl
@[simp] theorem raiseFault_buf (c : FCode) (s : State) : (raiseFault c s).buf = s.buf := rfl
@[simp] theorem raiseFault_todo (c : FCode) (s : State) : (raiseFault c s).todo = s.todo := rfl
@[simp] theorem raiseFault_hostWord (c : FCode) (s : State) : (raiseFault c s).hostWord = s.hostWord := rfl
@[simp] theorem raiseFault_hostByte (c : FCode) (s : State) : (raiseFault c s).hostByte = s.hostByte := rfl
@[simp] theorem raiseFault_faulted (c : FCode) (s : State) : (raiseFault c s).faulted = true := rfl
@[simp] theorem raiseFault_draws (c : FCode) (s : State) : (raiseFault c s).draws = s.draws := rfl

/-! Return from a fault (R107). -/

@[simp] theorem clearFault_key (s : State) : (clearFault s).key = s.key := rfl
@[simp] theorem clearFault_keyv (s : State) : (clearFault s).keyv = s.keyv := rfl
@[simp] theorem clearFault_keyin (s : State) : (clearFault s).keyin = s.keyin := rfl
@[simp] theorem clearFault_start (s : State) : (clearFault s).start = s.start := rfl
@[simp] theorem clearFault_count (s : State) : (clearFault s).count = s.count := rfl
@[simp] theorem clearFault_buflen (s : State) : (clearFault s).buflen = s.buflen := rfl
@[simp] theorem clearFault_busy (s : State) : (clearFault s).busy = s.busy := rfl
@[simp] theorem clearFault_fault (s : State) : (clearFault s).fault = false := rfl
@[simp] theorem clearFault_fcode (s : State) : (clearFault s).fcode = 0 := rfl
@[simp] theorem clearFault_phase (s : State) : (clearFault s).phase = s.phase := rfl
@[simp] theorem clearFault_work (s : State) : (clearFault s).work = s.work := rfl
@[simp] theorem clearFault_inflight (s : State) : (clearFault s).inflight = s.inflight := rfl
@[simp] theorem clearFault_touched (s : State) : (clearFault s).touched = s.touched := rfl
@[simp] theorem clearFault_port (s : State) : (clearFault s).port = s.port := rfl
@[simp] theorem clearFault_buf (s : State) : (clearFault s).buf = s.buf := rfl
@[simp] theorem clearFault_todo (s : State) : (clearFault s).todo = s.todo := rfl
@[simp] theorem clearFault_hostWord (s : State) : (clearFault s).hostWord = s.hostWord := rfl
@[simp] theorem clearFault_hostByte (s : State) : (clearFault s).hostByte = s.hostByte := rfl
@[simp] theorem clearFault_faulted (s : State) : (clearFault s).faulted = s.faulted := rfl
@[simp] theorem clearFault_draws (s : State) : (clearFault s).draws = s.draws := rfl

/-! Launch (R60). -/

@[simp] theorem launch_key (i : Instr) (s : State) : (launch i s).key = s.key := rfl
@[simp] theorem launch_keyv (i : Instr) (s : State) : (launch i s).keyv = s.keyv := rfl
@[simp] theorem launch_keyin (i : Instr) (s : State) : (launch i s).keyin = s.keyin := rfl
@[simp] theorem launch_start (i : Instr) (s : State) : (launch i s).start = s.start := rfl
@[simp] theorem launch_count (i : Instr) (s : State) : (launch i s).count = s.count := rfl
@[simp] theorem launch_buflen (i : Instr) (s : State) : (launch i s).buflen = s.buflen := rfl
@[simp] theorem launch_busy (i : Instr) (s : State) : (launch i s).busy = true := rfl
@[simp] theorem launch_fault (i : Instr) (s : State) : (launch i s).fault = s.fault := rfl
@[simp] theorem launch_fcode (i : Instr) (s : State) : (launch i s).fcode = s.fcode := rfl
@[simp] theorem launch_phase (i : Instr) (s : State) : (launch i s).phase = s.phase := rfl
@[simp] theorem launch_work (i : Instr) (s : State) : (launch i s).work = s.work := rfl
@[simp] theorem launch_inflight (i : Instr) (s : State) : (launch i s).inflight = some i := rfl
@[simp] theorem launch_touched (i : Instr) (s : State) : (launch i s).touched = s.touched := rfl
@[simp] theorem launch_port (i : Instr) (s : State) : (launch i s).port = s.port := rfl
@[simp] theorem launch_buf (i : Instr) (s : State) : (launch i s).buf = s.buf := rfl
@[simp] theorem launch_todo (i : Instr) (s : State) : (launch i s).todo = s.todo := rfl
@[simp] theorem launch_hostWord (i : Instr) (s : State) : (launch i s).hostWord = s.hostWord := rfl
@[simp] theorem launch_hostByte (i : Instr) (s : State) : (launch i s).hostByte = s.hostByte := rfl
@[simp] theorem launch_faulted (i : Instr) (s : State) : (launch i s).faulted = s.faulted := rfl
@[simp] theorem launch_draws (i : Instr) (s : State) : (launch i s).draws = s.draws := rfl

/-! Working registers left unspecified (R17). -/

@[simp] theorem forgetWork_key (s : State) : (s.forgetWork).key = s.key := by simp only [State.forgetWork]
@[simp] theorem forgetWork_keyv (s : State) : (s.forgetWork).keyv = s.keyv := by simp only [State.forgetWork]
@[simp] theorem forgetWork_keyin (s : State) : (s.forgetWork).keyin = s.keyin := by simp only [State.forgetWork]
@[simp] theorem forgetWork_start (s : State) : (s.forgetWork).start = s.start := by simp only [State.forgetWork]
@[simp] theorem forgetWork_count (s : State) : (s.forgetWork).count = s.count := by simp only [State.forgetWork]
@[simp] theorem forgetWork_buflen (s : State) : (s.forgetWork).buflen = s.buflen := by simp only [State.forgetWork]
@[simp] theorem forgetWork_busy (s : State) : (s.forgetWork).busy = s.busy := by simp only [State.forgetWork]
@[simp] theorem forgetWork_fault (s : State) : (s.forgetWork).fault = s.fault := by simp only [State.forgetWork]
@[simp] theorem forgetWork_fcode (s : State) : (s.forgetWork).fcode = s.fcode := by simp only [State.forgetWork]
@[simp] theorem forgetWork_phase (s : State) : (s.forgetWork).phase = s.phase := by simp only [State.forgetWork]
@[simp] theorem forgetWork_work (s : State) : (s.forgetWork).work = freeWork s.draws := by simp only [State.forgetWork]
@[simp] theorem forgetWork_inflight (s : State) :
    (s.forgetWork).inflight = s.inflight := by simp only [State.forgetWork]
@[simp] theorem forgetWork_touched (s : State) : (s.forgetWork).touched = s.touched := by simp only [State.forgetWork]
@[simp] theorem forgetWork_port (s : State) : (s.forgetWork).port = s.port := by simp only [State.forgetWork]
@[simp] theorem forgetWork_buf (s : State) : (s.forgetWork).buf = s.buf := by simp only [State.forgetWork]
@[simp] theorem forgetWork_todo (s : State) : (s.forgetWork).todo = s.todo := by simp only [State.forgetWork]
@[simp] theorem forgetWork_hostWord (s : State) :
    (s.forgetWork).hostWord = s.hostWord := by simp only [State.forgetWork]
@[simp] theorem forgetWork_hostByte (s : State) :
    (s.forgetWork).hostByte = s.hostByte := by simp only [State.forgetWork]
@[simp] theorem forgetWork_faulted (s : State) : (s.forgetWork).faulted = s.faulted := by simp only [State.forgetWork]
@[simp] theorem forgetWork_draws (s : State) :
    (s.forgetWork).draws = s.draws + freeWorkSize := by simp only [State.forgetWork]

/-! Bytes left unspecified. -/

@[simp] theorem forgetBytes_key (a n : Nat) (s : State) : (s.forgetBytes a n).key = s.key := rfl
@[simp] theorem forgetBytes_keyv (a n : Nat) (s : State) : (s.forgetBytes a n).keyv = s.keyv := rfl
@[simp] theorem forgetBytes_keyin (a n : Nat) (s : State) : (s.forgetBytes a n).keyin = s.keyin := rfl
@[simp] theorem forgetBytes_start (a n : Nat) (s : State) : (s.forgetBytes a n).start = s.start := rfl
@[simp] theorem forgetBytes_count (a n : Nat) (s : State) : (s.forgetBytes a n).count = s.count := rfl
@[simp] theorem forgetBytes_buflen (a n : Nat) (s : State) : (s.forgetBytes a n).buflen = s.buflen := rfl
@[simp] theorem forgetBytes_busy (a n : Nat) (s : State) : (s.forgetBytes a n).busy = s.busy := rfl
@[simp] theorem forgetBytes_fault (a n : Nat) (s : State) : (s.forgetBytes a n).fault = s.fault := rfl
@[simp] theorem forgetBytes_fcode (a n : Nat) (s : State) : (s.forgetBytes a n).fcode = s.fcode := rfl
@[simp] theorem forgetBytes_phase (a n : Nat) (s : State) : (s.forgetBytes a n).phase = s.phase := rfl
@[simp] theorem forgetBytes_work (a n : Nat) (s : State) : (s.forgetBytes a n).work = s.work := rfl
@[simp] theorem forgetBytes_inflight (a n : Nat) (s : State) : (s.forgetBytes a n).inflight = s.inflight := rfl
@[simp] theorem forgetBytes_touched (a n : Nat) (s : State) : (s.forgetBytes a n).touched = s.touched := rfl
@[simp] theorem forgetBytes_port (a n : Nat) (s : State) : (s.forgetBytes a n).port = s.port := rfl
@[simp] theorem forgetBytes_buf (a n : Nat) (s : State) :
    (s.forgetBytes a n).buf = writeBytes s.buf a (fun i => Config.freeByte (s.draws + i)) n := rfl
@[simp] theorem forgetBytes_todo (a n : Nat) (s : State) : (s.forgetBytes a n).todo = s.todo := rfl
@[simp] theorem forgetBytes_hostWord (a n : Nat) (s : State) : (s.forgetBytes a n).hostWord = s.hostWord := rfl
@[simp] theorem forgetBytes_hostByte (a n : Nat) (s : State) : (s.forgetBytes a n).hostByte = s.hostByte := rfl
@[simp] theorem forgetBytes_faulted (a n : Nat) (s : State) : (s.forgetBytes a n).faulted = s.faulted := rfl
@[simp] theorem forgetBytes_draws (a n : Nat) (s : State) : (s.forgetBytes a n).draws = s.draws + n := rfl

/-! The block operation (R82, R83). -/

@[simp] theorem block_key (d : Dir) (off : Nat) (m : MCount) (s : State) : (block d off m s).key = s.key := rfl
@[simp] theorem block_keyv (d : Dir) (off : Nat) (m : MCount) (s : State) : (block d off m s).keyv = s.keyv := rfl
@[simp] theorem block_keyin (d : Dir) (off : Nat) (m : MCount) (s : State) : (block d off m s).keyin = s.keyin := rfl
@[simp] theorem block_start (d : Dir) (off : Nat) (m : MCount) (s : State) : (block d off m s).start = s.start := rfl
@[simp] theorem block_count (d : Dir) (off : Nat) (m : MCount) (s : State) : (block d off m s).count = s.count := rfl
@[simp] theorem block_buflen (d : Dir) (off : Nat) (m : MCount) (s : State) : (block d off m s).buflen = s.buflen := rfl
@[simp] theorem block_busy (d : Dir) (off : Nat) (m : MCount) (s : State) : (block d off m s).busy = s.busy := rfl
@[simp] theorem block_fault (d : Dir) (off : Nat) (m : MCount) (s : State) : (block d off m s).fault = s.fault := rfl
@[simp] theorem block_fcode (d : Dir) (off : Nat) (m : MCount) (s : State) : (block d off m s).fcode = s.fcode := rfl
@[simp] theorem block_phase (d : Dir) (off : Nat) (m : MCount) (s : State) : (block d off m s).phase = s.phase := rfl
@[simp] theorem block_inflight (d : Dir) (off : Nat) (m : MCount) (s : State) :
    (block d off m s).inflight = s.inflight := rfl
@[simp] theorem block_touched (d : Dir) (off : Nat) (m : MCount) (s : State) :
    (block d off m s).touched = s.touched := rfl
@[simp] theorem block_port (d : Dir) (off : Nat) (m : MCount) (s : State) : (block d off m s).port = s.port := rfl
@[simp] theorem block_todo (d : Dir) (off : Nat) (m : MCount) (s : State) : (block d off m s).todo = s.todo := rfl
@[simp] theorem block_hostWord (d : Dir) (off : Nat) (m : MCount) (s : State) :
    (block d off m s).hostWord = s.hostWord := rfl
@[simp] theorem block_hostByte (d : Dir) (off : Nat) (m : MCount) (s : State) :
    (block d off m s).hostByte = s.hostByte := rfl
@[simp] theorem block_faulted (d : Dir) (off : Nat) (m : MCount) (s : State) :
    (block d off m s).faulted = s.faulted := rfl
@[simp] theorem block_draws (d : Dir) (off : Nat) (m : MCount) (s : State) : (block d off m s).draws = s.draws := rfl

/-! The setting of `DIR`, `FULL`, `LEFT`, `OFF` (R67). -/

@[simp] theorem dispatchBegin_key (d : Dir) (s : State) : (dispatchBegin d s).key = s.key := rfl
@[simp] theorem dispatchBegin_keyv (d : Dir) (s : State) : (dispatchBegin d s).keyv = s.keyv := rfl
@[simp] theorem dispatchBegin_keyin (d : Dir) (s : State) : (dispatchBegin d s).keyin = s.keyin := rfl
@[simp] theorem dispatchBegin_start (d : Dir) (s : State) : (dispatchBegin d s).start = s.start := rfl
@[simp] theorem dispatchBegin_count (d : Dir) (s : State) : (dispatchBegin d s).count = s.count := rfl
@[simp] theorem dispatchBegin_buflen (d : Dir) (s : State) : (dispatchBegin d s).buflen = s.buflen := rfl
@[simp] theorem dispatchBegin_busy (d : Dir) (s : State) : (dispatchBegin d s).busy = s.busy := rfl
@[simp] theorem dispatchBegin_fault (d : Dir) (s : State) : (dispatchBegin d s).fault = s.fault := rfl
@[simp] theorem dispatchBegin_fcode (d : Dir) (s : State) : (dispatchBegin d s).fcode = s.fcode := rfl
@[simp] theorem dispatchBegin_phase (d : Dir) (s : State) : (dispatchBegin d s).phase = .super := rfl
@[simp] theorem dispatchBegin_inflight (d : Dir) (s : State) : (dispatchBegin d s).inflight = s.inflight := rfl
@[simp] theorem dispatchBegin_touched (d : Dir) (s : State) : (dispatchBegin d s).touched = s.touched := rfl
@[simp] theorem dispatchBegin_port (d : Dir) (s : State) : (dispatchBegin d s).port = s.port := rfl
@[simp] theorem dispatchBegin_buf (d : Dir) (s : State) : (dispatchBegin d s).buf = s.buf := rfl
@[simp] theorem dispatchBegin_todo (d : Dir) (s : State) : (dispatchBegin d s).todo = s.todo := rfl
@[simp] theorem dispatchBegin_hostWord (d : Dir) (s : State) : (dispatchBegin d s).hostWord = s.hostWord := rfl
@[simp] theorem dispatchBegin_hostByte (d : Dir) (s : State) : (dispatchBegin d s).hostByte = s.hostByte := rfl
@[simp] theorem dispatchBegin_faulted (d : Dir) (s : State) : (dispatchBegin d s).faulted = s.faulted := rfl
@[simp] theorem dispatchBegin_draws (d : Dir) (s : State) : (dispatchBegin d s).draws = s.draws := rfl

/-! One super-block (R70). -/

@[simp] theorem superBlock_key (s : State) : (superBlock s).key = s.key := by simp only [superBlock, block_key]
@[simp] theorem superBlock_keyv (s : State) : (superBlock s).keyv = s.keyv := by simp only [superBlock, block_keyv]
@[simp] theorem superBlock_keyin (s : State) : (superBlock s).keyin = s.keyin := by simp only [superBlock, block_keyin]
@[simp] theorem superBlock_start (s : State) : (superBlock s).start = s.start := by simp only [superBlock, block_start]
@[simp] theorem superBlock_count (s : State) : (superBlock s).count = s.count := by simp only [superBlock, block_count]
@[simp] theorem superBlock_buflen (s : State) :
    (superBlock s).buflen = s.buflen := by simp only [superBlock, block_buflen]
@[simp] theorem superBlock_busy (s : State) : (superBlock s).busy = s.busy := by simp only [superBlock, block_busy]
@[simp] theorem superBlock_fault (s : State) : (superBlock s).fault = s.fault := by simp only [superBlock, block_fault]
@[simp] theorem superBlock_fcode (s : State) : (superBlock s).fcode = s.fcode := by simp only [superBlock, block_fcode]
@[simp] theorem superBlock_phase (s : State) : (superBlock s).phase = s.phase := by simp only [superBlock, block_phase]
@[simp] theorem superBlock_inflight (s : State) :
    (superBlock s).inflight = s.inflight := by simp only [superBlock, block_inflight]
@[simp] theorem superBlock_touched (s : State) :
    (superBlock s).touched = s.touched := by simp only [superBlock, block_touched]
@[simp] theorem superBlock_port (s : State) : (superBlock s).port = s.port := by simp only [superBlock, block_port]
@[simp] theorem superBlock_buf (s : State) :
    (superBlock s).buf = (block s.work.dir s.work.off.toNat .sixteen s).buf := by simp only [superBlock]
@[simp] theorem superBlock_todo (s : State) : (superBlock s).todo = s.todo := by simp only [superBlock, block_todo]
@[simp] theorem superBlock_hostWord (s : State) :
    (superBlock s).hostWord = s.hostWord := by simp only [superBlock, block_hostWord]
@[simp] theorem superBlock_hostByte (s : State) :
    (superBlock s).hostByte = s.hostByte := by simp only [superBlock, block_hostByte]
@[simp] theorem superBlock_faulted (s : State) :
    (superBlock s).faulted = s.faulted := by simp only [superBlock, block_faulted]
@[simp] theorem superBlock_draws (s : State) : (superBlock s).draws = s.draws := by simp only [superBlock, block_draws]

/-! `NW <- LEFT div 4` (R67). -/

@[simp] theorem enterWords_key (s : State) : (enterWords s).key = s.key := rfl
@[simp] theorem enterWords_keyv (s : State) : (enterWords s).keyv = s.keyv := rfl
@[simp] theorem enterWords_keyin (s : State) : (enterWords s).keyin = s.keyin := rfl
@[simp] theorem enterWords_start (s : State) : (enterWords s).start = s.start := rfl
@[simp] theorem enterWords_count (s : State) : (enterWords s).count = s.count := rfl
@[simp] theorem enterWords_buflen (s : State) : (enterWords s).buflen = s.buflen := rfl
@[simp] theorem enterWords_busy (s : State) : (enterWords s).busy = s.busy := rfl
@[simp] theorem enterWords_fault (s : State) : (enterWords s).fault = s.fault := rfl
@[simp] theorem enterWords_fcode (s : State) : (enterWords s).fcode = s.fcode := rfl
@[simp] theorem enterWords_phase (s : State) : (enterWords s).phase = .words := rfl
@[simp] theorem enterWords_inflight (s : State) : (enterWords s).inflight = s.inflight := rfl
@[simp] theorem enterWords_touched (s : State) : (enterWords s).touched = s.touched := rfl
@[simp] theorem enterWords_port (s : State) : (enterWords s).port = s.port := rfl
@[simp] theorem enterWords_buf (s : State) : (enterWords s).buf = s.buf := rfl
@[simp] theorem enterWords_todo (s : State) : (enterWords s).todo = s.todo := rfl
@[simp] theorem enterWords_hostWord (s : State) : (enterWords s).hostWord = s.hostWord := rfl
@[simp] theorem enterWords_hostByte (s : State) : (enterWords s).hostByte = s.hostByte := rfl
@[simp] theorem enterWords_faulted (s : State) : (enterWords s).faulted = s.faulted := rfl
@[simp] theorem enterWords_draws (s : State) : (enterWords s).draws = s.draws := rfl

/-! The words run (R71). -/

@[simp] theorem wordsBlock_key (m : MCount) (s : State) :
    (wordsBlock m s).key = s.key := by simp only [wordsBlock, block_key]
@[simp] theorem wordsBlock_keyv (m : MCount) (s : State) :
    (wordsBlock m s).keyv = s.keyv := by simp only [wordsBlock, block_keyv]
@[simp] theorem wordsBlock_keyin (m : MCount) (s : State) :
    (wordsBlock m s).keyin = s.keyin := by simp only [wordsBlock, block_keyin]
@[simp] theorem wordsBlock_start (m : MCount) (s : State) :
    (wordsBlock m s).start = s.start := by simp only [wordsBlock, block_start]
@[simp] theorem wordsBlock_count (m : MCount) (s : State) :
    (wordsBlock m s).count = s.count := by simp only [wordsBlock, block_count]
@[simp] theorem wordsBlock_buflen (m : MCount) (s : State) :
    (wordsBlock m s).buflen = s.buflen := by simp only [wordsBlock, block_buflen]
@[simp] theorem wordsBlock_busy (m : MCount) (s : State) :
    (wordsBlock m s).busy = s.busy := by simp only [wordsBlock, block_busy]
@[simp] theorem wordsBlock_fault (m : MCount) (s : State) :
    (wordsBlock m s).fault = s.fault := by simp only [wordsBlock, block_fault]
@[simp] theorem wordsBlock_fcode (m : MCount) (s : State) :
    (wordsBlock m s).fcode = s.fcode := by simp only [wordsBlock, block_fcode]
@[simp] theorem wordsBlock_phase (m : MCount) (s : State) :
    (wordsBlock m s).phase = s.phase := by simp only [wordsBlock, block_phase]
@[simp] theorem wordsBlock_inflight (m : MCount) (s : State) :
    (wordsBlock m s).inflight = s.inflight := by simp only [wordsBlock, block_inflight]
@[simp] theorem wordsBlock_touched (m : MCount) (s : State) :
    (wordsBlock m s).touched = s.touched := by simp only [wordsBlock, block_touched]
@[simp] theorem wordsBlock_port (m : MCount) (s : State) :
    (wordsBlock m s).port = s.port := by simp only [wordsBlock, block_port]
@[simp] theorem wordsBlock_buf (m : MCount) (s : State) :
    (wordsBlock m s).buf = (block s.work.dir s.work.off.toNat m s).buf := by simp only [wordsBlock]
@[simp] theorem wordsBlock_todo (m : MCount) (s : State) :
    (wordsBlock m s).todo = s.todo := by simp only [wordsBlock, block_todo]
@[simp] theorem wordsBlock_hostWord (m : MCount) (s : State) :
    (wordsBlock m s).hostWord = s.hostWord := by simp only [wordsBlock, block_hostWord]
@[simp] theorem wordsBlock_hostByte (m : MCount) (s : State) :
    (wordsBlock m s).hostByte = s.hostByte := by simp only [wordsBlock, block_hostByte]
@[simp] theorem wordsBlock_faulted (m : MCount) (s : State) :
    (wordsBlock m s).faulted = s.faulted := by simp only [wordsBlock, block_faulted]
@[simp] theorem wordsBlock_draws (m : MCount) (s : State) :
    (wordsBlock m s).draws = s.draws := by simp only [wordsBlock, block_draws]

/-! On to the tail after the words run (R67). -/

@[simp] theorem advanceWords_key (s : State) : (advanceWords s).key = s.key := rfl
@[simp] theorem advanceWords_keyv (s : State) : (advanceWords s).keyv = s.keyv := rfl
@[simp] theorem advanceWords_keyin (s : State) : (advanceWords s).keyin = s.keyin := rfl
@[simp] theorem advanceWords_start (s : State) : (advanceWords s).start = s.start := rfl
@[simp] theorem advanceWords_count (s : State) : (advanceWords s).count = s.count := rfl
@[simp] theorem advanceWords_buflen (s : State) : (advanceWords s).buflen = s.buflen := rfl
@[simp] theorem advanceWords_busy (s : State) : (advanceWords s).busy = s.busy := rfl
@[simp] theorem advanceWords_fault (s : State) : (advanceWords s).fault = s.fault := rfl
@[simp] theorem advanceWords_fcode (s : State) : (advanceWords s).fcode = s.fcode := rfl
@[simp] theorem advanceWords_phase (s : State) : (advanceWords s).phase = .tail := rfl
@[simp] theorem advanceWords_inflight (s : State) : (advanceWords s).inflight = s.inflight := rfl
@[simp] theorem advanceWords_touched (s : State) : (advanceWords s).touched = s.touched := rfl
@[simp] theorem advanceWords_port (s : State) : (advanceWords s).port = s.port := rfl
@[simp] theorem advanceWords_buf (s : State) : (advanceWords s).buf = s.buf := rfl
@[simp] theorem advanceWords_todo (s : State) : (advanceWords s).todo = s.todo := rfl
@[simp] theorem advanceWords_hostWord (s : State) : (advanceWords s).hostWord = s.hostWord := rfl
@[simp] theorem advanceWords_hostByte (s : State) : (advanceWords s).hostByte = s.hostByte := rfl
@[simp] theorem advanceWords_faulted (s : State) : (advanceWords s).faulted = s.faulted := rfl
@[simp] theorem advanceWords_draws (s : State) : (advanceWords s).draws = s.draws := rfl

/-! On to the tail with nothing taken (R67). -/

@[simp] theorem skipWords_key (s : State) : (skipWords s).key = s.key := rfl
@[simp] theorem skipWords_keyv (s : State) : (skipWords s).keyv = s.keyv := rfl
@[simp] theorem skipWords_keyin (s : State) : (skipWords s).keyin = s.keyin := rfl
@[simp] theorem skipWords_start (s : State) : (skipWords s).start = s.start := rfl
@[simp] theorem skipWords_count (s : State) : (skipWords s).count = s.count := rfl
@[simp] theorem skipWords_buflen (s : State) : (skipWords s).buflen = s.buflen := rfl
@[simp] theorem skipWords_busy (s : State) : (skipWords s).busy = s.busy := rfl
@[simp] theorem skipWords_fault (s : State) : (skipWords s).fault = s.fault := rfl
@[simp] theorem skipWords_fcode (s : State) : (skipWords s).fcode = s.fcode := rfl
@[simp] theorem skipWords_phase (s : State) : (skipWords s).phase = .tail := rfl
@[simp] theorem skipWords_work (s : State) : (skipWords s).work = s.work := rfl
@[simp] theorem skipWords_inflight (s : State) : (skipWords s).inflight = s.inflight := rfl
@[simp] theorem skipWords_touched (s : State) : (skipWords s).touched = s.touched := rfl
@[simp] theorem skipWords_port (s : State) : (skipWords s).port = s.port := rfl
@[simp] theorem skipWords_buf (s : State) : (skipWords s).buf = s.buf := rfl
@[simp] theorem skipWords_todo (s : State) : (skipWords s).todo = s.todo := rfl
@[simp] theorem skipWords_hostWord (s : State) : (skipWords s).hostWord = s.hostWord := rfl
@[simp] theorem skipWords_hostByte (s : State) : (skipWords s).hostByte = s.hostByte := rfl
@[simp] theorem skipWords_faulted (s : State) : (skipWords s).faulted = s.faulted := rfl
@[simp] theorem skipWords_draws (s : State) : (skipWords s).draws = s.draws := rfl

/-! The request (R53). -/

@[simp] theorem tailSend_key (s : State) : (tailSend s).key = s.key := rfl
@[simp] theorem tailSend_keyv (s : State) : (tailSend s).keyv = s.keyv := rfl
@[simp] theorem tailSend_keyin (s : State) : (tailSend s).keyin = s.keyin := rfl
@[simp] theorem tailSend_start (s : State) : (tailSend s).start = s.start := rfl
@[simp] theorem tailSend_count (s : State) : (tailSend s).count = s.count := rfl
@[simp] theorem tailSend_buflen (s : State) : (tailSend s).buflen = s.buflen := rfl
@[simp] theorem tailSend_busy (s : State) : (tailSend s).busy = s.busy := rfl
@[simp] theorem tailSend_fault (s : State) : (tailSend s).fault = s.fault := rfl
@[simp] theorem tailSend_fcode (s : State) : (tailSend s).fcode = s.fcode := rfl
@[simp] theorem tailSend_phase (s : State) : (tailSend s).phase = s.phase := rfl
@[simp] theorem tailSend_work (s : State) : (tailSend s).work = s.work := rfl
@[simp] theorem tailSend_inflight (s : State) : (tailSend s).inflight = s.inflight := rfl
@[simp] theorem tailSend_touched (s : State) : (tailSend s).touched = s.touched := rfl
@[simp] theorem tailSend_buf (s : State) : (tailSend s).buf = s.buf := rfl
@[simp] theorem tailSend_todo (s : State) : (tailSend s).todo = s.todo := rfl
@[simp] theorem tailSend_hostWord (s : State) : (tailSend s).hostWord = s.hostWord := rfl
@[simp] theorem tailSend_hostByte (s : State) : (tailSend s).hostByte = s.hostByte := rfl
@[simp] theorem tailSend_faulted (s : State) : (tailSend s).faulted = s.faulted := rfl
@[simp] theorem tailSend_draws (s : State) : (tailSend s).draws = s.draws := rfl

/-! The delegate's answer (R54). -/

@[simp] theorem respond_key (D : Config.Delegate) (d : Dir) (len : BitVec 3) (s : State) :
    (respond D d len s).key = s.key := rfl
@[simp] theorem respond_keyv (D : Config.Delegate) (d : Dir) (len : BitVec 3) (s : State) :
    (respond D d len s).keyv = s.keyv := rfl
@[simp] theorem respond_keyin (D : Config.Delegate) (d : Dir) (len : BitVec 3) (s : State) :
    (respond D d len s).keyin = s.keyin := rfl
@[simp] theorem respond_start (D : Config.Delegate) (d : Dir) (len : BitVec 3) (s : State) :
    (respond D d len s).start = s.start := rfl
@[simp] theorem respond_count (D : Config.Delegate) (d : Dir) (len : BitVec 3) (s : State) :
    (respond D d len s).count = s.count := rfl
@[simp] theorem respond_buflen (D : Config.Delegate) (d : Dir) (len : BitVec 3) (s : State) :
    (respond D d len s).buflen = s.buflen := rfl
@[simp] theorem respond_busy (D : Config.Delegate) (d : Dir) (len : BitVec 3) (s : State) :
    (respond D d len s).busy = s.busy := rfl
@[simp] theorem respond_fault (D : Config.Delegate) (d : Dir) (len : BitVec 3) (s : State) :
    (respond D d len s).fault = s.fault := rfl
@[simp] theorem respond_fcode (D : Config.Delegate) (d : Dir) (len : BitVec 3) (s : State) :
    (respond D d len s).fcode = s.fcode := rfl
@[simp] theorem respond_phase (D : Config.Delegate) (d : Dir) (len : BitVec 3) (s : State) :
    (respond D d len s).phase = s.phase := rfl
@[simp] theorem respond_work (D : Config.Delegate) (d : Dir) (len : BitVec 3) (s : State) :
    (respond D d len s).work = s.work := rfl
@[simp] theorem respond_inflight (D : Config.Delegate) (d : Dir) (len : BitVec 3) (s : State) :
    (respond D d len s).inflight = s.inflight := rfl
@[simp] theorem respond_touched (D : Config.Delegate) (d : Dir) (len : BitVec 3) (s : State) :
    (respond D d len s).touched = s.touched := rfl
@[simp] theorem respond_buf (D : Config.Delegate) (d : Dir) (len : BitVec 3) (s : State) :
    (respond D d len s).buf = s.buf := rfl
@[simp] theorem respond_todo (D : Config.Delegate) (d : Dir) (len : BitVec 3) (s : State) :
    (respond D d len s).todo = s.todo := rfl
@[simp] theorem respond_hostWord (D : Config.Delegate) (d : Dir) (len : BitVec 3) (s : State) :
    (respond D d len s).hostWord = s.hostWord := rfl
@[simp] theorem respond_hostByte (D : Config.Delegate) (d : Dir) (len : BitVec 3) (s : State) :
    (respond D d len s).hostByte = s.hostByte := rfl
@[simp] theorem respond_faulted (D : Config.Delegate) (d : Dir) (len : BitVec 3) (s : State) :
    (respond D d len s).faulted = s.faulted := rfl
@[simp] theorem respond_draws (D : Config.Delegate) (d : Dir) (len : BitVec 3) (s : State) :
    (respond D d len s).draws = s.draws + 7 := rfl

/-! The answer written back (R98). -/

@[simp] theorem tailBack_key (s : State) : (tailBack s).key = s.key := rfl
@[simp] theorem tailBack_keyv (s : State) : (tailBack s).keyv = s.keyv := rfl
@[simp] theorem tailBack_keyin (s : State) : (tailBack s).keyin = s.keyin := rfl
@[simp] theorem tailBack_start (s : State) : (tailBack s).start = s.start := rfl
@[simp] theorem tailBack_count (s : State) : (tailBack s).count = s.count := rfl
@[simp] theorem tailBack_buflen (s : State) : (tailBack s).buflen = s.buflen := rfl
@[simp] theorem tailBack_busy (s : State) : (tailBack s).busy = s.busy := rfl
@[simp] theorem tailBack_fault (s : State) : (tailBack s).fault = s.fault := rfl
@[simp] theorem tailBack_fcode (s : State) : (tailBack s).fcode = s.fcode := rfl
@[simp] theorem tailBack_phase (s : State) : (tailBack s).phase = s.phase := rfl
@[simp] theorem tailBack_work (s : State) : (tailBack s).work = s.work := rfl
@[simp] theorem tailBack_inflight (s : State) : (tailBack s).inflight = s.inflight := rfl
@[simp] theorem tailBack_touched (s : State) : (tailBack s).touched = s.touched := rfl
@[simp] theorem tailBack_port (s : State) : (tailBack s).port = s.port := rfl
@[simp] theorem tailBack_todo (s : State) : (tailBack s).todo = s.todo := rfl
@[simp] theorem tailBack_hostWord (s : State) : (tailBack s).hostWord = s.hostWord := rfl
@[simp] theorem tailBack_hostByte (s : State) : (tailBack s).hostByte = s.hostByte := rfl
@[simp] theorem tailBack_faulted (s : State) : (tailBack s).faulted = s.faulted := rfl
@[simp] theorem tailBack_draws (s : State) : (tailBack s).draws = s.draws := rfl

/-! Working registers: `setWord`. -/

@[simp] theorem setWord_sum (i : BitVec 4) (x : Word) (w : Work) : (w.setWord i x).sum = w.sum := rfl
@[simp] theorem setWord_y (i : BitVec 4) (x : Word) (w : Work) : (w.setWord i x).y = w.y := rfl
@[simp] theorem setWord_z (i : BitVec 4) (x : Word) (w : Work) : (w.setWord i x).z = w.z := rfl
@[simp] theorem setWord_e (i : BitVec 4) (x : Word) (w : Work) : (w.setWord i x).e = w.e := rfl
@[simp] theorem setWord_p (i : BitVec 4) (x : Word) (w : Work) : (w.setWord i x).p = w.p := rfl
@[simp] theorem setWord_m (i : BitVec 4) (x : Word) (w : Work) : (w.setWord i x).m = w.m := rfl
@[simp] theorem setWord_rounds (i : BitVec 4) (x : Word) (w : Work) : (w.setWord i x).rounds = w.rounds := rfl
@[simp] theorem setWord_rnd (i : BitVec 4) (x : Word) (w : Work) : (w.setWord i x).rnd = w.rnd := rfl
@[simp] theorem setWord_dir (i : BitVec 4) (x : Word) (w : Work) : (w.setWord i x).dir = w.dir := rfl
@[simp] theorem setWord_off (i : BitVec 4) (x : Word) (w : Work) : (w.setWord i x).off = w.off := rfl
@[simp] theorem setWord_full (i : BitVec 4) (x : Word) (w : Work) : (w.setWord i x).full = w.full := rfl
@[simp] theorem setWord_left (i : BitVec 4) (x : Word) (w : Work) : (w.setWord i x).left = w.left := rfl
@[simp] theorem setWord_nw (i : BitVec 4) (x : Word) (w : Work) : (w.setWord i x).nw = w.nw := rfl

/-! Working registers: `encWord`. -/

@[simp] theorem encWord_sum (key : Key) (p q : BitVec 4) (w : Work) : (encWord key p q w).sum = w.sum := rfl
@[simp] theorem encWord_y (key : Key) (p q : BitVec 4) (w : Work) : (encWord key p q w).y = w.word q := rfl
@[simp] theorem encWord_e (key : Key) (p q : BitVec 4) (w : Work) : (encWord key p q w).e = w.e := rfl
@[simp] theorem encWord_p (key : Key) (p q : BitVec 4) (w : Work) : (encWord key p q w).p = p := rfl
@[simp] theorem encWord_m (key : Key) (p q : BitVec 4) (w : Work) : (encWord key p q w).m = w.m := rfl
@[simp] theorem encWord_rounds (key : Key) (p q : BitVec 4) (w : Work) : (encWord key p q w).rounds = w.rounds := rfl
@[simp] theorem encWord_rnd (key : Key) (p q : BitVec 4) (w : Work) : (encWord key p q w).rnd = w.rnd := rfl
@[simp] theorem encWord_dir (key : Key) (p q : BitVec 4) (w : Work) : (encWord key p q w).dir = w.dir := rfl
@[simp] theorem encWord_off (key : Key) (p q : BitVec 4) (w : Work) : (encWord key p q w).off = w.off := rfl
@[simp] theorem encWord_full (key : Key) (p q : BitVec 4) (w : Work) : (encWord key p q w).full = w.full := rfl
@[simp] theorem encWord_left (key : Key) (p q : BitVec 4) (w : Work) : (encWord key p q w).left = w.left := rfl
@[simp] theorem encWord_nw (key : Key) (p q : BitVec 4) (w : Work) : (encWord key p q w).nw = w.nw := rfl

/-! Working registers: `decWord`. -/

@[simp] theorem decWord_sum (key : Key) (p q : BitVec 4) (w : Work) : (decWord key p q w).sum = w.sum := rfl
@[simp] theorem decWord_z (key : Key) (p q : BitVec 4) (w : Work) : (decWord key p q w).z = w.word q := rfl
@[simp] theorem decWord_e (key : Key) (p q : BitVec 4) (w : Work) : (decWord key p q w).e = w.e := rfl
@[simp] theorem decWord_p (key : Key) (p q : BitVec 4) (w : Work) : (decWord key p q w).p = p := rfl
@[simp] theorem decWord_m (key : Key) (p q : BitVec 4) (w : Work) : (decWord key p q w).m = w.m := rfl
@[simp] theorem decWord_rounds (key : Key) (p q : BitVec 4) (w : Work) : (decWord key p q w).rounds = w.rounds := rfl
@[simp] theorem decWord_rnd (key : Key) (p q : BitVec 4) (w : Work) : (decWord key p q w).rnd = w.rnd := rfl
@[simp] theorem decWord_dir (key : Key) (p q : BitVec 4) (w : Work) : (decWord key p q w).dir = w.dir := rfl
@[simp] theorem decWord_off (key : Key) (p q : BitVec 4) (w : Work) : (decWord key p q w).off = w.off := rfl
@[simp] theorem decWord_full (key : Key) (p q : BitVec 4) (w : Work) : (decWord key p q w).full = w.full := rfl
@[simp] theorem decWord_left (key : Key) (p q : BitVec 4) (w : Work) : (decWord key p q w).left = w.left := rfl
@[simp] theorem decWord_nw (key : Key) (p q : BitVec 4) (w : Work) : (decWord key p q w).nw = w.nw := rfl

/-- A word of the vector is given by `V` alone. -/
theorem word_of_v {w w' : Work} (h : w.v = w'.v) (j : BitVec 4) : w.word j = w'.word j := by
  simp only [Work.word, h]

/-! The head of an encryption round (R80). -/

@[simp] theorem encHead_v (w : Work) : (encHead w).v = w.v := by cases w; rfl
@[simp] theorem encHead_word (w : Work) (j : BitVec 4) : (encHead w).word j = w.word j :=
  word_of_v (encHead_v w) j
@[simp] theorem encHead_sum (w : Work) : (encHead w).sum = w.sum + Config.delta := by cases w; rfl
@[simp] theorem encHead_y (w : Work) : (encHead w).y = w.y := by cases w; rfl
@[simp] theorem encHead_z (w : Work) : (encHead w).z = w.z := by cases w; rfl
@[simp] theorem encHead_e (w : Work) : (encHead w).e = rotation (w.sum + Config.delta) := by cases w; rfl
@[simp] theorem encHead_p (w : Work) : (encHead w).p = w.p := by cases w; rfl
@[simp] theorem encHead_m (w : Work) : (encHead w).m = w.m := by cases w; rfl
@[simp] theorem encHead_rounds (w : Work) : (encHead w).rounds = w.rounds := by cases w; rfl
@[simp] theorem encHead_rnd (w : Work) : (encHead w).rnd = w.rnd + 1 := by cases w; rfl
@[simp] theorem encHead_dir (w : Work) : (encHead w).dir = w.dir := by cases w; rfl
@[simp] theorem encHead_off (w : Work) : (encHead w).off = w.off := by cases w; rfl
@[simp] theorem encHead_full (w : Work) : (encHead w).full = w.full := by cases w; rfl
@[simp] theorem encHead_left (w : Work) : (encHead w).left = w.left := by cases w; rfl
@[simp] theorem encHead_nw (w : Work) : (encHead w).nw = w.nw := by cases w; rfl

/-! Before the first round of encryption (R80). -/

@[simp] theorem encInit_v (m : MCount) (w : Work) : (encInit m w).v = w.v := by cases w; rfl
@[simp] theorem encInit_word (m : MCount) (w : Work) (j : BitVec 4) : (encInit m w).word j = w.word j :=
  word_of_v (encInit_v m w) j
@[simp] theorem encInit_sum (m : MCount) (w : Work) : (encInit m w).sum = 0 := by cases w; rfl
@[simp] theorem encInit_y (m : MCount) (w : Work) : (encInit m w).y = w.y := by cases w; rfl
@[simp] theorem encInit_z (m : MCount) (w : Work) : (encInit m w).z = w.word (lastIndex m) := by cases w; rfl
@[simp] theorem encInit_e (m : MCount) (w : Work) : (encInit m w).e = w.e := by cases w; rfl
@[simp] theorem encInit_p (m : MCount) (w : Work) : (encInit m w).p = w.p := by cases w; rfl
@[simp] theorem encInit_m (m : MCount) (w : Work) : (encInit m w).m = BitVec.ofNat 5 m.val := by cases w; rfl
@[simp] theorem encInit_rounds (m : MCount) (w : Work) :
    (encInit m w).rounds = BitVec.ofNat 6 (roundCount m) := by cases w; rfl
@[simp] theorem encInit_rnd (m : MCount) (w : Work) : (encInit m w).rnd = 0 := by cases w; rfl
@[simp] theorem encInit_dir (m : MCount) (w : Work) : (encInit m w).dir = w.dir := by cases w; rfl
@[simp] theorem encInit_off (m : MCount) (w : Work) : (encInit m w).off = w.off := by cases w; rfl
@[simp] theorem encInit_full (m : MCount) (w : Work) : (encInit m w).full = w.full := by cases w; rfl
@[simp] theorem encInit_left (m : MCount) (w : Work) : (encInit m w).left = w.left := by cases w; rfl
@[simp] theorem encInit_nw (m : MCount) (w : Work) : (encInit m w).nw = w.nw := by cases w; rfl

/-! The head of a decryption round (R81). -/

@[simp] theorem decHead_v (w : Work) : (decHead w).v = w.v := by cases w; rfl
@[simp] theorem decHead_word (w : Work) (j : BitVec 4) : (decHead w).word j = w.word j :=
  word_of_v (decHead_v w) j
@[simp] theorem decHead_sum (w : Work) : (decHead w).sum = w.sum := by cases w; rfl
@[simp] theorem decHead_y (w : Work) : (decHead w).y = w.y := by cases w; rfl
@[simp] theorem decHead_z (w : Work) : (decHead w).z = w.z := by cases w; rfl
@[simp] theorem decHead_e (w : Work) : (decHead w).e = rotation w.sum := by cases w; rfl
@[simp] theorem decHead_p (w : Work) : (decHead w).p = w.p := by cases w; rfl
@[simp] theorem decHead_m (w : Work) : (decHead w).m = w.m := by cases w; rfl
@[simp] theorem decHead_rounds (w : Work) : (decHead w).rounds = w.rounds := by cases w; rfl
@[simp] theorem decHead_rnd (w : Work) : (decHead w).rnd = w.rnd := by cases w; rfl
@[simp] theorem decHead_dir (w : Work) : (decHead w).dir = w.dir := by cases w; rfl
@[simp] theorem decHead_off (w : Work) : (decHead w).off = w.off := by cases w; rfl
@[simp] theorem decHead_full (w : Work) : (decHead w).full = w.full := by cases w; rfl
@[simp] theorem decHead_left (w : Work) : (decHead w).left = w.left := by cases w; rfl
@[simp] theorem decHead_nw (w : Work) : (decHead w).nw = w.nw := by cases w; rfl

/-! The end of a decryption round (R81). -/

@[simp] theorem decStepBack_v (w : Work) : (decStepBack w).v = w.v := by cases w; rfl
@[simp] theorem decStepBack_word (w : Work) (j : BitVec 4) : (decStepBack w).word j = w.word j :=
  word_of_v (decStepBack_v w) j
@[simp] theorem decStepBack_sum (w : Work) : (decStepBack w).sum = w.sum - Config.delta := by cases w; rfl
@[simp] theorem decStepBack_y (w : Work) : (decStepBack w).y = w.y := by cases w; rfl
@[simp] theorem decStepBack_z (w : Work) : (decStepBack w).z = w.z := by cases w; rfl
@[simp] theorem decStepBack_e (w : Work) : (decStepBack w).e = w.e := by cases w; rfl
@[simp] theorem decStepBack_p (w : Work) : (decStepBack w).p = w.p := by cases w; rfl
@[simp] theorem decStepBack_m (w : Work) : (decStepBack w).m = w.m := by cases w; rfl
@[simp] theorem decStepBack_rounds (w : Work) : (decStepBack w).rounds = w.rounds := by cases w; rfl
@[simp] theorem decStepBack_rnd (w : Work) : (decStepBack w).rnd = w.rnd + 1 := by cases w; rfl
@[simp] theorem decStepBack_dir (w : Work) : (decStepBack w).dir = w.dir := by cases w; rfl
@[simp] theorem decStepBack_off (w : Work) : (decStepBack w).off = w.off := by cases w; rfl
@[simp] theorem decStepBack_full (w : Work) : (decStepBack w).full = w.full := by cases w; rfl
@[simp] theorem decStepBack_left (w : Work) : (decStepBack w).left = w.left := by cases w; rfl
@[simp] theorem decStepBack_nw (w : Work) : (decStepBack w).nw = w.nw := by cases w; rfl

/-! Before the first round of decryption (R81). -/

@[simp] theorem decInit_v (m : MCount) (w : Work) : (decInit m w).v = w.v := by cases w; rfl
@[simp] theorem decInit_word (m : MCount) (w : Work) (j : BitVec 4) : (decInit m w).word j = w.word j :=
  word_of_v (decInit_v m w) j
@[simp] theorem decInit_sum (m : MCount) (w : Work) :
    (decInit m w).sum = BitVec.ofNat 32 (roundCount m) * Config.delta := by cases w; rfl
@[simp] theorem decInit_y (m : MCount) (w : Work) : (decInit m w).y = w.word 0 := by cases w; rfl
@[simp] theorem decInit_z (m : MCount) (w : Work) : (decInit m w).z = w.z := by cases w; rfl
@[simp] theorem decInit_e (m : MCount) (w : Work) : (decInit m w).e = w.e := by cases w; rfl
@[simp] theorem decInit_p (m : MCount) (w : Work) : (decInit m w).p = w.p := by cases w; rfl
@[simp] theorem decInit_m (m : MCount) (w : Work) : (decInit m w).m = BitVec.ofNat 5 m.val := by cases w; rfl
@[simp] theorem decInit_rounds (m : MCount) (w : Work) :
    (decInit m w).rounds = BitVec.ofNat 6 (roundCount m) := by cases w; rfl
@[simp] theorem decInit_rnd (m : MCount) (w : Work) : (decInit m w).rnd = 0 := by cases w; rfl
@[simp] theorem decInit_dir (m : MCount) (w : Work) : (decInit m w).dir = w.dir := by cases w; rfl
@[simp] theorem decInit_off (m : MCount) (w : Work) : (decInit m w).off = w.off := by cases w; rfl
@[simp] theorem decInit_full (m : MCount) (w : Work) : (decInit m w).full = w.full := by cases w; rfl
@[simp] theorem decInit_left (m : MCount) (w : Work) : (decInit m w).left = w.left := by cases w; rfl
@[simp] theorem decInit_nw (m : MCount) (w : Work) : (decInit m w).nw = w.nw := by cases w; rfl

end Sys2Proof.Laws
end

