-- ==== Sys2Proof/Laws/Ops.lean ====
section
/-! SUPPORT. What the shared operations can do: the partition of a dispatch region (R66), the parts of a region (R120),
settling what others disturbed, the end of a command, and the block operation (R82, R83). -/

namespace Sys2Proof.Laws

open Sys2Proof.Machine

/-! The partition and the parts. -/

/-- The three paths cover the region (R66, R73), and the tail is at most 7 bytes. -/
theorem partition_spec (count : Nat) :
    64 * (partition count).full + 4 * (partition count).nw + (partition count).tail = count ∧
      (partition count).tail ≤ 7 ∧ (partition count).nw ≤ 15 ∧ (partition count).nw ≠ 1 := by
  simp only [partition]
  split <;> omega

/-- The part of an offset holds that offset and lies in the region. -/
theorem dispatchPart_bounds {count r : Nat} (h : r < count) :
    (dispatchPart count r).1 ≤ r ∧ r < (dispatchPart count r).1 + (dispatchPart count r).2 ∧
      (dispatchPart count r).1 + (dispatchPart count r).2 ≤ count := by
  have hp := partition_spec count
  simp only [dispatchPart]
  split
  · dsimp only; omega
  · split <;> dsimp only <;> omega

/-- The part of an offset of the region holds it and lies in the region (R66, R73, R120). -/
theorem partOf_bounds {i : Instr} {s : State} {a : Nat} (h : inRegion i s a = true) :
    (partOf i s a).1 ≤ a ∧ a < (partOf i s a).1 + (partOf i s a).2 ∧ s.start.toNat ≤ (partOf i s a).1 ∧
      (partOf i s a).1 + (partOf i s a).2 ≤ s.start.toNat + footprint i s := by
  simp only [inRegion, Bool.and_eq_true, decide_eq_true_eq] at h
  cases i <;> simp only [partOf]
  case encrypt =>
    simp only [footprint] at h ⊢
    split at h
    · have hb := dispatchPart_bounds (count := s.count.toNat) (r := a - s.start.toNat) (by omega)
      simp only [*, if_true]
      omega
    · omega
  case decrypt =>
    simp only [footprint] at h ⊢
    split at h
    · have hb := dispatchPart_bounds (count := s.count.toNat) (r := a - s.start.toNat) (by omega)
      simp only [*, if_true]
      omega
    · omega
  all_goals omega

/-- A region that is not empty lies inside the buffer's length, so inside the offset space (R36). -/
theorem footprint_range {i : Instr} {s : State} (h : footprint i s ≠ 0) :
    s.keyv = true ∧ s.start.toNat + footprint i s ≤ s.buflen.toNat := by
  cases i <;> simp only [footprint] at h ⊢ <;> first | exact absurd rfl h | skip
  all_goals
    split at h
    · next hc =>
      simp only [hc, if_true]
      simp [State.inRange, State.guard] at hc
      exact ⟨by simp only [hc], by omega⟩
    · exact absurd rfl h

/-- The region depends on the key flag and the operands alone (R8). -/
theorem footprint_congr {i : Instr} {s t : State} (h1 : t.keyv = s.keyv) (h2 : t.start = s.start)
    (h3 : t.count = s.count) (h4 : t.buflen = s.buflen) : footprint i t = footprint i s := by
  cases s
  cases t
  simp only at h1 h2 h3 h4
  subst h1 h2 h3 h4
  cases i <;> rfl

theorem inRegion_congr {i : Instr} {s t : State} (h1 : t.keyv = s.keyv) (h2 : t.start = s.start)
    (h3 : t.count = s.count) (h4 : t.buflen = s.buflen) (a : Nat) : inRegion i t a = inRegion i s a := by
  simp only [inRegion, footprint_congr (i := i) h1 h2 h3 h4, h2]

theorem partOf_congr {i : Instr} {s t : State} (h1 : t.keyv = s.keyv) (h2 : t.start = s.start)
    (h3 : t.count = s.count) (h4 : t.buflen = s.buflen) (a : Nat) : partOf i t a = partOf i s a := by
  cases i <;> simp only [partOf, footprint_congr h1 h2 h3 h4, h2, h3]

/-! Settling what other agents disturbed (R120). -/

/-- Settling changes the buffer and draws free values, nothing else. -/
theorem settle_eq (i : Instr) (l : List Nat) (s : State) :
    settle i l s = { s with buf := (settle i l s).buf, draws := (settle i l s).draws } := by
  induction l generalizing s with
  | nil => rfl
  | cons a rest ih =>
    simp only [settle]
    rw [ih]
    split <;> rfl

@[simp] theorem settle_nil (i : Instr) (s : State) : settle i [] s = s := rfl
@[simp] theorem settle_key (i : Instr) (l : List Nat) (s : State) : (settle i l s).key = s.key := by rw [settle_eq]
@[simp] theorem settle_keyv (i : Instr) (l : List Nat) (s : State) : (settle i l s).keyv = s.keyv := by rw [settle_eq]
@[simp] theorem settle_keyin (i : Instr) (l : List Nat) (s : State) : (settle i l s).keyin = s.keyin := by rw [settle_eq]
@[simp] theorem settle_start (i : Instr) (l : List Nat) (s : State) : (settle i l s).start = s.start := by rw [settle_eq]
@[simp] theorem settle_count (i : Instr) (l : List Nat) (s : State) : (settle i l s).count = s.count := by rw [settle_eq]
@[simp] theorem settle_buflen (i : Instr) (l : List Nat) (s : State) : (settle i l s).buflen = s.buflen := by
  rw [settle_eq]
@[simp] theorem settle_busy (i : Instr) (l : List Nat) (s : State) : (settle i l s).busy = s.busy := by rw [settle_eq]
@[simp] theorem settle_fault (i : Instr) (l : List Nat) (s : State) : (settle i l s).fault = s.fault := by rw [settle_eq]
@[simp] theorem settle_fcode (i : Instr) (l : List Nat) (s : State) : (settle i l s).fcode = s.fcode := by rw [settle_eq]
@[simp] theorem settle_phase (i : Instr) (l : List Nat) (s : State) : (settle i l s).phase = s.phase := by rw [settle_eq]
@[simp] theorem settle_work (i : Instr) (l : List Nat) (s : State) : (settle i l s).work = s.work := by rw [settle_eq]
@[simp] theorem settle_inflight (i : Instr) (l : List Nat) (s : State) : (settle i l s).inflight = s.inflight := by
  rw [settle_eq]
@[simp] theorem settle_touched (i : Instr) (l : List Nat) (s : State) : (settle i l s).touched = s.touched := by
  rw [settle_eq]
@[simp] theorem settle_port (i : Instr) (l : List Nat) (s : State) : (settle i l s).port = s.port := by rw [settle_eq]
@[simp] theorem settle_todo (i : Instr) (l : List Nat) (s : State) : (settle i l s).todo = s.todo := by rw [settle_eq]
@[simp] theorem settle_hostWord (i : Instr) (l : List Nat) (s : State) : (settle i l s).hostWord = s.hostWord := by
  rw [settle_eq]
@[simp] theorem settle_hostByte (i : Instr) (l : List Nat) (s : State) : (settle i l s).hostByte = s.hostByte := by
  rw [settle_eq]
@[simp] theorem settle_faulted (i : Instr) (l : List Nat) (s : State) : (settle i l s).faulted = s.faulted := by
  rw [settle_eq]

/-- A byte that lies in no disturbed part of the region is not changed by settling. -/
theorem readByte_settle (i : Instr) (l : List Nat) (s : State) (c : Nat)
    (h : ∀ a ∈ l, inRegion i s a = true → c < (partOf i s a).1 ∨ (partOf i s a).1 + (partOf i s a).2 ≤ c) :
    readByte (settle i l s).buf c = readByte s.buf c := by
  induction l generalizing s with
  | nil => rfl
  | cons a rest ih =>
    simp only [settle]
    split
    · next ha =>
      rw [ih]
      · exact readByte_writeBytes_outside _ _ _ _ _ (h a List.mem_cons_self ha)
      · intro b hb
        rw [inRegion_congr rfl rfl rfl rfl, partOf_congr rfl rfl rfl rfl]
        exact h b (List.mem_cons_of_mem _ hb)
    · exact ih s fun b hb => h b (List.mem_cons_of_mem _ hb)

/-- Settling changes no byte outside the region (R38, R120). -/
theorem readByte_settle_outside (i : Instr) (l : List Nat) (s : State) (c : Nat)
    (h : c < s.start.toNat ∨ s.start.toNat + footprint i s ≤ c) : readByte (settle i l s).buf c = readByte s.buf c := by
  apply readByte_settle
  intro a _ ha
  have := partOf_bounds ha
  omega

theorem wf_settle (i : Instr) (l : List Nat) {s : State} (h : Memory.wf s.buf = true) :
    Memory.wf (settle i l s).buf = true := by
  induction l generalizing s with
  | nil => exact h
  | cons a rest ih =>
    simp only [settle]
    split
    · exact ih (wf_writeBytes h _ _ _)
    · exact ih h

theorem inSpace_settle (i : Instr) (l : List Nat) {s : State} (h : Memory.inSpace s.buf = true) :
    Memory.inSpace (settle i l s).buf = true := by
  induction l generalizing s with
  | nil => exact h
  | cons a rest ih =>
    simp only [settle]
    split
    · next ha =>
      apply ih
      apply inSpace_writeBytes h
      have hb := partOf_bounds ha
      have hr := footprint_range (i := i) (s := s) (by omega)
      have := s.buflen.isLt
      omega
    · exact ih h

/-- With no region there is nothing to settle: the control commands, a command that faults, the guard. -/
theorem settle_of_footprint_zero {i : Instr} {s : State} (l : List Nat) (h : footprint i s = 0) : settle i l s = s := by
  induction l generalizing s with
  | nil => rfl
  | cons a rest ih =>
    have ha : inRegion i s a = false := by
      simp only [inRegion, h, Bool.and_eq_false_iff, decide_eq_false_iff_not]
      omega
    simp only [settle, ha, Bool.false_eq_true, if_false]
    exact ih h

/-- Offsets outside the region leave nothing to settle. -/
theorem settle_outside {i : Instr} {s : State} (l : List Nat) (h : ∀ a ∈ l, inRegion i s a = false) :
    settle i l s = s := by
  induction l with
  | nil => rfl
  | cons a rest ih =>
    simp only [settle, h a List.mem_cons_self, Bool.false_eq_true, if_false]
    exact ih fun b hb => h b (List.mem_cons_of_mem _ hb)

/-! The end of a command (R128). -/

/-- A command whose region no other agent has written ends with nothing to settle. -/
theorem finish_owned {i : Instr} {s : State} (h : ∀ a ∈ s.touched, inRegion i s a = false) :
    finish i s = s.toIdle := by
  simp only [finish, settle_outside _ h]

theorem finish_of_footprint_zero {i : Instr} {s : State} (h : footprint i s = 0) : finish i s = s.toIdle := by
  simp only [finish, settle_of_footprint_zero _ h]

theorem finish_untouched {i : Instr} {s : State} (h : s.touched = []) : finish i s = s.toIdle := by
  simp only [finish, h, settle_nil]

/-! The block operation (R82, R83). -/

/-- The block operation changes no byte outside its `4*m` bytes. -/
theorem readByte_block_outside (d : Dir) (off : Nat) (m : MCount) (s : State) (c : Nat)
    (h : c < off ∨ off + 4 * m.val ≤ c) : readByte (block d off m s).buf c = readByte s.buf c :=
  readByte_storeV_outside _ _ _ _ _ h

/-- The words the block operation leaves are those of the mixed vector. -/
theorem readWord_block {s : State} (h : Memory.wf s.buf = true) (d : Dir) (off : Nat) (m : MCount) (i : Nat)
    (hi : i < m.val) :
    readWord (block d off m s).buf (off + 4 * i) =
      (roundFn d s.key m (loadV s.buf off s.work m.val)).word (BitVec.ofNat 4 i) :=
  readWord_storeV h _ _ _ _ hi

theorem wf_block {s : State} (h : Memory.wf s.buf = true) (d : Dir) (off : Nat) (m : MCount) :
    Memory.wf (block d off m s).buf = true := wf_storeV h _ _ _

theorem inSpace_block {s : State} (h : Memory.inSpace s.buf = true) (d : Dir) (off : Nat) (m : MCount)
    (ho : off + 4 * m.val ≤ 2 ^ 32) : Memory.inSpace (block d off m s).buf = true := inSpace_storeV h _ _ ho

/-! Every meaning answers a next state: a fault of a command is a recorded one (R105). -/

theorem exec_answers (i : Instr) (s : State) : ∃ t, exec i s = .next t := by
  cases i <;> exact ⟨_, rfl⟩

end Sys2Proof.Laws
end

