-- ==== Sys2Proof/Laws/Round.lean ====
section
/-! SUPPORT. The laws of the round function's steps (R78, R80, R81): what a load, a word update and a round do to each word
of the vector and to `SUM`, and when two sets of working registers cannot be told apart. -/

namespace Sys2Proof.Laws

open Sys2Proof.Machine

/-! Words of the vector. -/

theorem word_setWord (w : Work) (i j : BitVec 4) (x : Word) :
    (w.setWord i x).word j = if j = i then x else w.word j := by
  simp only [Work.word, Work.setWord, Vector.getElem_set]
  by_cases h : j = i
  · subst h; simp
  · have : ¬ i.toNat = j.toNat := fun e => h (BitVec.eq_of_toNat_eq e.symm)
    simp [h, this]

theorem ofNat4_inj {i j : Nat} (hi : i < 16) (hj : j < 16) : BitVec.ofNat 4 i = BitVec.ofNat 4 j ↔ i = j := by
  constructor
  · intro h
    have := congrArg BitVec.toNat h
    simp only [BitVec.toNat_ofNat] at this
    omega
  · intro h; rw [h]

/-- `LoadV` (R78): word `i` is the one at the `i`-th lowest offset; the words beyond `n` are left alone. -/
theorem word_loadV (buf : List Host.Cell) (off : Nat) (w : Work) {n i : Nat} (hn : n ≤ 16) (hi : i < 16) :
    (loadV buf off w n).word (BitVec.ofNat 4 i) =
      if i < n then readWord buf (off + 4 * i) else w.word (BitVec.ofNat 4 i) := by
  induction n with
  | zero => simp [loadV]
  | succ n ih =>
    rw [loadV, word_setWord]
    by_cases h : i = n
    · subst h; simp
    · rw [if_neg (fun e => h ((ofNat4_inj hi (by omega)).1 e)), ih (by omega)]
      by_cases h' : i < n
      · rw [if_pos h', if_pos (by omega)]
      · rw [if_neg h', if_neg (by omega)]

/-- A word update of encryption: the word at `p` becomes its sum with `MX`, every other word stays (R80). -/
theorem word_encWord (key : Key) (p next j : BitVec 4) (w : Work) :
    (encWord key p next w).word j =
      if j = p then w.word p + mx (w.word next) w.z w.sum (keySel key p w.e) else w.word j :=
  word_setWord w p j _

/-- A word update of decryption: the word at `p` becomes its difference with `MX`, every other word stays (R81). -/
theorem word_decWord (key : Key) (p prev j : BitVec 4) (w : Work) :
    (decWord key p prev w).word j =
      if j = p then w.word p - mx w.y (w.word prev) w.sum (keySel key p w.e) else w.word j :=
  word_setWord w p j _

@[simp] theorem z_encWord (key : Key) (p next : BitVec 4) (w : Work) :
    (encWord key p next w).z = (encWord key p next w).word p := by
  rw [word_encWord, if_pos rfl]; rfl

@[simp] theorem y_decWord (key : Key) (p prev : BitVec 4) (w : Work) :
    (decWord key p prev w).y = (decWord key p prev w).word p := by
  rw [word_decWord, if_pos rfl]; rfl

@[simp] theorem encWordsUpTo_sum (key : Key) (w : Work) (n : Nat) : (encWordsUpTo key w n).sum = w.sum := by
  induction n with
  | zero => rfl
  | succ n ih => rw [encWordsUpTo, encWord_sum, ih]

@[simp] theorem encWordsUpTo_e (key : Key) (w : Work) (n : Nat) : (encWordsUpTo key w n).e = w.e := by
  induction n with
  | zero => rfl
  | succ n ih => rw [encWordsUpTo, encWord_e, ih]

@[simp] theorem encWordsUpTo_rnd (key : Key) (w : Work) (n : Nat) : (encWordsUpTo key w n).rnd = w.rnd := by
  induction n with
  | zero => rfl
  | succ n ih => rw [encWordsUpTo, encWord_rnd, ih]

@[simp] theorem decWordsFrom_sum (key : Key) (w : Work) (n : Nat) : (decWordsFrom key w n).sum = w.sum := by
  induction n generalizing w with
  | zero => rfl
  | succ n ih => rw [decWordsFrom, ih, decWord_sum]

@[simp] theorem decWordsFrom_e (key : Key) (w : Work) (n : Nat) : (decWordsFrom key w n).e = w.e := by
  induction n generalizing w with
  | zero => rfl
  | succ n ih => rw [decWordsFrom, ih, decWord_e]

@[simp] theorem decWordsFrom_rnd (key : Key) (w : Work) (n : Nat) : (decWordsFrom key w n).rnd = w.rnd := by
  induction n generalizing w with
  | zero => rfl
  | succ n ih => rw [decWordsFrom, ih, decWord_rnd]

/-- A round of encryption advances `SUM` by `DELTA` (R80). -/
theorem encRound_sum (key : Key) (m : MCount) (w : Work) : (encRound key m w).sum = w.sum + Config.delta := by
  simp [encRound]

/-- A round of decryption steps `SUM` back by `DELTA` (R81). -/
theorem decRound_sum (key : Key) (m : MCount) (w : Work) : (decRound key m w).sum = w.sum - Config.delta := by
  simp [decRound]

/-- Two sets of working registers agree on the vector's first `n` words. -/
def SameWords (n : Nat) (w w' : Work) : Prop :=
  ∀ i, i < n → w.word (BitVec.ofNat 4 i) = w'.word (BitVec.ofNat 4 i)

/-- A word update of encryption within the vector carries agreement over. -/
theorem encWord_same {key : Key} {n p q : Nat} {w w' : Work} (hw : SameWords n w w') (hz : w.z = w'.z)
    (hs : w.sum = w'.sum) (he : w.e = w'.e) (hp : p < n) (hq : q < n) :
    SameWords n (encWord key (BitVec.ofNat 4 p) (BitVec.ofNat 4 q) w)
      (encWord key (BitVec.ofNat 4 p) (BitVec.ofNat 4 q) w') := by
  intro i hi
  rw [word_encWord, word_encWord, hw p hp, hw q hq, hw i hi, hz, hs, he]

/-- A word update of decryption within the vector carries agreement over. -/
theorem decWord_same {key : Key} {n p q : Nat} {w w' : Work} (hw : SameWords n w w') (hy : w.y = w'.y)
    (hs : w.sum = w'.sum) (he : w.e = w'.e) (hp : p < n) (hq : q < n) :
    SameWords n (decWord key (BitVec.ofNat 4 p) (BitVec.ofNat 4 q) w)
      (decWord key (BitVec.ofNat 4 p) (BitVec.ofNat 4 q) w') := by
  intro i hi
  rw [word_decWord, word_decWord, hw p hp, hw q hq, hw i hi, hy, hs, he]

end Sys2Proof.Laws
end

