-- ==== Sys2Proof/Laws/Dispatch.lean ====
section
/-! SUPPORT. What the parts of a dispatch command do (R67): which fields they write, what they do to the sequencing
registers, and that they write no byte outside the region (R38). -/

namespace Sys2Proof.Laws

open Sys2Proof.Machine

/-! The round function leaves the dispatcher's registers alone (R16). -/

/-- The dispatcher's working registers: `DIR`, `OFF`, `FULL`, `LEFT`, `NW`. -/
def sched (w : Work) : Dir × BitVec 32 × BitVec 26 × BitVec 6 × BitVec 4 := (w.dir, w.off, w.full, w.left, w.nw)

theorem sched_ext {w w' : Work} (h : sched w = sched w') :
    w.dir = w'.dir ∧ w.off = w'.off ∧ w.full = w'.full ∧ w.left = w'.left ∧ w.nw = w'.nw := by
  simpa [sched] using h

@[simp] theorem sched_encWord (key : Key) (p q : BitVec 4) (w : Work) : sched (encWord key p q w) = sched w := rfl

@[simp] theorem sched_decWord (key : Key) (p q : BitVec 4) (w : Work) : sched (decWord key p q w) = sched w := rfl

@[simp] theorem sched_loadV (buf : List Host.Cell) (off : Nat) (w : Work) (n : Nat) :
    sched (loadV buf off w n) = sched w := by
  induction n with
  | zero => rfl
  | succ n ih => exact ih

@[simp] theorem sched_encWordsUpTo (key : Key) (w : Work) (n : Nat) : sched (encWordsUpTo key w n) = sched w := by
  induction n with
  | zero => rfl
  | succ n ih => rw [encWordsUpTo, sched_encWord, ih]

@[simp] theorem sched_decWordsFrom (key : Key) (w : Work) (n : Nat) : sched (decWordsFrom key w n) = sched w := by
  induction n generalizing w with
  | zero => rfl
  | succ n ih => rw [decWordsFrom, ih, sched_decWord]

@[simp] theorem sched_encRound (key : Key) (m : MCount) (w : Work) : sched (encRound key m w) = sched w := by
  rw [encRound, sched_encWord, sched_encWordsUpTo]
  simp [sched]

@[simp] theorem sched_decRound (key : Key) (m : MCount) (w : Work) : sched (decRound key m w) = sched w := by
  have h : ∀ w, sched (decStepBack w) = sched w := fun w => by simp [sched]
  rw [decRound, h, sched_decWord, sched_decWordsFrom]
  simp [sched]

@[simp] theorem sched_encRounds (key : Key) (m : MCount) (w : Work) (r : Nat) :
    sched (encRounds key m w r) = sched w := by
  induction r with
  | zero => rfl
  | succ r ih => rw [encRounds, sched_encRound, ih]

@[simp] theorem sched_decLoop (key : Key) (m : MCount) (fuel : Nat) (w : Work) :
    sched (decLoop key m fuel w) = sched w := by
  induction fuel generalizing w with
  | zero => rfl
  | succ fuel ih =>
    simp only [decLoop]
    split
    · exact sched_decRound key m w
    · rw [ih, sched_decRound]

@[simp] theorem sched_roundFn (d : Dir) (key : Key) (m : MCount) (w : Work) : sched (roundFn d key m w) = sched w := by
  cases d
  · simp only [roundFn, roundEnc, sched_encRounds]
    simp [sched]
  · simp only [roundFn, roundDec, sched_decLoop]
    simp [sched]

theorem sched_block (d : Dir) (off : Nat) (m : MCount) (s : State) : sched (block d off m s).work = sched s.work := by
  simp only [block, sched_roundFn, sched_loadV]

/-- What the block operation writes: the working registers and the buffer. -/
theorem block_eq (d : Dir) (off : Nat) (m : MCount) (s : State) :
    block d off m s = { s with work := (block d off m s).work, buf := (block d off m s).buf } := by
  simp only [block]

/-! The super-blocks. -/

@[simp] theorem superBlock_off (s : State) : (superBlock s).work.off = s.work.off + 64 := by
  simp only [superBlock, (sched_ext (sched_block ..)).2.1]

@[simp] theorem superBlock_full (s : State) : (superBlock s).work.full = s.work.full - 1 := by
  simp only [superBlock, (sched_ext (sched_block ..)).2.2.1]

@[simp] theorem superBlock_dir (s : State) : (superBlock s).work.dir = s.work.dir := by
  simp only [superBlock, (sched_ext (sched_block ..)).1]

@[simp] theorem superBlock_left (s : State) : (superBlock s).work.left = s.work.left := by
  simp only [superBlock, (sched_ext (sched_block ..)).2.2.2.1]

theorem superBlock_eq (s : State) :
    superBlock s = { s with work := (superBlock s).work, buf := (superBlock s).buf } := by
  simp only [superBlock, block]

/-- What the super-blocks write: the working registers and the buffer. -/
theorem superPhase_eq (n : Nat) (s : State) :
    superPhase n s = { s with work := (superPhase n s).work, buf := (superPhase n s).buf } := by
  induction n generalizing s with
  | zero => rfl
  | succ n ih =>
    have h := ih (superBlock s)
    rw [superBlock_eq s] at h
    rw [superPhase]
    rw [superBlock_eq s]
    exact h

@[simp] theorem superPhase_off (n : Nat) (s : State) :
    (superPhase n s).work.off = s.work.off + BitVec.ofNat 32 (64 * n) := by
  induction n generalizing s with
  | zero => simp [superPhase]
  | succ n ih =>
    rw [superPhase, ih, superBlock_off, Nat.mul_succ, BitVec.ofNat_add, BitVec.add_assoc, BitVec.add_comm (64 : Word)]
    rfl

@[simp] theorem superPhase_dir (n : Nat) (s : State) : (superPhase n s).work.dir = s.work.dir := by
  induction n generalizing s with
  | zero => rfl
  | succ n ih => rw [superPhase, ih, superBlock_dir]

@[simp] theorem superPhase_left (n : Nat) (s : State) : (superPhase n s).work.left = s.work.left := by
  induction n generalizing s with
  | zero => rfl
  | succ n ih => rw [superPhase, ih, superBlock_left]

/-- The super-blocks in the other order of unfolding: the last one last. -/
theorem superPhase_succ (n : Nat) (s : State) : superPhase (n + 1) s = superBlock (superPhase n s) := by
  induction n generalizing s with
  | zero => rfl
  | succ n ih =>
    rw [superPhase, ih]
    rfl

/-- Where the `n`-th super-block lies, for a region that does not wrap. -/
theorem superPhase_off_toNat {n : Nat} {s : State} (h : s.work.off.toNat + 64 * n < 2 ^ 32) :
    (superPhase n s).work.off.toNat = s.work.off.toNat + 64 * n := by
  rw [superPhase_off]
  simp only [BitVec.toNat_add, BitVec.toNat_ofNat]
  omega

/-- The super-blocks write no byte outside their `64 * n` bytes. -/
theorem readByte_superPhase_outside {n : Nat} {s : State} (h : s.work.off.toNat + 64 * n ≤ 2 ^ 32) {c : Nat}
    (hc : c < s.work.off.toNat ∨ s.work.off.toNat + 64 * n ≤ c) :
    readByte (superPhase n s).buf c = readByte s.buf c := by
  induction n with
  | zero => rfl
  | succ n ih =>
    have ho := superPhase_off_toNat (n := n) (s := s) (by omega)
    rw [superPhase_succ, superBlock_buf, readByte_block_outside _ _ _ _ _ (by
      rw [ho, show MCount.sixteen.val = 16 from rfl]; omega)]
    exact ih (by omega) (by omega)

theorem wf_superPhase (n : Nat) {s : State} (h : Memory.wf s.buf = true) : Memory.wf (superPhase n s).buf = true := by
  induction n with
  | zero => exact h
  | succ n ih =>
    rw [superPhase_succ, superBlock_buf]
    exact wf_block ih _ _ _

theorem inSpace_superPhase {n : Nat} {s : State} (h : Memory.inSpace s.buf = true)
    (ho : s.work.off.toNat + 64 * n ≤ 2 ^ 32) : Memory.inSpace (superPhase n s).buf = true := by
  induction n with
  | zero => exact h
  | succ n ih =>
    rw [superPhase_succ, superBlock_buf]
    refine inSpace_block (ih (by omega)) _ _ _ ?_
    rw [superPhase_off_toNat (by omega), show MCount.sixteen.val = 16 from rfl]
    omega

/-! The tail. -/

/-- What the tail phase writes: the port, the buffer and the free-value counter. -/
theorem tailPhase_eq (D : Config.Delegate) (s : State) :
    tailPhase D s = { s with
      port := (tailPhase D s).port, buf := (tailPhase D s).buf, draws := s.draws + 7 } := by
  simp only [tailPhase, tailBack, respond, tailSend]

/-- The header's length field is the length it was made from (R53). -/
@[simp] theorem tlenField_tailHeader (d : Dir) (len : BitVec 3) : tlenField (tailHeader d len) = len := by
  revert len
  cases d <;> decide

/-- What the tail phase leaves in the buffer. -/
theorem tailPhase_buf (D : Config.Delegate) (s : State) :
    (tailPhase D s).buf =
      writeBytes s.buf s.work.off.toNat (fun i => (tailPhase D s).port.rdata[i]?.getD 0)
        (s.work.left.setWidth 3).toNat := by
  simp only [tailPhase, tailBack, respond, tailSend, tlenField_tailHeader]

theorem readByte_tailPhase_outside (D : Config.Delegate) {s : State} {c : Nat}
    (h : c < s.work.off.toNat ∨ s.work.off.toNat + s.work.left.toNat ≤ c) :
    readByte (tailPhase D s).buf c = readByte s.buf c := by
  rw [tailPhase_buf, readByte_writeBytes_outside]
  have : (s.work.left.setWidth 3).toNat ≤ s.work.left.toNat := by
    rw [BitVec.toNat_setWidth]; exact Nat.mod_le _ _
  omega

theorem wf_tailPhase (D : Config.Delegate) {s : State} (h : Memory.wf s.buf = true) : Memory.wf (tailPhase D s).buf = true := by
  rw [tailPhase_buf]
  exact wf_writeBytes h _ _ _

theorem inSpace_tailPhase (D : Config.Delegate) {s : State} (h : Memory.inSpace s.buf = true)
    (ho : s.work.off.toNat + s.work.left.toNat ≤ 2 ^ 32) : Memory.inSpace (tailPhase D s).buf = true := by
  rw [tailPhase_buf]
  refine inSpace_writeBytes h _ _ ?_
  have : (s.work.left.setWidth 3).toNat ≤ s.work.left.toNat := by
    rw [BitVec.toNat_setWidth]; exact Nat.mod_le _ _
  omega

/-! The words run, and everything after the super-blocks. -/

@[simp] theorem wordsBlock_off (m : MCount) (s : State) : (wordsBlock m s).work.off = s.work.off := by
  simp only [wordsBlock, (sched_ext (sched_block ..)).2.1]

@[simp] theorem wordsBlock_dir (m : MCount) (s : State) : (wordsBlock m s).work.dir = s.work.dir := by
  simp only [wordsBlock, (sched_ext (sched_block ..)).1]

@[simp] theorem wordsBlock_nw (m : MCount) (s : State) : (wordsBlock m s).work.nw = s.work.nw := by
  simp only [wordsBlock, (sched_ext (sched_block ..)).2.2.2.2]

@[simp] theorem wordsBlock_left (m : MCount) (s : State) :
    (wordsBlock m s).work.left = s.work.left - BitVec.ofNat 6 (4 * s.work.nw.toNat) := by
  simp only [wordsBlock, (sched_ext (sched_block ..)).2.2.2.1, (sched_ext (sched_block ..)).2.2.2.2]

theorem wordsBlock_eq (m : MCount) (s : State) :
    wordsBlock m s = { s with work := (wordsBlock m s).work, buf := (wordsBlock m s).buf } := by
  simp only [wordsBlock, block]

/-- `NW` as a number: `LEFT div 4` fits its 4 bits (R16). -/
theorem enterWords_nw_toNat (s : State) : (enterWords s).work.nw.toNat = s.work.left.toNat / 4 := by
  simp only [enterWords, BitVec.toNat_ofNat]
  have := s.work.left.isLt
  omega

/-- `LEFT` after the words run: the bytes beyond its words (R66). -/
theorem wordsBlock_left_toNat {s : State} (h : s.work.nw.toNat = s.work.left.toNat / 4) (m : MCount) :
    (wordsBlock m s).work.left.toNat = s.work.left.toNat % 4 := by
  rw [wordsBlock_left, BitVec.toNat_sub, BitVec.toNat_ofNat, h]
  have := s.work.left.isLt
  omega

/-- Where the tail lies after a words run that does not wrap. -/
theorem advanceWords_off_toNat {s : State} (h : s.work.off.toNat + 4 * s.work.nw.toNat < 2 ^ 32) :
    (advanceWords s).work.off.toNat = s.work.off.toNat + 4 * s.work.nw.toNat := by
  simp only [advanceWords, BitVec.toNat_add, BitVec.toNat_ofNat]
  omega

/-- What the parts after the super-blocks write: the phase, the working registers, the port, the buffer and the
free-value counter. -/
theorem restPhase_eq (D : Config.Delegate) (s : State) :
    restPhase D s = { s with
      phase := (restPhase D s).phase, work := (restPhase D s).work, port := (restPhase D s).port,
      buf := (restPhase D s).buf, draws := (restPhase D s).draws } := by
  simp only [restPhase]
  split
  · split
    · rw [wordsBlock_eq]; rfl
    · rw [tailPhase_eq, wordsBlock_eq]; rfl
  · rw [tailPhase_eq]; rfl

/-- The parts after the super-blocks write no byte outside their `LEFT` bytes. -/
theorem readByte_restPhase_outside (D : Config.Delegate) {s : State} (ho : s.work.off.toNat + s.work.left.toNat < 2 ^ 32) {c : Nat}
    (hc : c < s.work.off.toNat ∨ s.work.off.toNat + s.work.left.toNat ≤ c) :
    readByte (restPhase D s).buf c = readByte s.buf c := by
  have hn := enterWords_nw_toNat s
  have he : (enterWords s).work.off = s.work.off := rfl
  have hl : (enterWords s).work.left = s.work.left := rfl
  simp only [restPhase]
  split
  · next h =>
    have hw := wordsBlock_left_toNat (s := enterWords s) (by rw [hn, hl]) (nwCount (enterWords s) h)
    have hb : readByte (wordsBlock (nwCount (enterWords s) h) (enterWords s)).buf c = readByte s.buf c := by
      rw [wordsBlock_buf, readByte_block_outside _ _ _ _ _ (by
        rw [he, show (nwCount (enterWords s) h).val = (enterWords s).work.nw.toNat from rfl, hn]; omega)]
      rfl
    split
    · exact hb
    · have ha := advanceWords_off_toNat (s := wordsBlock (nwCount (enterWords s) h) (enterWords s)) (by
        rw [wordsBlock_off, wordsBlock_nw, he, hn]; omega)
      rw [wordsBlock_off, wordsBlock_nw, he, hn] at ha
      rw [readByte_tailPhase_outside D (by
        rw [ha, show (advanceWords (wordsBlock (nwCount (enterWords s) h) (enterWords s))).work.left =
          (wordsBlock (nwCount (enterWords s) h) (enterWords s)).work.left from rfl, hw, hl]
        omega)]
      exact hb
  · exact readByte_tailPhase_outside D hc

/-- All the parts write no byte outside the region (R38). -/
theorem readByte_dispatchParts_outside (D : Config.Delegate) {s : State}
    (ho : s.work.off.toNat + 64 * s.work.full.toNat + s.work.left.toNat < 2 ^ 32) {c : Nat}
    (hc : c < s.work.off.toNat ∨ s.work.off.toNat + 64 * s.work.full.toNat + s.work.left.toNat ≤ c) :
    readByte (dispatchParts D s).buf c = readByte s.buf c := by
  have hs : readByte (superPhase s.work.full.toNat s).buf c = readByte s.buf c :=
    readByte_superPhase_outside (by omega) (by omega)
  have hoff := superPhase_off_toNat (n := s.work.full.toNat) (s := s) (by omega)
  have hleft := superPhase_left s.work.full.toNat s
  simp only [dispatchParts]
  split
  · exact hs
  · rw [readByte_restPhase_outside D (by rw [hoff, hleft]; omega) (by rw [hoff, hleft]; omega)]
    exact hs

/-- What the parts of a dispatch command write. -/
theorem dispatchParts_eq (D : Config.Delegate) (s : State) :
    dispatchParts D s = { s with
      phase := (dispatchParts D s).phase, work := (dispatchParts D s).work, port := (dispatchParts D s).port,
      buf := (dispatchParts D s).buf, draws := (dispatchParts D s).draws } := by
  simp only [dispatchParts]
  split
  · rw [superPhase_eq]
  · rw [restPhase_eq, superPhase_eq]

theorem wf_dispatchParts (D : Config.Delegate) {s : State} (h : Memory.wf s.buf = true) : Memory.wf (dispatchParts D s).buf = true := by
  have hs := wf_superPhase s.work.full.toNat h
  simp only [dispatchParts]
  split
  · exact hs
  · simp only [restPhase]
    split
    · have hw := wf_block (s := enterWords (superPhase s.work.full.toNat s)) hs
      split
      · exact hw _ _ _
      · exact wf_tailPhase D (hw _ _ _)
    · exact wf_tailPhase D hs

theorem inSpace_dispatchParts (D : Config.Delegate) {s : State} (h : Memory.inSpace s.buf = true)
    (ho : s.work.off.toNat + 64 * s.work.full.toNat + s.work.left.toNat < 2 ^ 32) :
    Memory.inSpace (dispatchParts D s).buf = true := by
  have hs := inSpace_superPhase (n := s.work.full.toNat) h (by omega)
  have hoff := superPhase_off_toNat (n := s.work.full.toNat) (s := s) (by omega)
  have hleft := superPhase_left s.work.full.toNat s
  simp only [dispatchParts]
  split
  · exact hs
  · generalize superPhase s.work.full.toNat s = t at hs hoff hleft ⊢
    have hn := enterWords_nw_toNat t
    have he : (enterWords t).work.off = t.work.off := rfl
    have hl : (enterWords t).work.left = t.work.left := rfl
    simp only [restPhase]
    split
    · next hw =>
      have hv : (nwCount (enterWords t) hw).val = t.work.left.toNat / 4 := hn
      have hb := inSpace_block (s := enterWords t) hs (enterWords t).work.dir (enterWords t).work.off.toNat
        (nwCount (enterWords t) hw) (by rw [he, hv, hoff, hleft]; omega)
      have hlw := wordsBlock_left_toNat (s := enterWords t) (by rw [hn, hl]) (nwCount (enterWords t) hw)
      split
      · exact hb
      · have ha := advanceWords_off_toNat (s := wordsBlock (nwCount (enterWords t) hw) (enterWords t)) (by
          rw [wordsBlock_off, wordsBlock_nw, he, hn, hoff, hleft]; omega)
        refine inSpace_tailPhase D hb ?_
        rw [ha, show (advanceWords (wordsBlock (nwCount (enterWords t) hw) (enterWords t))).work.left =
          (wordsBlock (nwCount (enterWords t) hw) (enterWords t)).work.left from rfl, hlw, wordsBlock_off,
          wordsBlock_nw, he, hn, hoff, hl, hleft]
        omega
    · refine inSpace_tailPhase D hs ?_
      rw [show (skipWords (enterWords t)).work = (enterWords t).work from rfl, he, hl, hoff, hleft]
      omega

/-! The setting of the dispatcher's registers (R66, R67). -/

theorem dispatchBegin_full_toNat (d : Dir) (s : State) :
    (dispatchBegin d s).work.full.toNat = s.count.toNat / 64 := by
  simp only [dispatchBegin, BitVec.toNat_ofNat]
  have := s.count.isLt
  omega

theorem dispatchBegin_left_toNat (d : Dir) (s : State) :
    (dispatchBegin d s).work.left.toNat = s.count.toNat % 64 := by
  simp only [dispatchBegin, BitVec.toNat_ofNat]
  omega

/-- The super-blocks and the rest are the whole region. -/
theorem dispatchBegin_region (d : Dir) (s : State) :
    (dispatchBegin d s).work.off.toNat + 64 * (dispatchBegin d s).work.full.toNat +
      (dispatchBegin d s).work.left.toNat = s.start.toNat + s.count.toNat := by
  rw [dispatchBegin_full_toNat, dispatchBegin_left_toNat, show (dispatchBegin d s).work.off = s.start from rfl]
  omega

end Sys2Proof.Laws
end

