-- ==== Sys2Proof/Laws/Commands.lean ====
section
/-! SUPPORT. What each cipher command can do, said once: a recorded fault, the guard's empty end, or its parts and then the
end of the command. Later proofs cite `exec_cipher` and unfold no command. -/

namespace Sys2Proof.Laws

open Sys2Proof.Machine

/-- What a cipher command `i` makes of the state `s`: a recorded fault (R105), the guard's empty end (R89), or its parts,
which write the phase, the working registers, the port, the buffer within its region and the free-value counter, and then
the end of the command (R26, R38). -/
inductive CipherResult (i : Instr) (s : State) : State → Prop
  | fault (c : FCode) (h : footprint i s = 0) : CipherResult i s (raiseFault c s)
  | guard (h : footprint i s = 0) : CipherResult i s (finish i s)
  | done (u : State)
      (frame : u = { s with phase := u.phase, work := u.work, port := u.port, buf := u.buf, draws := u.draws })
      (canonical : Memory.wf s.buf = true → Memory.wf u.buf = true)
      (inSpace : Memory.inSpace s.buf = true → Memory.inSpace u.buf = true)
      (outside : ∀ c, c < s.start.toNat ∨ s.start.toNat + footprint i s ≤ c → readByte u.buf c = readByte s.buf c) :
      CipherResult i s (finishCipher i u)

theorem dispatchCommand_result (D : Config.Delegate) {i : Instr} (d : Dir) (s : State) (hi : i = .encrypt ∨ i = .decrypt) :
    CipherResult i s (dispatchCommand D i d s) := by
  have hfp : footprint i s = if s.keyv && s.inRange s.count.toNat then s.count.toNat else 0 := by
    rcases hi with rfl | rfl <;> rfl
  simp only [dispatchCommand]
  split
  · next c hc =>
    apply CipherResult.fault
    simp only [dispatchCheck] at hc
    rw [hfp]
    split at hc
    · simp_all
    · split at hc <;> simp_all
  · next hc =>
    have hk : s.keyv = true ∧ s.inRange s.count.toNat = true := by
      simp only [dispatchCheck] at hc
      split at hc <;> simp_all
    have hr : s.start.toNat + s.count.toNat ≤ s.buflen.toNat := by simpa [State.inRange] using hk.2
    have hb := s.buflen.isLt
    have hreg := dispatchBegin_region d s
    simp only [hk.1, hk.2, Bool.and_self, if_true] at hfp
    rw [dispatchRun]
    refine CipherResult.done _ (by rw [dispatchParts_eq]; rfl) (fun h => wf_dispatchParts D h)
      (fun h => inSpace_dispatchParts D h (by omega)) ?_
    intro c hc
    have ho : (dispatchBegin d s).work.off = s.start := rfl
    rw [readByte_dispatchParts_outside D (by omega) (by
      rw [ho, dispatchBegin_full_toNat, dispatchBegin_left_toNat]; omega)]
    rfl

theorem wordsCommand_result {i : Instr} (d : Dir) (s : State) (hi : i = .encWords ∨ i = .decWords) :
    CipherResult i s (wordsCommand i d s) := by
  have hfp : footprint i s =
      if s.keyv && decide s.legalN && s.inRange (4 * s.count.toNat) then 4 * s.count.toNat else 0 := by
    rcases hi with rfl | rfl <;> rfl
  simp only [wordsCommand]
  split
  · exact CipherResult.fault _ (by rw [hfp]; simp_all)
  · next hk =>
    split
    · next hl =>
      split
      · exact CipherResult.fault _ (by rw [hfp]; simp_all)
      · next hr =>
        have hk : s.keyv = true := by simpa using hk
        have hr : s.inRange (4 * s.count.toNat) = true := by simpa using hr
        have hr' : s.start.toNat + 4 * s.count.toNat ≤ s.buflen.toNat := by simpa [State.inRange] using hr
        have hb := s.buflen.isLt
        have hfp : footprint i s = 4 * s.count.toNat := by rw [hfp, hk, hr]; simp [hl]
        exact CipherResult.done _ (by rw [block_eq]) (fun h => wf_block h _ _ _)
          (fun h => inSpace_block h _ _ _ (by simp only; omega))
          (fun c hc => readByte_block_outside _ _ _ _ _ (by simp only; omega))
    · exact CipherResult.fault _ (by rw [hfp]; simp_all)

theorem fixedCommand_result {i : Instr} (d : Dir) (s : State) (hi : i = .encFixed ∨ i = .decFixed) :
    CipherResult i s (fixedCommand i d s) := by
  have hfp : footprint i s = if s.keyv && !s.guard then 64 else 0 := by
    rcases hi with rfl | rfl <;> rfl
  simp only [fixedCommand]
  split
  · exact CipherResult.fault _ (by rw [hfp]; simp_all)
  · next hk =>
    split
    · exact CipherResult.guard (by rw [hfp]; simp_all)
    · next hg =>
      have hk : s.keyv = true := by simpa using hk
      have hg : s.guard = false := by simpa using hg
      have hr : s.start.toNat + 64 ≤ s.buflen.toNat := by simpa [State.guard] using hg
      have hb := s.buflen.isLt
      have hm : MCount.sixteen.val = 16 := rfl
      have hfp : footprint i s = 64 := by rw [hfp, hk, hg]; rfl
      exact CipherResult.done _ (by rw [block_eq]) (fun h => wf_block h _ _ _)
        (fun h => inSpace_block h _ _ _ (by omega)) (fun c hc => readByte_block_outside _ _ _ _ _ (by omega))

/-- What each of the six cipher commands can do. -/
theorem exec_cipher {i : Instr} {s t : State}
    (hi : i ∈ [Instr.encrypt, .decrypt, .encFixed, .decFixed, .encWords, .decWords]) (h : exec i s = .next t) :
    CipherResult i s t := by
  simp only [List.mem_cons, List.not_mem_nil, or_false] at hi
  rcases hi with rfl | rfl | rfl | rfl | rfl | rfl <;> injection h with h <;> subst h
  · exact dispatchCommand_result _ _ _ (.inl rfl)
  · exact dispatchCommand_result _ _ _ (.inr rfl)
  · exact fixedCommand_result _ _ (.inl rfl)
  · exact fixedCommand_result _ _ (.inr rfl)
  · exact wordsCommand_result _ _ (.inl rfl)
  · exact wordsCommand_result _ _ (.inr rfl)

end Sys2Proof.Laws
end

