-- ==== Sys2Proof/Laws/PerInstr.lean ====
section
/-! SUPPORT. The family `Channel`: on which channel each instruction travels and what its encoding's fields hold (R46, R47,
R53, R99). One lemma per instruction. -/

namespace Sys2Proof.Laws.Channel

/-- A command travels as a command word whose reserved bits are 0 and whose `OP` is at most 8; a tail operation travels as
a request header, and it is well formed exactly when the header's length is not 0. -/
def Statement (i : Instr) : Prop :=
  match encode i with
  | .cmd w => i.isCommand = true ∧ i.wellFormed = true ∧ rsvField w = 0 ∧ (opField w).toNat ≤ 8
  | .thdr h => i.isCommand = false ∧ (i.wellFormed = true ↔ tlenField h ≠ 0)

theorem nop : Statement .nop := by simp only [Statement, encode]; decide

theorem loadkey : Statement .loadkey := by simp only [Statement, encode]; decide

theorem encrypt : Statement .encrypt := by simp only [Statement, encode]; decide

theorem decrypt : Statement .decrypt := by simp only [Statement, encode]; decide

theorem encFixed : Statement .encFixed := by simp only [Statement, encode]; decide

theorem decFixed : Statement .decFixed := by simp only [Statement, encode]; decide

theorem encWords : Statement .encWords := by simp only [Statement, encode]; decide

theorem decWords : Statement .decWords := by simp only [Statement, encode]; decide

theorem clrf : Statement .clrf := by simp only [Statement, encode]; decide

theorem tailEnc (len : BitVec 3) : Statement (.tailEnc len) := by
  revert len
  simp only [Statement, encode]
  decide

theorem tailDec (len : BitVec 3) : Statement (.tailDec len) := by
  revert len
  simp only [Statement, encode]
  decide

end Sys2Proof.Laws.Channel
end

