-- ==== Sys2Proof/Tests/Slice0.lean ====
section
/-! SUPPORT. The model's own tests: expected values from spec/95_test_vectors.md (the vector's id stands in each comment) or
from the rule named, one step each on a small state; and for each statement with hypotheses a witness that meets them. -/

namespace Sys2Proof.Tests

open Sys2Proof Sys2Proof.Machine

/-! Helpers. -/

/-- The next state of an outcome; the reset state of a stop, which no test below expects. -/
def after : Host.Outcome State Fault Refusal → State
  | .next s => s
  | .fault _ => State.reset
  | .refused _ => State.reset

/-- Whether an outcome is a next state. -/
def isNext : Host.Outcome State Fault Refusal → Bool
  | .next _ => true
  | .fault _ => false
  | .refused _ => false

def key0 : Key := Vector.replicate 4 0

def key1 : Key := #v[0x01234567, 0x89ABCDEF, 0xFEDCBA98, 0x76543210]

/-- A buffer that holds these bytes from offset 0 on. -/
def holding (bytes : List Byte) : List Host.Cell :=
  bytes.zipIdx.foldl (fun m b => writeByte m b.2 b.1) []

/-- The first `n` bytes of the buffer. -/
def firstBytes (n : Nat) (s : State) : List Byte := (List.range n).map (readByte s.buf)

/-- An idle engine with a key loaded, a buffer and its length, and the operands. -/
def ready (key : Key) (bytes : List Byte) (buflen start count : Word) : State :=
  { State.reset with key := key, keyv := true, buf := holding bytes, buflen := buflen, start := start, count := count }

/-- Bytes `0, 1, .. n-1`. -/
def iota (n : Nat) : List Byte := (List.range n).map (BitVec.ofNat 8)

def m2 : MCount := ⟨2, by decide, by decide⟩

/-! Well-formedness: an ill-formed term for each check. -/

theorem test_wellFormed_refuses_tailEnc_0 : (Instr.tailEnc 0).wellFormed = false := by decide
theorem test_wellFormed_refuses_tailDec_0 : (Instr.tailDec 0).wellFormed = false := by decide
theorem test_wellFormed_takes_tailDec_7 : (Instr.tailDec 7).wellFormed = true := by decide

/-! Decoding: every constructor from a word written out from R47 and R53. -/

theorem test_decode_nop : decodeCmd 0b00000000000000000000000000000000 = .ok .nop := by decide
theorem test_decode_loadkey : decodeCmd 0b00000000000000000000000000000001 = .ok .loadkey := by decide
theorem test_decode_encrypt : decodeCmd 0b00000000000000000000000000000010 = .ok .encrypt := by decide
theorem test_decode_decrypt : decodeCmd 0b00000000000000000000000000000011 = .ok .decrypt := by decide
theorem test_decode_encFixed : decodeCmd 0b00000000000000000000000000000100 = .ok .encFixed := by decide
theorem test_decode_decFixed : decodeCmd 0b00000000000000000000000000000101 = .ok .decFixed := by decide
theorem test_decode_encWords : decodeCmd 0b00000000000000000000000000000110 = .ok .encWords := by decide
theorem test_decode_decWords : decodeCmd 0b00000000000000000000000000000111 = .ok .decWords := by decide
theorem test_decode_clrf : decodeCmd 0b00000000000000000000000000001000 = .ok .clrf := by decide
theorem test_decode_tailEnc : decodeTail 0b0101 = .tailEnc 5 := by decide
theorem test_decode_tailDec : decodeTail 0b1101 = .tailDec 5 := by decide
theorem test_decode_reserved_opcode : decodeCmd 0x0000000F = .error (.reservedOpcode 15) := by decide
theorem test_decode_reserved_bits : decodeCmd 0x80000002 = .error .reservedBitsSet := by decide
theorem test_tableWord_tailDec : decodeTableWord 8 0xB = some (.tailDec 3) := by decide
theorem test_tableWord_encWords : decodeTableWord 32 6 = some .encWords := by decide

/-- The first step after reset runs the instruction placed for it. -/
theorem test_fetch_loadkey : step (State.reset.withFetchWord 32 1) =
    exec .loadkey { State.reset with busy := true, inflight := some .loadkey } := rfl
theorem test_fetch_tailEnc : isNext (step (State.reset.withFetchWord 8 3)) = true := by decide

/-! The primitives. -/

-- V3: `c` wraps; V7: general; V8: logical right shift.
theorem test_mx_V3 : mx 0xFFFFFFFF 0xFFFFFFFF 0xFFFFFFFF 0xFFFFFFFF = 0xD8000012 := by decide
theorem test_mx_V7 : mx 0x12345678 0x9ABCDEF0 0x9E3779B9 0x01234567 = 0xD232EFBE := by decide
theorem test_mx_V8 : mx 0xFFFFFFFF 0 0 0 = 0xE0000004 := by decide
-- V12, the row `e = 2`.
theorem test_keyIndex_V12 : (List.range 16).map (fun p => keyIndex (BitVec.ofNat 4 p) 2) =
    [2, 3, 0, 1, 2, 3, 0, 1, 2, 3, 0, 1, 2, 3, 0, 1] := by decide
-- V13, R77: the rounds at `m = 2` and the starting sum of its decryption.
theorem test_rounds_V13 : roundCount m2 = 32 ∧ BitVec.ofNat 32 32 * Config.delta = 0xC6EF3720 := by decide
-- V15.
theorem test_littleEndian_V15 : readWord (holding [0xAB, 0x04, 0x37, 0x05]) 0 = 0x053704AB := by decide
theorem test_writeWord_V15 : writeWord [] 5 0x575D8C80 = [(5, 0x80), (6, 0x8C), (7, 0x5D), (8, 0x57)] := by decide
-- V40, round 1; V27, decryption is not encryption.
theorem test_encRound_V40 : (encRound key0 m2 Work.reset).v.toList.take 2 = [0x9E3779B9, 0xF2EAA869] := by decide
theorem test_roundDec_V27 : (roundDec key0 m2 Work.reset).v.toList.take 2 = [0x2C0215E9, 0x18F7E575] := by
  decide +kernel
-- R66, V28: `COUNT = 71` has one super-block and a tail of 7; `COUNT = 75` two words and a tail of 3.
theorem test_partition_V28_71 : partition 71 = { full := 1, left := 7, n := 1, nw := 0, tail := 7 } := by decide
theorem test_partition_V28_75 : partition 75 = { full := 1, left := 11, n := 2, nw := 2, tail := 3 } := by decide

/-! The commands. -/

-- V74; R61.
theorem test_nop_V74 : (after (exec .nop (ready key1 [] 0 0 0))).status = 0x04 := by decide
-- V75: re-keying; V64: the status after the first `LOADKEY`.
theorem test_loadkey_V75 : (after (exec .loadkey (ready key1 [] 0 0 0))).key = key0 := by decide
theorem test_loadkey_V64 : (after (exec .loadkey { State.reset with keyin := key1 })).status = 0x04 := by decide
-- R63's example: `STATUS = 0x26` becomes `0x04`.
theorem test_clrf_R63 :
    (after (exec .clrf { ready key1 [] 0 0 0 with fault := true, fcode := 2, faulted := true })).status = 0x04 := by
  decide
-- V20 and V24; V67: `N = 1`; V69: `0 + 8 > 7`.
theorem test_encWords_V20 : firstBytes 8 (after (exec .encWords (ready key0 [] 8 0 2))) =
    [0xAB, 0x04, 0x37, 0x05, 0x80, 0x8C, 0x5D, 0x57] := by decide
theorem test_encWords_V67 : (after (exec .encWords (ready key1 [] 64 0 1))).status = 0x36 := by decide
-- R86's example; the range of `DEC_WORDS` (as V69).
theorem test_decWords_R86 :
    (after (exec .decWords (ready key0 [0xAB, 0x04, 0x37, 0x05, 0x80, 0x8C, 0x5D, 0x57] 8 0 2))).buf = [] := by
  decide +kernel
theorem test_decWords_V69 : (after (exec .decWords (ready key1 [] 7 0 2))).status = 0x26 := by decide
-- V50's last word; V52 (c): the guard at `1 + 64 > 64`.
theorem test_encFixed_V50 : readWord (after (exec .encFixed (ready key0 [] 64 0 99))).buf 60 = 0x17B92604 := by
  decide +kernel
theorem test_encFixed_V52c : (after (exec .encFixed (ready key1 (iota 64) 64 1 0))).buf = holding (iota 64) := by
  decide +kernel
-- V27's last word, through the buffer; V77: `F_NOKEY` is checked before the guard.
theorem test_decFixed_V27 : readWord (after (exec .decFixed (ready key0 [] 64 0 0))).buf 60 = 0xEA8CC4EB := by
  decide +kernel
theorem test_decFixed_V77 : (after (exec .decFixed { State.reset with buflen := 16 })).status = 0x12 := by decide
-- V37: misaligned words; V66: the range check does not wrap.
theorem test_encrypt_V37 :
    firstBytes 10 (after (exec .encrypt (ready key1 [0xA0, 0xA1, 0xA2, 0xA3, 0xA4, 0xA5, 0xA6, 0xA7, 0xA8, 0xA9] 10 1 8)))
      = [0xA0, 0xEF, 0x6E, 0xF5, 0x27, 0x10, 0xEE, 0x96, 0x27, 0xA9] := by decide
theorem test_encrypt_V66 : (after (exec .encrypt (ready key1 [] 0xFFFFFFFF 0xFFFFFFFF 2))).status = 0x26 := by decide
-- R68's example; V31's request with the other direction: seven bytes, no round function.
theorem test_decrypt_R68 :
    firstBytes 8 (after (exec .decrypt (ready key1 [0xA8, 0x71, 0xFA, 0xB2, 0x4F, 0x6D, 0x48, 0xF0] 8 0 8))) = iota 8 := by
  decide +kernel
theorem test_decrypt_V31 : (after (exec .decrypt (ready key1 (iota 7) 7 0 7))).port.tdata.toList = iota 7 ∧
    (after (exec .decrypt (ready key1 (iota 7) 7 0 7))).port.thdr = 0b1111 := by decide
-- The fixture delegate `FIX` of spec/95_test_vectors.md: a test fixture, not the real tail cipher. It keeps the contract.
def fix : Config.Delegate where
  enc := fun _ n s => Vector.ofFn fun i : Fin n => s[i] + 0x11 + BitVec.ofNat 8 i.val
  dec := fun _ n s => Vector.ofFn fun i : Fin n => s[i] - 0x11 - BitVec.ofNat 8 i.val
theorem test_tailContract_fix : TailContract fix := by
  intro k n x _ _
  apply Vector.ext
  intro i hi
  simp only [fix, Vector.getElem_ofFn, Fin.getElem_fin]
  rw [BitVec.sub_sub, BitVec.add_assoc, BitVec.add_sub_cancel]
-- V31: the tail of 7 through `FIX`; V32: two words and a tail of 3; and back.
theorem test_encrypt_V31 : firstBytes 7 (dispatchCommand fix .encrypt .enc (ready key1 (iota 7) 7 0 7)) =
    [0x11, 0x13, 0x15, 0x17, 0x19, 0x1B, 0x1D] := by decide +kernel
theorem test_encrypt_V32 : firstBytes 11 (dispatchCommand fix .encrypt .enc (ready key1 (iota 11) 11 0 11)) =
    [0xA8, 0x71, 0xFA, 0xB2, 0x4F, 0x6D, 0x48, 0xF0, 0x19, 0x1B, 0x1D] := by decide +kernel
theorem test_tailEnc_answers : (after (exec (.tailEnc 3) State.reset)).port.status = .answered := by decide
theorem test_tailDec_keeps_request : (after (exec (.tailDec 7) State.reset)).port.tdata = State.reset.port.tdata := by
  decide

/-! The host's side. -/

-- V70, V71, V72: illegal words; `F_ILLCMD` outranks `F_NOKEY`.
theorem test_illegal_V71 : (after (step { ready key1 [] 0 0 0 with todo := [.wr 0x00 0x12] })).status = 0x46 := by decide
theorem test_illegal_V72 : (after (step { State.reset with todo := [.wr 0x00 9] })).status = 0x42 := by decide
-- V62, V63: a faulted engine.
def faulted0 : State := { State.reset with fault := true, fcode := 1, faulted := true }
theorem test_faulted_V62 : (after (step { faulted0 with todo := [.wr 0x00 1] })).keyv = false := by decide
theorem test_faulted_V63 : (after (step { faulted0 with todo := [.wr 0x00 8] })).status = 0x00 := by decide
-- V76: write-only and reserved offsets read 0.
theorem test_read_V76 :
    (after (step { ready key1 [] 0 0 0 with keyin := key1, todo := [.rd 0x20], hostWord := 5 })).hostWord = 0 := by decide
-- R51 (b), R122: `BUSY` reads 1 and a write to `START` is lost.
def posted : State := { ready key1 (iota 8) 8 0 8 with busy := true, inflight := some .encrypt }
theorem test_busy_status : (after (step { posted with todo := [.rd 0x04] })).hostWord = 0x05 := by decide
theorem test_busy_write_lost : (after (step { posted with todo := [.wr 0x08 3] })).start = 0 := by decide
-- R120: the host's write is noted.
theorem test_poke_noted : (after (step { posted with todo := [.poke 3 9] })).touched = [3] := by decide
-- R117: reset abandons the command, the byte outside its region stays.
theorem test_reset_busy : readByte (after (step { posted with
    buf := holding (iota 12), todo := [.reset] })).buf 9 = 9 :=
  (Laws.readByte_writeBytes_outside _ 0 _ 8 9 (by decide)).trans (by decide)
-- R56: the expansion of a pseudo-command.
theorem test_pseudo_encrypt : HostProgram.encrypt 2 75 = [.wr 0x08 2, .wr 0x0C 75, .wr 0x00 2] := by decide

/-! Witnesses: a state and operands that meet the hypotheses of each statement that has any. -/

/-- A request standing on the port of a command in flight in its tail phase (V31). -/
def waiting : State :=
  { tailSend (skipWords (enterWords (dispatchBegin .enc (ready key1 (iota 7) 7 0 7)))) with
    busy := true, inflight := some .encrypt }

/-- The regions the witnesses use: `V34` (all three paths), and the boundary of the range (`START + COUNT = BUFLEN`). -/
def region34 : State := ready key1 [] 75 0 75
def regionEnd : State := ready key1 [] 0xFFFFFFFF 0xFFFFFFFF 0

/-- No other agent has written anything. -/
theorem owned_ready {i : Instr} {s : State} (h : s.touched = [] := by rfl) : Owned i s := fun a ha => by
  rw [h] at ha
  cases ha

theorem atRest_reset : AtRest State.reset := ⟨rfl, rfl, rfl, rfl, rfl⟩

theorem inv_reset_witness : EngineInv State.reset where
  canonical := rfl
  inSpace := rfl
  code := by decide
  legalCode := by decide
  faultIdle := by decide
  sticky := by decide
  noKey := fun _ => rfl
  busy := rfl
  command := by intro i h; cases h
  rest := fun _ => atRest_reset
  running := fun h => absurd rfl h
  progress := trivial
  port := fun h => absurd rfl h

theorem inv_faulted_witness : EngineInv faulted0 where
  canonical := rfl
  inSpace := rfl
  code := by decide
  legalCode := by decide
  faultIdle := by decide
  sticky := by decide
  noKey := fun _ => rfl
  busy := rfl
  command := by intro i h; cases h
  rest := fun _ => ⟨rfl, rfl, rfl, rfl, rfl⟩
  running := fun h => absurd rfl h
  progress := trivial
  port := fun h => absurd rfl h

theorem inv_waiting_witness (l : List Move) : EngineInv { waiting with todo := l } where
  canonical := rfl
  inSpace := rfl
  code := (by decide : waiting.fault = false ↔ waiting.fcode = 0)
  legalCode := (by decide : waiting.fcode.toNat ≤ 4)
  faultIdle := (by decide : waiting.fault = true → waiting.busy = false)
  sticky := (by decide : waiting.fault = true → waiting.faulted = true)
  noKey := (by decide : waiting.keyv = false → waiting.key = Vector.replicate 4 0)
  busy := rfl
  command := by intro i h; cases h; rfl
  rest := by intro h; cases h
  running := fun _ =>
    .inl ⟨rfl, rfl, rfl, (by decide : waiting.start.toNat + waiting.count.toNat ≤ waiting.buflen.toNat)⟩
  progress := (by decide :
    waiting.work.off.toNat + waiting.work.left.toNat = waiting.start.toNat + waiting.count.toNat ∧
      waiting.start.toNat ≤ waiting.work.off.toNat ∧ 1 ≤ waiting.work.left.toNat ∧ waiting.work.left.toNat ≤ 7)
  port := fun _ => ⟨rfl, rfl⟩

theorem inv_answered_witness :
    EngineInv { waiting with todo := [.engine], port := { waiting.port with status := .answered } } :=
  let h := inv_waiting_witness [.engine]
  ⟨h.canonical, h.inSpace, h.code, h.legalCode, h.faultIdle, h.sticky, h.noKey, h.busy, h.command, (nomatch ·), h.running,
    h.progress, fun _ => ⟨rfl, rfl⟩⟩

-- DecodeAndEncodeAgree: a word that decodes, a header that decodes.
theorem witness_DecodeAndEncodeAgree : decode (.cmd 8) = .ok .clrf ∧ decode (.thdr 15) = .ok (.tailDec 7) := by decide

-- IllegalCommandWordsFault: the first reserved opcode, the lowest reserved bit, the last legal word.
theorem witness_IllegalCommandWordsFault :
    (9 ≤ ((9 : Word).extractLsb' 0 4).toNat ∨ (9 : Word).extractLsb' 4 28 ≠ 0) ∧
      (9 ≤ ((16 : Word).extractLsb' 0 4).toNat ∨ (16 : Word).extractLsb' 4 28 ≠ 0) ∧
      ¬ (9 ≤ ((8 : Word).extractLsb' 0 4).toNat ∨ (8 : Word).extractLsb' 4 28 ≠ 0) ∧
      AtRest { State.reset with todo := [.wr 0x00 9] } ∧ State.reset.fault = false :=
  ⟨by decide, by decide, by decide, ⟨rfl, rfl, rfl, rfl, rfl⟩, rfl⟩

-- StepRunsTheLaunchedCommand, PostedCommandIsInFlight.
theorem witness_StepRunsTheLaunchedCommand :
    ({ State.reset with todo := [.wr 0x00 6] } : State).todo = .wr 0x00 6 :: [] ∧ State.reset.busy = false ∧
      State.reset.fault = false ∧ decodeCmd 6 = .ok .encWords := by decide
theorem witness_PostedCommandIsInFlight :
    ({ State.reset with todo := [.post 0x00 1, .engine] } : State).todo = .post 0x00 1 :: .engine :: [] ∧
      State.reset.busy = false ∧ State.reset.fault = false ∧ decodeCmd 1 = .ok .loadkey ∧
      Instr.loadkey ≠ .encrypt ∧ Instr.loadkey ≠ .decrypt := by decide

-- StepRunsTheDelegatesOperation, UnaskedAnswersStop.
theorem witness_StepRunsTheDelegatesOperation :
    ({ waiting with todo := [.delegate] } : State).todo = .delegate :: [] ∧
      ({ waiting with todo := [.delegate] } : State).port.status = .requested := ⟨rfl, rfl⟩
theorem witness_UnaskedAnswersStop :
    ({ State.reset with todo := [.delegate] } : State).port.status ≠ .requested ∧
      ({ State.reset with todo := [.delegate] } : State).todo = .delegate :: [] := ⟨by decide, rfl⟩

-- FaultedEngineTakesOnlyClrf: both kinds of word, an operand register, the last `KEYIN`.
theorem witness_FaultedEngineTakesOnlyClrf :
    AtRest faulted0 ∧ faulted0.fault = true ∧
      ({ faulted0 with todo := [.wr 0x00 8] } : State).todo = .wr 0x00 8 :: [] ∧
      (0x2C : BitVec 6) = BitVec.ofNat 6 (0x20 + 4 * (3 : Fin 4).val) ∧ (0x0C : BitVec 6) ≠ 0x08 :=
  ⟨⟨rfl, rfl, rfl, rfl, rfl⟩, rfl, rfl, by decide, by decide⟩

-- The register accesses: a busy engine, the first and the last offset, an unaligned one.
theorem witness_RegisterWritesWhileBusyAreLost :
    ({ posted with todo := [.wr 0x3C 1] } : State).busy = true ∧ (0x3C : BitVec 6).toNat % 4 = 0 := by decide
theorem witness_HostReadsReturnTheRegister :
    (0x00 : BitVec 6).toNat % 4 = 0 ∧ ({ posted with todo := [.rd 0x00] } : State).todo = .rd 0x00 :: [] := by decide
theorem witness_HostWritesSetTheOperandRegisters :
    State.reset.busy = false ∧ (0x14 : BitVec 6).toNat % 4 = 0 ∧ (0x14 : BitVec 6) ≠ 0x00 ∧ (0x2C : BitVec 6).toNat % 4 = 0 ∧
      ({ State.reset with todo := [.post 0x2C 7] } : State).todo = .post 0x2C 7 :: [] := by decide
theorem witness_NarrowRegisterAccessesAreRefused :
    (0x09 : BitVec 6).toNat % 4 ≠ 0 ∧ ({ State.reset with todo := [.rd 0x09] } : State).todo = .rd 0x09 :: [] := by decide

-- IdleEngineWaits, HostBufferAccesses (idle; and busy, the offset just past the region of `posted`).
theorem witness_IdleEngineWaits : AtRest State.reset ∧ State.reset.todo = [] := ⟨atRest_reset, rfl⟩
theorem witness_HostBufferAccesses :
    Memory.wf posted.buf = true ∧ posted.inflight = some .encrypt ∧
      posted.start.toNat + footprint .encrypt posted ≤ (8 : Word).toNat := by decide

-- StatusLayoutAndIdleValues, FaultsDoNotNest, RecordedFaultsStayMarked.
theorem witness_StatusLayoutAndIdleValues : EngineInv faulted0 ∧ faulted0.busy = false := ⟨inv_faulted_witness, rfl⟩
theorem witness_FaultsDoNotNest :
    EngineInv faulted0 ∧ faulted0.fault = true ∧ step faulted0 = .next faulted0 := ⟨inv_faulted_witness, rfl, rfl⟩
theorem witness_RecordedFaultsStayMarked :
    faulted0.faulted = true ∧ step faulted0 = .next faulted0 ∧
      (after (step { State.reset with todo := [.wr 0x00 9] })).fault = true := ⟨rfl, rfl, by decide⟩

-- EveryStepKeepsTheInvariant: an idle step, and a step of a command in flight.
theorem witness_EveryStepKeepsTheInvariant : EngineInv State.reset ∧ step State.reset = .next State.reset :=
  ⟨inv_reset_witness, rfl⟩
theorem witness_EveryStepKeepsTheInvariant_busy : EngineInv { waiting with todo := [.engine] } ∧
    step { waiting with todo := [.engine] } = .next { waiting with todo := [] } := ⟨inv_waiting_witness _, rfl⟩

-- AssertingResetClearsTheEngine (idle and busy), OnlyLoadkeyAndResetChangeTheKey.
theorem witness_AssertingResetClearsTheEngine :
    ({ posted with todo := [.reset] } : State).todo = .reset :: [] ∧ posted.inflight = some .encrypt ∧
      State.reset.inflight = none := ⟨rfl, rfl, rfl⟩
theorem witness_OnlyLoadkeyAndResetChangeTheKey :
    step State.reset = .next State.reset ∧ isNext (step (State.reset.withFetchWord 32 1)) = true := ⟨rfl, by decide⟩

-- UnansweredRequestHoldsTheEngine.
theorem witness_UnansweredRequestHoldsTheEngine :
    EngineInv { waiting with todo := [.pause] } ∧ waiting.port.status = .requested ∧ Move.pause ≠ .reset ∧
      Move.pause ≠ .delegate ∧ (∀ r, Move.pause ≠ .answer r) ∧
      step { waiting with todo := [.pause] } = .next { waiting with todo := [] } :=
  ⟨inv_waiting_witness _, rfl, by decide, by decide, (fun _ h => nomatch h), rfl⟩

-- WordWriteIsLittleEndian, ExecKeepsTheBufferCanonical.
theorem witness_WordWriteIsLittleEndian : Memory.wf (holding (iota 8)) = true := by decide
theorem witness_ExecKeepsTheBufferCanonical :
    Memory.wf posted.buf = true ∧ Memory.inSpace posted.buf = true ∧ isNext (exec .encrypt posted) = true :=
  ⟨by decide, by decide, rfl⟩

-- The round function: the smallest and the largest operand count.
theorem witness_EncryptionSumSchedule : Work.reset.sum = 0 ∧ Work.reset.rnd = 0 ∧ roundCount m2 ≤ roundCount m2 := by
  decide
theorem witness_DecryptionRunsExactlyItsRounds :
    ({ Work.reset with sum := BitVec.ofNat 32 (roundCount .sixteen) * Config.delta } : Work).sum =
      BitVec.ofNat 32 (roundCount .sixteen) * Config.delta ∧ Work.reset.rnd = 0 := by decide
theorem witness_RoundFunctionRoundTrip : 0 < m2.val ∧ 15 < MCount.sixteen.val := by decide
theorem witness_RoundFunctionKeepsTheOtherWords : m2.val ≤ 2 ∧ 2 < 16 ∧ m2.val ≤ 15 ∧ 15 < 16 := by decide
theorem witness_RoundFunctionReadsOnlyItsWords :
    ∀ i, i < m2.val → Work.reset.word (BitVec.ofNat 4 i) = { Work.reset with sum := 5 }.word (BitVec.ofNat 4 i) :=
  fun _ _ => rfl

-- NopChangesNothing: an engine at rest.
theorem witness_NopChangesNothing : AtRest State.reset := atRest_reset

-- CipherFaultsInOrder: no key; one past the range; `N` just outside; `N` at its ends, one past the range.
theorem witness_CipherFaultsInOrder_noKey : State.reset.keyv = false := rfl
theorem witness_CipherFaultsInOrder_range :
    (ready key1 [] 8 1 8).keyv = true ∧ ¬ InRange (ready key1 [] 8 1 8) (ready key1 [] 8 1 8).count.toNat :=
  ⟨rfl, by simp [InRange, ready]⟩
theorem witness_CipherFaultsInOrder_operand :
    ¬ (2 ≤ (ready key1 [] 64 0 1).count.toNat ∧ (ready key1 [] 64 0 1).count.toNat ≤ 16) ∧
      ¬ (2 ≤ (ready key1 [] 99 0 17).count.toNat ∧ (ready key1 [] 99 0 17).count.toNat ≤ 16) := by decide
theorem witness_CipherFaultsInOrder_wordsRange :
    2 ≤ (ready key1 [] 7 0 2).count.toNat ∧ (ready key1 [] 7 0 2).count.toNat ≤ 16 ∧
      ¬ InRange (ready key1 [] 7 0 2) (4 * (ready key1 [] 7 0 2).count.toNat) :=
  ⟨by decide, by decide, by simp [InRange, ready]⟩

-- WellFormedCommandsDoNotFault: the end of the range.
theorem witness_WellFormedCommandsDoNotFault :
    regionEnd.keyv = true ∧ InRange regionEnd regionEnd.count.toNat ∧ 2 ≤ (ready key1 [] 64 0 16).count.toNat ∧
      (ready key1 [] 64 0 16).count.toNat ≤ 16 ∧ InRange (ready key1 [] 64 0 16) (4 * (ready key1 [] 64 0 16).count.toNat) :=
  ⟨rfl, by simp [InRange, regionEnd, ready], by decide, by decide, by simp [InRange, ready]⟩

-- WordsCommandsMixTheirWords at `N = 2` and `N = 16`; the fixed commands at the end of the buffer; the guard one past it.
theorem witness_WordsCommandsMixTheirWords :
    (ready key1 [] 8 0 2).keyv = true ∧ m2.val = (ready key1 [] 8 0 2).count.toNat ∧
      InRange (ready key1 [] 8 0 2) (4 * m2.val) ∧ Owned .encWords (ready key1 [] 8 0 2) ∧
      Owned .decWords (ready key1 [] 8 0 2) ∧ Memory.wf (ready key1 [] 8 0 2).buf = true ∧ MCount.sixteen.val = (ready key1 [] 64 0 16).count.toNat ∧
      InRange (ready key1 [] 64 0 16) (4 * MCount.sixteen.val) :=
  ⟨rfl, rfl, by simp [InRange, ready, m2], owned_ready, owned_ready, rfl, rfl, by simp [InRange, ready, MCount.sixteen]⟩
theorem witness_FixedCommandsMixTheSuperBlock :
    (ready key1 [] 64 0 0).keyv = true ∧ (ready key1 [] 64 0 0).start.toNat + 64 ≤ (ready key1 [] 64 0 0).buflen.toNat ∧
      Owned .encFixed (ready key1 [] 64 0 0) ∧ Owned .decFixed (ready key1 [] 64 0 0) ∧
      Memory.wf (ready key1 [] 64 0 0).buf = true := ⟨rfl, by decide, owned_ready, owned_ready, rfl⟩
theorem witness_GuardDoesNothing :
    (ready key1 [] 64 1 0).keyv = true ∧ (ready key1 [] 64 1 0).start.toNat + 64 > (ready key1 [] 64 1 0).buflen.toNat ∧
      (ready key1 [] 64 200 0).start.toNat + 64 > (ready key1 [] 64 200 0).buflen.toNat := by decide
theorem witness_FixedPathIsTheWordsPathAtSixteen :
    (ready key1 [] 64 0 16).keyv = true ∧ (ready key1 [] 64 0 16).count = 16 ∧
      (ready key1 [] 64 0 16).start.toNat + 64 ≤ (ready key1 [] 64 0 16).buflen.toNat ∧
      (ready key1 [] 63 0 16).start.toNat + 64 > (ready key1 [] 63 0 16).buflen.toNat := by decide
theorem witness_DirectCommandsRoundTrip :
    (ready key1 [] 8 0 2).keyv = true ∧ Owned .encWords (ready key1 [] 8 0 2) ∧ Owned .encFixed (ready key1 [] 8 0 2) ∧
      Memory.wf (ready key1 [] 8 0 2).buf = true ∧
      2 ≤ (ready key1 [] 8 0 2).count.toNat ∧ (ready key1 [] 8 0 2).count.toNat ≤ 16 ∧
      InRange (ready key1 [] 8 0 2) (4 * (ready key1 [] 8 0 2).count.toNat) :=
  ⟨rfl, owned_ready, owned_ready, rfl, by decide, by decide, by simp [InRange, ready]⟩

-- The dispatch commands: all three paths, and `COUNT = 0` at the very end of the offset space (R69, V39).
theorem witness_DispatchTransformsEveryPart :
    region34.keyv = true ∧ InRange region34 region34.count.toNat ∧ Owned .encrypt region34 ∧ Owned .decrypt region34 ∧
      Memory.wf region34.buf = true ∧ regionEnd.keyv = true ∧ InRange regionEnd regionEnd.count.toNat ∧
      Owned .encrypt regionEnd ∧ Owned .decrypt regionEnd ∧ Memory.wf regionEnd.buf = true :=
  ⟨rfl, by simp [InRange, region34, ready], owned_ready, owned_ready, rfl, rfl, by simp [InRange, regionEnd, ready],
    owned_ready, owned_ready, rfl⟩
theorem witness_DecryptUndoesEncrypt :
    TailContract fix ∧ KeyLoaded region34 ∧ InRange region34 region34.count.toNat ∧ Owned .encrypt region34 ∧
      Memory.wf region34.buf = true :=
  ⟨test_tailContract_fix, rfl, by simp [InRange, region34, ready], owned_ready, rfl⟩
-- The later state: another `BUFLEN` and other host registers, the buffer as `ENCRYPT` left it.
theorem witness_DecryptUndoesEncrypt_later :
    let v : State := { region34 with
      buflen := 99, keyin := key1, buf := (dispatchCommand fix .encrypt .enc region34).buf }
    SameCall region34 v ∧ KeyLoaded v ∧ InRange v v.count.toNat ∧ Owned .decrypt v :=
  ⟨⟨rfl, rfl, rfl⟩, rfl, (by decide : (0 : Word).toNat + (75 : Word).toNat ≤ (99 : Word).toNat), fun _ h => nomatch h⟩
-- A region with no tail.
theorem witness_DecryptUndoesEncrypt_noTail :
    KeyLoaded (ready key1 [] 8 0 8) ∧ InRange (ready key1 [] 8 0 8) (ready key1 [] 8 0 8).count.toNat ∧
      Owned .encrypt (ready key1 [] 8 0 8) ∧ Memory.wf (ready key1 [] 8 0 8).buf = true ∧
      (partition (ready key1 [] 8 0 8).count.toNat).tail = 0 :=
  ⟨rfl, by simp [InRange, ready], owned_ready, rfl, by decide⟩
theorem witness_TailDecUndoesTailEnc : TailContract fix ∧ (7 : BitVec 3) ≠ 0 := ⟨test_tailContract_fix, by decide⟩

-- AnswersAreTakenAsTheyStand: a request standing, and one answered (V31's tail of 7, the answer all zeros).
theorem witness_AnswersAreTakenAsTheyStand :
    ({ waiting with todo := [.answer (Vector.replicate 7 5)] } : State).port.status = .requested := rfl
theorem witness_AnswersAreTakenAsTheyStand_engine :
    EngineInv { waiting with todo := [.engine], port := { waiting.port with status := .answered } } ∧
      waiting.inflight = some .encrypt ∧ Owned .encrypt waiting :=
  ⟨inv_answered_witness, rfl, fun _ h => nomatch h⟩
theorem witness_GuardNeverHoldsUnderDispatch :
    InRange region34 region34.count.toNat ∧ 0 < region34.count.toNat / 64 :=
  ⟨by simp [InRange, region34, ready], by decide⟩
theorem witness_TailPortUse :
    region34.keyv = true ∧ InRange region34 region34.count.toNat ∧
      (partition region34.count.toNat).tail ≠ 0 ∧ (partition (ready key1 [] 8 0 8).count.toNat).tail = 0 ∧
      InRange (ready key1 [] 8 0 8) (ready key1 [] 8 0 8).count.toNat ∧ isNext (exec .nop region34) = true :=
  ⟨rfl, by simp [InRange, region34, ready], by decide, by decide, by simp [InRange, ready], rfl⟩
theorem witness_ResultDependsOnKeyOperandsAndRegion :
    SameCall region34 { region34 with keyin := key1 } ∧ Owned .encrypt region34 ∧
      Owned .encrypt { region34 with keyin := key1 } ∧ ({ region34 with keyin := key1 } : State).buflen = region34.buflen ∧
      ({ region34 with keyin := key1 } : State).keyv = region34.keyv ∧
      Memory.wf region34.buf = true ∧ ({ region34 with keyin := key1 } : State).fault = region34.fault ∧
      ({ region34 with keyin := key1 } : State).fcode = region34.fcode ∧
      ∀ a, readByte ({ region34 with keyin := key1 } : State).buf a = readByte region34.buf a :=
  ⟨⟨rfl, rfl, rfl⟩, owned_ready, owned_ready, rfl, rfl, rfl, rfl, rfl, fun _ => rfl⟩
theorem witness_RegionsSplitAtSuperBlocks :
    region34.keyv = true ∧ InRange region34 region34.count.toNat ∧ Owned .encrypt region34 ∧
      Memory.wf region34.buf = true ∧ 64 * 1 ≤ region34.count.toNat :=
  ⟨rfl, by simp [InRange, region34, ready], owned_ready, rfl, by decide⟩
-- A write outside the region of a busy engine leaves it owned (R120).
theorem witness_owned_outside : Owned .encrypt { region34 with touched := [75] } := by
  simp only [Owned]
  decide

-- PseudoCommandsLaunchTheirCommand: an engine at rest whose host is about to load a key.
theorem witness_PseudoCommandsLaunchTheirCommand :
    AtRest { State.reset with todo := HostProgram.loadkey 1 2 3 4 } ∧
      ({ State.reset with todo := HostProgram.loadkey 1 2 3 4 } : State).fault = false ∧
      isNext (Host.Core.run Sys2Proof.core 5 { State.reset with todo := HostProgram.loadkey 1 2 3 4 }) = true :=
  ⟨⟨rfl, rfl, rfl, rfl, rfl⟩, rfl, by decide⟩
-- `CLRF` on a faulted engine; `FILL` up to the last offset.
theorem witness_PseudoCommandsLaunchTheirCommand_clrf : AtRest { faulted0 with todo := HostProgram.clrf ++ [] } :=
  ⟨rfl, rfl, rfl, rfl, rfl⟩
theorem witness_PseudoCommandsLaunchTheirCommand_fill :
    AtRest { State.reset with todo := HostProgram.fill 0xFFFFFFFE [1, 2] ++ [] } ∧ Memory.wf State.reset.buf = true ∧
      (0xFFFFFFFE : Word).toNat + ([1, 2] : List Byte).length ≤ 2 ^ 32 ∧
      isNext (Host.Core.run Sys2Proof.core 2 { State.reset with todo := HostProgram.fill 0xFFFFFFFE [1, 2] }) = true :=
  ⟨⟨rfl, rfl, rfl, rfl, rfl⟩, rfl, by decide, by decide⟩

-- The frame and the busy window.
theorem witness_CipherCommandsFrame : isNext (exec .encrypt region34) = true ∧ isNext (exec .decWords State.reset) = true :=
  ⟨rfl, rfl⟩
theorem witness_CommandInFlightReachesTheAtomicResult :
    AtRest region34 ∧ region34.todo = [] ∧ Instr.encrypt.isCommand = true := ⟨⟨rfl, rfl, rfl, rfl, rfl⟩, rfl, rfl⟩
theorem witness_OnlyDisturbedPartsAreLost :
    ClearOf .encrypt { region34 with touched := [70] } [70] 3 ∧
      isNext (exec .encrypt { region34 with touched := [70] }) = true := ⟨by simp only [ClearOf]; decide, rfl⟩
-- RunsKeepTheUndisturbedParts: a command in flight in its tail phase; a byte outside the written byte's part.
theorem witness_RunsKeepTheUndisturbedParts :
    EngineInv { waiting with todo := [] } ∧ waiting.inflight = some .encrypt ∧ 9 ≠ (3 : Word).toNat ∧
      ClearOf .encrypt waiting [(3 : Word).toNat] 9 :=
  ⟨inv_waiting_witness _, rfl, by decide, by simp only [ClearOf]; decide⟩
-- LoadAndStoreMoveTheWords.
theorem witness_LoadAndStoreMoveTheWords : Memory.wf (holding (iota 8)) = true ∧ 1 < m2.val ∧ 15 < 16 := by decide

end Sys2Proof.Tests
end

/-! PROOF. The round function on whole vectors (R84, R12, R17): its result depends on the vector's words and the key
alone, and decryption undoes encryption. -/

namespace Sys2Proof.Laws

open Sys2Proof.Machine

/-! The rounds read only the vector's words and the key. -/

theorem SameWords.trans {n : Nat} {w w' w'' : Work} (h : SameWords n w w') (h' : SameWords n w' w'') :
    SameWords n w w'' := fun i hi => (h i hi).trans (h' i hi)

/-- What a round of encryption reads: the vector, the left-hand neighbour carried into it, and `SUM` (R80). -/
structure EncAgree (n : Nat) (w w' : Work) : Prop where
  words : SameWords n w w'
  z : w.z = w'.z
  sum : w.sum = w'.sum

/-- What a round of decryption reads: the vector, the right-hand neighbour carried into it, and `SUM` (R81). -/
structure DecAgree (n : Nat) (w w' : Work) : Prop where
  words : SameWords n w w'
  y : w.y = w'.y
  sum : w.sum = w'.sum

theorem lastIndex_lt (m : MCount) : m.val - 1 < m.val := by
  have := m.two_le
  omega

/-- Stepping `SUM` back at the end of a decryption round leaves the vector and `Y` (R81). -/
theorem decRound_word (key : Key) (m : MCount) (w : Work) (j : BitVec 4) :
    (decRound key m w).word j =
      (decWord key 0 (lastIndex m) (decWordsFrom key (decHead w) (m.val - 1))).word j := decStepBack_word _ _

theorem decRound_y (key : Key) (m : MCount) (w : Work) :
    (decRound key m w).y = (decWord key 0 (lastIndex m) (decWordsFrom key (decHead w) (m.val - 1))).y :=
  decStepBack_y _

theorem encWord_agree {key : Key} {n p q : Nat} {w w' : Work} (h : EncAgree n w w') (he : w.e = w'.e) (hp : p < n)
    (hq : q < n) :
    EncAgree n (encWord key (BitVec.ofNat 4 p) (BitVec.ofNat 4 q) w)
      (encWord key (BitVec.ofNat 4 p) (BitVec.ofNat 4 q) w') where
  words := encWord_same h.words h.z h.sum he hp hq
  z := by rw [z_encWord, z_encWord]; exact encWord_same h.words h.z h.sum he hp hq p hp
  sum := h.sum

theorem decWord_agree {key : Key} {n p q : Nat} {w w' : Work} (h : DecAgree n w w') (he : w.e = w'.e) (hp : p < n)
    (hq : q < n) :
    DecAgree n (decWord key (BitVec.ofNat 4 p) (BitVec.ofNat 4 q) w)
      (decWord key (BitVec.ofNat 4 p) (BitVec.ofNat 4 q) w') where
  words := decWord_same h.words h.y h.sum he hp hq
  y := by rw [y_decWord, y_decWord]; exact decWord_same h.words h.y h.sum he hp hq p hp
  sum := h.sum

theorem encWordsUpTo_agree {key : Key} {n k : Nat} {w w' : Work} (h : EncAgree n w w') (he : w.e = w'.e) (hk : k < n) :
    EncAgree n (encWordsUpTo key w k) (encWordsUpTo key w' k) := by
  induction k with
  | zero => exact h
  | succ k ih => exact encWord_agree (ih (by omega)) (by simp only [encWordsUpTo_e, he]) (by omega) hk

theorem decWordsFrom_agree {key : Key} {n k : Nat} {w w' : Work} (h : DecAgree n w w') (he : w.e = w'.e) (hk : k < n) :
    DecAgree n (decWordsFrom key w k) (decWordsFrom key w' k) := by
  induction k generalizing w w' with
  | zero => exact h
  | succ k ih => exact ih (decWord_agree h he hk (by omega)) he (by omega)

theorem encRound_agree {key : Key} {m : MCount} {w w' : Work} (h : EncAgree m.val w w') :
    EncAgree m.val (encRound key m w) (encRound key m w') := by
  have hm := lastIndex_lt m
  have hh : EncAgree m.val (encHead w) (encHead w') :=
    ⟨fun i hi => by simpa using h.words i hi, by simpa using h.z, by simp [h.sum]⟩
  have he : (encHead w).e = (encHead w').e := by simp [h.sum]
  exact encWord_agree (q := 0) (encWordsUpTo_agree hh he hm) (by simp only [encWordsUpTo_e, he]) hm
    (Nat.zero_lt_of_lt hm)

theorem decRound_agree {key : Key} {m : MCount} {w w' : Work} (h : DecAgree m.val w w') :
    DecAgree m.val (decRound key m w) (decRound key m w') := by
  have hm := lastIndex_lt m
  have hh : DecAgree m.val (decHead w) (decHead w') :=
    ⟨fun i hi => by simpa using h.words i hi, by simpa using h.y, by simp [h.sum]⟩
  have he : (decHead w).e = (decHead w').e := by simp [h.sum]
  have hw := decWord_agree (key := key) (decWordsFrom_agree (key := key) hh he hm) (by simp only [decWordsFrom_e, he])
    (p := 0) (Nat.zero_lt_of_lt hm) hm
  exact ⟨fun i hi => by rw [decRound_word, decRound_word]; exact hw.words i hi,
    by rw [decRound_y, decRound_y]; exact hw.y, by rw [decRound_sum, decRound_sum, h.sum]⟩

theorem encRounds_agree {key : Key} {m : MCount} {w w' : Work} (h : EncAgree m.val w w') (r : Nat) :
    EncAgree m.val (encRounds key m w r) (encRounds key m w' r) := by
  induction r with
  | zero => exact h
  | succ r ih => exact encRound_agree ih

theorem decLoop_agree {key : Key} {m : MCount} {w w' : Work} (h : DecAgree m.val w w') (fuel : Nat) :
    DecAgree m.val (decLoop key m fuel w) (decLoop key m fuel w') := by
  induction fuel generalizing w w' with
  | zero => exact h
  | succ fuel ih =>
    have hr := decRound_agree (key := key) h
    simp only [decLoop, hr.sum]
    split
    · exact hr
    · exact ih hr

/-- The round function's words depend on the vector's words and the key alone (R12, R17). -/
theorem roundFn_same {d : Dir} {key : Key} {m : MCount} {w w' : Work} (h : SameWords m.val w w') :
    SameWords m.val (roundFn d key m w) (roundFn d key m w') := by
  have hm := lastIndex_lt m
  cases d with
  | enc =>
    exact (encRounds_agree ⟨fun i hi => by simpa using h i hi, by simpa [lastIndex] using h _ hm, by simp⟩ _).words
  | dec => exact (decLoop_agree ⟨fun i hi => by simpa using h i hi, by simpa using h 0 (by omega), by simp⟩ _).words

/-! Decryption undoes encryption, word by word and round by round (R84). -/

/-- The decrypting registers `d` hold what the encrypting ones `w` hold, within one round. -/
structure Mirrors (n : Nat) (d w : Work) : Prop where
  words : SameWords n d w
  sum : d.sum = w.sum
  e : d.e = w.e

/-- One word update of decryption undoes one of encryption: `prev` is the left-hand neighbour `Z` was read from, and `Y`
holds the right-hand neighbour. -/
theorem decWord_undoes_encWord {key : Key} {n p prev : Nat} {next : BitVec 4} {d w : Work} (hn : n ≤ 16)
    (h : Mirrors n d (encWord key (BitVec.ofNat 4 p) next w)) (hy : d.y = w.word next)
    (hz : w.z = w.word (BitVec.ofNat 4 prev)) (hp : p < n) (hprev : prev < n) (hne : prev ≠ p) :
    Mirrors n (decWord key (BitVec.ofNat 4 p) (BitVec.ofNat 4 prev) d) w ∧
      (decWord key (BitVec.ofNat 4 p) (BitVec.ofNat 4 prev) d).y = w.word (BitVec.ofNat 4 p) := by
  have hsum : d.sum = w.sum := h.sum
  have he : d.e = w.e := h.e
  have hdprev : d.word (BitVec.ofNat 4 prev) = w.z := by
    rw [h.words prev hprev, word_encWord, if_neg (fun e => hne ((ofNat4_inj (by omega) (by omega)).1 e)), hz]
  have hword : (decWord key (BitVec.ofNat 4 p) (BitVec.ofNat 4 prev) d).word (BitVec.ofNat 4 p) =
      w.word (BitVec.ofNat 4 p) := by
    rw [word_decWord, if_pos rfl, h.words p hp, word_encWord, if_pos rfl, hdprev, hy, hsum, he, BitVec.add_sub_cancel]
  refine ⟨⟨fun i hi => ?_, hsum, he⟩, by rw [y_decWord, hword]⟩
  by_cases hip : i = p
  · rw [hip, hword]
  · have hne' : BitVec.ofNat 4 i ≠ BitVec.ofNat 4 p := fun e => hip ((ofNat4_inj (by omega) (by omega)).1 e)
    rw [word_decWord, if_neg hne', h.words i hi, word_encWord, if_neg hne']

/-- The words `P = k .. 1` and then `P = 0` of a decryption round undo the words `P = 0 .. k` of an encryption round
that was begun with `Z` the last word. -/
theorem decWordsFrom_undoes_encWordsUpTo {key : Key} {m : MCount} {k : Nat} {next : BitVec 4} {d w : Work}
    (h : Mirrors m.val d (encWord key (BitVec.ofNat 4 k) next (encWordsUpTo key w k)))
    (hy : d.y = (encWordsUpTo key w k).word next) (hz : w.z = w.word (lastIndex m)) (hk : k < m.val) :
    Mirrors m.val (decWord key 0 (lastIndex m) (decWordsFrom key d k)) w ∧
      (decWord key 0 (lastIndex m) (decWordsFrom key d k)).y = w.word 0 := by
  have hm2 := m.two_le
  induction k generalizing d next with
  | zero => exact decWord_undoes_encWord (p := 0) (prev := m.val - 1) m.le_16 h hy hz hk (lastIndex_lt m) (by omega)
  | succ k ih =>
    obtain ⟨hd, hyd⟩ := decWord_undoes_encWord m.le_16 h hy
      (by rw [encWordsUpTo, z_encWord]) hk (by omega : k < m.val) (by omega)
    have hne : BitVec.ofNat 4 (k + 1) ≠ BitVec.ofNat 4 k := fun e => by
      have := (ofNat4_inj (by have := m.le_16; omega) (by have := m.le_16; omega)).1 e
      omega
    refine ih hd ?_ (by omega)
    rw [hyd, encWordsUpTo, word_encWord, if_neg hne]

/-- A round of encryption ends with `Z` the last word, as it begins (R80). -/
theorem encRound_z (key : Key) (m : MCount) (w : Work) : (encRound key m w).z = (encRound key m w).word (lastIndex m) :=
  z_encWord ..

theorem encRounds_z {key : Key} {m : MCount} {w : Work} (h : w.z = w.word (lastIndex m)) (r : Nat) :
    (encRounds key m w r).z = (encRounds key m w r).word (lastIndex m) := by
  cases r with
  | zero => exact h
  | succ r => exact encRound_z ..

/-- The decrypting registers between rounds: the vector and `SUM` of the encryption, `Y` the first word. -/
structure Rewound (m : MCount) (d w : Work) : Prop where
  words : SameWords m.val d w
  sum : d.sum = w.sum
  y : d.y = w.word 0

/-- A round of decryption undoes a round of encryption. -/
theorem decRound_undoes_encRound {key : Key} {m : MCount} {d w : Work} (h : Rewound m d (encRound key m w))
    (hz : w.z = w.word (lastIndex m)) : Rewound m (decRound key m d) w := by
  have hm2 := m.two_le
  have hsum : d.sum = w.sum + Config.delta := by rw [h.sum, encRound_sum]
  have h0 : (0 : BitVec 4) ≠ lastIndex m := fun e => by
    have := (ofNat4_inj (i := 0) (by omega) (by have := m.le_16; omega)).1 e
    omega
  have hhead : Mirrors m.val (decHead d) (encRound key m w) :=
    ⟨fun i hi => by simpa using h.words i hi, by simp [h.sum], by simp [encRound, hsum]⟩
  have hy : (decHead d).y = (encWordsUpTo key (encHead w) (m.val - 1)).word 0 := by
    rw [decHead_y, h.y, encRound, word_encWord, if_neg h0]
  obtain ⟨hw, hy'⟩ := decWordsFrom_undoes_encWordsUpTo hhead hy (by simpa using hz) (lastIndex_lt m)
  exact ⟨fun i hi => by rw [decRound_word, hw.words i hi, encHead_word],
    by rw [decRound_sum, hsum, BitVec.add_sub_cancel], by rw [decRound_y, hy', encHead_word]⟩

/-- `DELTA` is odd, so a multiple of it is 0 only for a multiple of `2^32` (R91). -/
theorem ofNat_mul_delta_eq_zero (k : Nat) : BitVec.ofNat 32 k * Config.delta = 0 ↔ 2 ^ 32 ∣ k := by
  have hcop : Nat.Coprime (2 ^ 32) Config.delta.toNat := by decide
  have hval : (BitVec.ofNat 32 k * Config.delta).toNat = k * Config.delta.toNat % 2 ^ 32 := by
    rw [BitVec.toNat_mul, BitVec.toNat_ofNat, Nat.mod_mul_mod]
  rw [← BitVec.toNat_inj, hval, ← hcop.dvd_mul_right, Nat.dvd_iff_mod_eq_zero]
  rfl

/-- After `r` rounds of encryption `SUM` is `r` times `DELTA` further on (R93). -/
theorem encRounds_sum (key : Key) (m : MCount) (w : Work) (r : Nat) :
    (encRounds key m w r).sum = w.sum + BitVec.ofNat 32 r * Config.delta := by
  induction r with
  | zero => simp [encRounds]
  | succ r ih =>
    rw [encRounds, encRound_sum, ih, BitVec.ofNat_add, BitVec.add_mul, BitVec.add_assoc]
    rw [show BitVec.ofNat 32 1 * Config.delta = Config.delta from BitVec.one_mul _]

/-- The decryption loop takes back every round of an encryption that began with `SUM` 0. -/
theorem decLoop_undoes_encRounds {key : Key} {m : MCount} {w : Work} (hz : w.z = w.word (lastIndex m)) (hs : w.sum = 0)
    (r : Nat) {d : Work} (hr : r < 2 ^ 32) (h : Rewound m d (encRounds key m w r)) :
    SameWords m.val (decLoop key m r d) w := by
  induction r generalizing d with
  | zero => exact h.words
  | succ r ih =>
    have hd := decRound_undoes_encRound h (encRounds_z hz r)
    simp only [decLoop]
    split
    · next h0 =>
      have hr0 : r = 0 := by
        rw [hd.sum, encRounds_sum, hs, zero_add, ofNat_mul_delta_eq_zero] at h0
        exact Nat.eq_zero_of_dvd_of_lt h0 (by omega)
      subst hr0
      exact hd.words
    · exact ih (by omega) hd

theorem roundCount_le (m : MCount) : roundCount m ≤ 32 := by
  have : 52 / m.val ≤ 52 / 2 := Nat.div_le_div_left m.two_le (by omega)
  simp only [roundCount]
  omega

/-- `RoundDec(m)` after `RoundEnc(m)` restores the vector (R84). -/
theorem roundDec_roundEnc (key : Key) (m : MCount) (w : Work) :
    SameWords m.val (roundDec key m (roundEnc key m w)) w := by
  have hr := roundCount_le m
  refine SameWords.trans (decLoop_undoes_encRounds (w := encInit m w) (by simp) (by simp) _ (by omega) ?_)
    fun i _ => by simp
  exact ⟨fun i _ => by simp [roundEnc], by simp [encRounds_sum], by simp [roundEnc]⟩

end Sys2Proof.Laws

/-! PROOF. What a command leaves in each part of its region, as a function of the part's old bytes and the key (R82,
R83, R98): the block operation, the tail phase with any delegate, and the dispatch as a whole (R66, R67). -/

namespace Sys2Proof.Laws

open Sys2Proof.Machine

/-- The two buffers hold the same `n` bytes at offset `a`. -/
def SameBytes (a n : Nat) (buf buf' : List Host.Cell) : Prop :=
  ∀ r, r < n → readByte buf' (a + r) = readByte buf (a + r)

theorem SameBytes.readWord {a n j : Nat} {buf buf' : List Host.Cell} (h : SameBytes a (4 * n) buf buf') (hj : j < n) :
    readWord buf' (a + 4 * j) = readWord buf (a + 4 * j) :=
  readWord_congr fun i hi => by rw [Nat.add_assoc]; exact h _ (by omega)

theorem sameBytes_of_readWord {a n : Nat} {buf buf' : List Host.Cell}
    (h : ∀ j, j < n → readWord buf' (a + 4 * j) = readWord buf (a + 4 * j)) : SameBytes a (4 * n) buf buf' := by
  intro r hr
  have hd : a + r = a + 4 * (r / 4) + r % 4 := by omega
  have hlt : r % 4 < 4 := Nat.mod_lt r (by omega)
  rw [hd, ← wordByte_readWord _ _ _ hlt, h (r / 4) (by omega), wordByte_readWord _ _ _ hlt]

/-! The mixed words of a part. -/

/-- The mixed words depend on the part's old bytes alone. -/
theorem mixedWord_congr {d : Dir} {key : Key} {m : MCount} {buf buf' : List Host.Cell} {off : Nat}
    (h : SameBytes off (4 * m.val) buf buf') {j : Nat} (hj : j < m.val) :
    mixedWord d key m buf' off j = mixedWord d key m buf off j := by
  refine roundFn_same (fun i hi => ?_) j hj
  have hm := m.le_16
  rw [word_loadV _ _ _ hm (by omega), word_loadV _ _ _ hm (by omega), if_pos hi, if_pos hi, h.readWord hi]

/-- Whether a part was mixed is seen in the key and the part's old and new bytes. -/
theorem mixed_congr {d : Dir} {m : MCount} {off : Nat} {s t s' t' : State} (h : Mixed d m off s t)
    (hkey : s'.key = s.key) (hs : SameBytes off (4 * m.val) s.buf s'.buf)
    (ht : SameBytes off (4 * m.val) t.buf t'.buf) : Mixed d m off s' t' := by
  intro j hj
  rw [ht.readWord hj, h j hj, hkey, mixedWord_congr hs hj]

/-- Two parts mixed with the same key from the same bytes end with the same bytes. -/
theorem mixed_sameBytes {d : Dir} {m : MCount} {off : Nat} {s t s' t' : State} (h : Mixed d m off s t)
    (h' : Mixed d m off s' t') (hkey : s'.key = s.key) (hs : SameBytes off (4 * m.val) s.buf s'.buf) :
    SameBytes off (4 * m.val) t.buf t'.buf :=
  sameBytes_of_readWord fun j hj => by rw [h j hj, h' j hj, hkey, mixedWord_congr hs hj]

/-- A part mixed for decryption after it was mixed for encryption holds its old bytes again (R84). -/
theorem mixed_restores {m : MCount} {off : Nat} {s t u : State} (h : Mixed .enc m off s t) (h' : Mixed .dec m off t u)
    (hkey : t.key = s.key) : SameBytes off (4 * m.val) s.buf u.buf := by
  have hm := m.le_16
  refine sameBytes_of_readWord fun j hj => ?_
  have hload : SameWords m.val (loadV t.buf off Work.reset m.val)
      (roundEnc s.key m (loadV s.buf off Work.reset m.val)) := fun i hi => by
    rw [word_loadV _ _ _ hm (by omega), if_pos hi]
    exact h i hi
  calc readWord u.buf (off + 4 * j)
      = (roundDec s.key m (loadV t.buf off Work.reset m.val)).word (BitVec.ofNat 4 j) := by rw [h' j hj, hkey]; rfl
    _ = (roundDec s.key m (roundEnc s.key m (loadV s.buf off Work.reset m.val))).word (BitVec.ofNat 4 j) :=
        roundFn_same (d := .dec) hload j hj
    _ = (loadV s.buf off Work.reset m.val).word (BitVec.ofNat 4 j) := roundDec_roundEnc _ _ _ j hj
    _ = readWord s.buf (off + 4 * j) := by rw [word_loadV _ _ _ hm (by omega), if_pos hj]

/-- The block operation mixes its words, whatever the working registers held (R17, R82, R83). -/
theorem mixed_block {s : State} (h : Memory.wf s.buf = true) (d : Dir) (off : Nat) (m : MCount) :
    Mixed d m off s (block d off m s) := by
  intro j hj
  have hm := m.le_16
  rw [readWord_block h _ _ _ _ hj]
  refine roundFn_same (fun i hi => ?_) j hj
  rw [word_loadV _ _ _ hm (by omega), word_loadV _ _ _ hm (by omega), if_pos hi, if_pos hi]

/-! The tail. -/

/-- The `n` bytes at offset `off` have gone through the delegate's function: `Tailed`, with any delegate. -/
def TailedBy (D : Config.Delegate) (d : Dir) (n off : Nat) (s t : State) : Prop :=
  ∀ k, (h : k < n) → readByte t.buf (off + k) = (tailFn D d s.key (spanAt s.buf off n))[k]

theorem tailedBy_delegate {d : Dir} {n off : Nat} {s t : State} :
    TailedBy Config.delegate d n off s t ↔ Tailed d n off s t := Iff.rfl

theorem spanAt_congr {off n : Nat} {buf buf' : List Host.Cell} (h : SameBytes off n buf buf') :
    spanAt buf' off n = spanAt buf off n :=
  Vector.ext fun i hi => by simpa [spanAt] using h i hi

/-- Whether a tail was transformed is seen in the key and the tail's old and new bytes. -/
theorem TailedBy.congr {D : Config.Delegate} {d : Dir} {n off : Nat} {s t s' t' : State} (h : TailedBy D d n off s t)
    (hkey : s'.key = s.key) (hs : SameBytes off n s.buf s'.buf) (ht : SameBytes off n t.buf t'.buf) :
    TailedBy D d n off s' t' := by
  intro k hk
  rw [ht k hk, h k hk, hkey, spanAt_congr hs]

/-- Two tails transformed with the same key from the same bytes end with the same bytes. -/
theorem TailedBy.sameBytes {D : Config.Delegate} {d : Dir} {n off : Nat} {s t s' t' : State}
    (h : TailedBy D d n off s t) (h' : TailedBy D d n off s' t') (hkey : s'.key = s.key)
    (hs : SameBytes off n s.buf s'.buf) : SameBytes off n t.buf t'.buf := by
  intro k hk
  rw [h k hk, h' k hk, hkey, spanAt_congr hs]

/-- A tail decrypted after it was encrypted holds its old bytes again, if the delegate keeps its contract (R97 (d)). -/
theorem TailedBy.restores {D : Config.Delegate} {n off : Nat} {s t u : State} (hD : TailContract D) (hn : n ≤ 7)
    (h : TailedBy D .enc n off s t) (h' : TailedBy D .dec n off t u) (hkey : t.key = s.key) :
    SameBytes off n s.buf u.buf := by
  intro k hk
  have hspan : spanAt t.buf off n = D.enc s.key n (spanAt s.buf off n) :=
    Vector.ext fun i hi => by simpa [spanAt, tailFn] using h i hi
  rw [h' k hk, hspan, hkey]
  simp only [tailFn, hD s.key n _ (by omega) hn]
  simp [spanAt]

/-- The answer's bytes on the port (R54). -/
theorem respond_rdata (D : Config.Delegate) (d : Dir) (len : BitVec 3) (s : State) {k : Nat} (hk : k < len.toNat) :
    (respond D d len s).port.rdata[k]? = some (tailFn D d s.port.tkey (s.port.span len))[k] := by
  have h7 : k < 7 := by have := len.isLt; omega
  simp [respond, h7, hk]

/-- The engine's request carries the tail's bytes (R53, R98). -/
theorem tailSend_span {len : BitVec 3} {s : State} (h : len.toNat ≤ s.work.left.toNat) :
    (tailSend s).port.span len = spanAt s.buf s.work.off.toNat len.toNat := by
  refine Vector.ext fun i hi => ?_
  simp [TailPort.span, tailSend, spanAt, show i < s.work.left.toNat by omega]

/-- The tail phase in its three acts, the length taken from the request's header (R98). -/
theorem tailPhase_acts (D : Config.Delegate) (s : State) :
    tailPhase D s = tailBack (respond D s.work.dir (s.work.left.setWidth 3) (tailSend s)) := by
  have h : tlenField (tailSend s).port.thdr = s.work.left.setWidth 3 := tlenField_tailHeader _ _
  simp only [tailPhase, h, tailSend_work]

/-- The tail phase sends the tail's bytes through the delegate's function (R98). -/
theorem tailedBy_tailPhase (D : Config.Delegate) {s : State} (h : Memory.wf s.buf = true)
    (hleft : s.work.left.toNat ≤ 7) : TailedBy D s.work.dir s.work.left.toNat s.work.off.toNat s (tailPhase D s) := by
  have hlen : (s.work.left.setWidth 3).toNat = s.work.left.toNat := by
    rw [BitVec.toNat_setWidth]
    exact Nat.mod_eq_of_lt (by omega)
  rw [← hlen]
  intro k hk
  rw [tailPhase_buf, readByte_writeBytes h _ _ _ _ hk, tailPhase_acts, tailBack_port, respond_rdata _ _ _ _ hk,
    tailSend_span (by omega)]
  rfl

/-! The dispatch: every part from its own old bytes. -/

/-- What `ENCRYPT` and `DECRYPT` leave, with any delegate: `Dispatched` with the delegate as an argument. -/
structure DispatchedBy (D : Config.Delegate) (d : Dir) (s t : State) : Prop where
  super : ∀ i, i < (partition s.count.toNat).full → Mixed d .sixteen (s.start.toNat + 64 * i) s t
  words : ∀ m : MCount, m.val = (partition s.count.toNat).nw →
    Mixed d m (s.start.toNat + 64 * (partition s.count.toNat).full) s t
  tail : TailedBy D d (partition s.count.toNat).tail
    (s.start.toNat + 64 * (partition s.count.toNat).full + 4 * (partition s.count.toNat).nw) s t
  outside : KeepsOutside s t s.count.toNat

theorem dispatchedBy_delegate {d : Dir} {s t : State} : DispatchedBy Config.delegate d s t ↔ Dispatched d s t :=
  ⟨fun h => ⟨h.super, h.words, h.tail, h.outside⟩, fun ⟨h1, h2, h3, h4⟩ => ⟨h1, h2, h3, h4⟩⟩

theorem superPhase_key (n : Nat) (s : State) : (superPhase n s).key = s.key := by rw [superPhase_eq]

/-- The super-blocks are each mixed from their own old bytes (R70). -/
theorem mixed_superPhase {n : Nat} {s : State} (hwf : Memory.wf s.buf = true)
    (ho : s.work.off.toNat + 64 * n ≤ 2 ^ 32) {i : Nat} (hi : i < n) :
    Mixed s.work.dir .sixteen (s.work.off.toNat + 64 * i) s (superPhase n s) := by
  have h16 : MCount.sixteen.val = 16 := rfl
  induction n with
  | zero => omega
  | succ n ih =>
    have hoff : (superPhase n s).work.off.toNat = s.work.off.toNat + 64 * n := superPhase_off_toNat (by omega)
    have hbuf : (superPhase (n + 1) s).buf =
        (block s.work.dir (s.work.off.toNat + 64 * n) .sixteen (superPhase n s)).buf := by
      rw [superPhase_succ, superBlock_buf, superPhase_dir, hoff]
    by_cases hin : i = n
    · subst hin
      refine mixed_congr (mixed_block (wf_superPhase i hwf) _ _ _) (superPhase_key i s).symm (fun r hr => ?_)
        fun r _ => by rw [hbuf]
      exact (readByte_superPhase_outside (by omega) (by omega)).symm
    · refine mixed_congr (ih (by omega) (by omega)) rfl (fun r hr => rfl) fun r hr => ?_
      rw [hbuf, readByte_block_outside _ _ _ _ _ (by omega)]

/-- How many of `left` bytes after the super-blocks are words of the words run (R66). -/
def runWords (left : Nat) : Nat := if 1 < left / 4 then left / 4 else 0

theorem partition_nw (count : Nat) : (partition count).nw = runWords (count % 64) := rfl

theorem partition_tail (count : Nat) : (partition count).tail = count % 64 - 4 * runWords (count % 64) := rfl

@[simp] theorem advanceWords_left (s : State) : (advanceWords s).work.left = s.work.left := rfl
@[simp] theorem advanceWords_dir (s : State) : (advanceWords s).work.dir = s.work.dir := rfl

/-- The state after the words run, before the tail. -/
def afterWords (s : State) (h : 1 < (enterWords s).work.nw.toNat) : State :=
  wordsBlock (nwCount (enterWords s) h) (enterWords s)

section
variable {s : State} (h : 1 < (enterWords s).work.nw.toNat)

theorem afterWords_buf :
    (afterWords s h).buf = (block s.work.dir s.work.off.toNat (nwCount (enterWords s) h) (enterWords s)).buf := by
  rw [afterWords, wordsBlock_buf]
  rfl

theorem afterWords_left : (afterWords s h).work.left.toNat = s.work.left.toNat % 4 := by
  rw [afterWords, wordsBlock_left_toNat (enterWords_nw_toNat s)]
  rfl

theorem afterWords_off (ho : s.work.off.toNat + s.work.left.toNat < 2 ^ 32) :
    (advanceWords (afterWords s h)).work.off.toNat = s.work.off.toNat + 4 * (s.work.left.toNat / 4) := by
  have hoff : (afterWords s h).work.off = s.work.off := by rw [afterWords, wordsBlock_off]; rfl
  have hnw : (afterWords s h).work.nw.toNat = s.work.left.toNat / 4 := by
    rw [afterWords, wordsBlock_nw, enterWords_nw_toNat]
  rw [advanceWords_off_toNat (by rw [hoff, hnw]; omega), hoff, hnw]

/-- The words run writes only its own words. -/
theorem afterWords_outside {c : Nat}
    (hc : c < s.work.off.toNat ∨ s.work.off.toNat + 4 * (s.work.left.toNat / 4) ≤ c) :
    readByte (afterWords s h).buf c = readByte s.buf c := by
  have hM : (nwCount (enterWords s) h).val = s.work.left.toNat / 4 := enterWords_nw_toNat s
  rw [afterWords_buf, readByte_block_outside _ _ _ _ _ (by rw [hM]; exact hc)]
  rfl

/-- The words run mixes its words from their own old bytes (R71). -/
theorem mixed_afterWords (hwf : Memory.wf s.buf = true) {m : MCount} (hm : m.val = s.work.left.toNat / 4) :
    Mixed s.work.dir m s.work.off.toNat s (afterWords s h) := by
  have hM : nwCount (enterWords s) h = m := by
    cases m
    simp only [nwCount, MCount.mk.injEq]
    exact (enterWords_nw_toNat s).trans hm.symm
  refine mixed_congr (mixed_block (s := enterWords s) hwf s.work.dir s.work.off.toNat m) rfl (fun r _ => rfl)
    fun r _ => ?_
  rw [afterWords_buf, hM]

theorem wf_afterWords (hwf : Memory.wf s.buf = true) : Memory.wf (afterWords s h).buf = true := by
  rw [afterWords_buf]
  exact wf_block (s := enterWords s) hwf _ _ _

end

/-- The words run and the tail are each made from their own old bytes (R71, R72). -/
theorem restPhase_parts (D : Config.Delegate) {s : State} (hwf : Memory.wf s.buf = true)
    (ho : s.work.off.toNat + s.work.left.toNat < 2 ^ 32) :
    (∀ m : MCount, m.val = runWords s.work.left.toNat → Mixed s.work.dir m s.work.off.toNat s (restPhase D s)) ∧
      TailedBy D s.work.dir (s.work.left.toNat - 4 * runWords s.work.left.toNat)
        (s.work.off.toNat + 4 * runWords s.work.left.toNat) s (restPhase D s) := by
  have hnw := enterWords_nw_toNat s
  by_cases h : 1 < (enterWords s).work.nw.toNat
  · have hrun : runWords s.work.left.toNat = s.work.left.toNat / 4 := if_pos (by omega)
    have hrest : restPhase D s = if (afterWords s h).work.left = 0 then afterWords s h else
        tailPhase D (advanceWords (afterWords s h)) := dif_pos h
    have hleft := afterWords_left h
    have htail : s.work.left.toNat - 4 * (s.work.left.toNat / 4) = s.work.left.toNat % 4 := by omega
    rw [hrun, hrest, htail]
    split
    · next h0 =>
      have h0 : s.work.left.toNat % 4 = 0 := by rw [← hleft, h0]; rfl
      exact ⟨fun m hm => mixed_afterWords h hwf hm, fun k hk => by omega⟩
    · have hoff := afterWords_off h ho
      have hdir : (afterWords s h).work.dir = s.work.dir := by rw [afterWords, wordsBlock_dir]; rfl
      have hkey : (afterWords s h).key = s.key := by rw [afterWords, wordsBlock_key]; rfl
      refine ⟨fun m hm => mixed_congr (mixed_afterWords h hwf hm) rfl (fun r _ => rfl) fun r hr => ?_, ?_⟩
      · exact readByte_tailPhase_outside D (.inl (by omega))
      · have ht := tailedBy_tailPhase D (s := advanceWords (afterWords s h)) (wf_afterWords h hwf)
          (by rw [advanceWords_left, hleft]; omega)
        rw [hoff, advanceWords_left, hleft, advanceWords_dir, hdir] at ht
        exact ht.congr hkey.symm (fun r _ => (afterWords_outside h (by omega)).symm) fun r _ => rfl
  · have hrun : runWords s.work.left.toNat = 0 := if_neg (by omega)
    have hrest : restPhase D s = tailPhase D (skipWords (enterWords s)) := dif_neg h
    rw [hrun, hrest]
    exact ⟨fun m hm => absurd m.two_le (by omega), tailedBy_tailPhase D (s := skipWords (enterWords s)) hwf
      (show s.work.left.toNat ≤ 7 by omega)⟩

/-- The state after the super-blocks of a dispatch. -/
def afterSupers (d : Dir) (s : State) : State := superPhase (s.count.toNat / 64) (dispatchBegin d s)

theorem dispatchParts_dispatchBegin (D : Config.Delegate) (d : Dir) (s : State) :
    dispatchParts D (dispatchBegin d s) =
      if (afterSupers d s).work.left = 0 then afterSupers d s else restPhase D (afterSupers d s) := by
  simp only [dispatchParts, dispatchBegin_full_toNat]
  rfl

section
variable {d : Dir} {s : State}

theorem afterSupers_left : (afterSupers d s).work.left.toNat = s.count.toNat % 64 := by
  rw [afterSupers, superPhase_left, dispatchBegin_left_toNat]

theorem afterSupers_dir : (afterSupers d s).work.dir = d := by
  rw [afterSupers, superPhase_dir]
  rfl

theorem afterSupers_key : (afterSupers d s).key = s.key := by
  rw [afterSupers, superPhase_key]
  rfl

theorem wf_afterSupers (hwf : Memory.wf s.buf = true) : Memory.wf (afterSupers d s).buf = true :=
  wf_superPhase (s := dispatchBegin d s) _ hwf

variable (hr : s.start.toNat + s.count.toNat < 2 ^ 32)
include hr

theorem afterSupers_off : (afterSupers d s).work.off.toNat = s.start.toNat + 64 * (s.count.toNat / 64) :=
  superPhase_off_toNat (s := dispatchBegin d s) (show s.start.toNat + 64 * (s.count.toNat / 64) < 2 ^ 32 by omega)

/-- The super-blocks leave the bytes beyond them. -/
theorem afterSupers_beyond {c : Nat} (hc : s.start.toNat + 64 * (s.count.toNat / 64) ≤ c) :
    readByte (afterSupers d s).buf c = readByte s.buf c :=
  readByte_superPhase_outside (s := dispatchBegin d s)
    (show s.start.toNat + 64 * (s.count.toNat / 64) ≤ 2 ^ 32 by omega) (.inr hc)

theorem mixed_afterSupers (hwf : Memory.wf s.buf = true) {i : Nat} (hi : i < s.count.toNat / 64) :
    Mixed d .sixteen (s.start.toNat + 64 * i) s (afterSupers d s) :=
  mixed_superPhase (s := dispatchBegin d s) hwf
    (show s.start.toNat + 64 * (s.count.toNat / 64) ≤ 2 ^ 32 by omega) hi

end

/-- All the parts of a dispatch, each from its own old bytes (R67). -/
theorem dispatchedBy_dispatchParts (D : Config.Delegate) (d : Dir) {s : State} (hwf : Memory.wf s.buf = true)
    (hr : s.start.toNat + s.count.toNat < 2 ^ 32) : DispatchedBy D d s (dispatchParts D (dispatchBegin d s)) := by
  have hfull : (partition s.count.toNat).full = s.count.toNat / 64 := rfl
  have h16 : MCount.sixteen.val = 16 := rfl
  have hreg := dispatchBegin_region d s
  have hoff := afterSupers_off (d := d) hr
  have hleft := afterSupers_left (d := d) (s := s)
  have outside : KeepsOutside s (dispatchParts D (dispatchBegin d s)) s.count.toNat := fun c hc =>
    readByte_dispatchParts_outside D (s := dispatchBegin d s) (by have := s.start.isLt; omega)
      (by rw [hreg]; exact hc)
  rw [dispatchParts_dispatchBegin] at outside ⊢
  split
  · next hl =>
    rw [if_pos hl] at outside
    have h0 : s.count.toNat % 64 = 0 := by rw [← hleft, hl]; rfl
    have hrun : runWords (s.count.toNat % 64) = 0 := by rw [h0]; rfl
    refine ⟨fun i hi => mixed_afterSupers hr hwf hi, fun m hm => ?_, fun k hk => ?_, outside⟩
    · exact absurd m.two_le (by rw [hm, partition_nw, hrun]; omega)
    · rw [partition_tail] at hk
      omega
  · next hl =>
    rw [if_neg hl] at outside
    obtain ⟨hwords, htail⟩ := restPhase_parts D (s := afterSupers d s) (wf_afterSupers hwf) (by omega)
    rw [hoff, hleft, afterSupers_dir] at hwords htail
    refine ⟨fun i hi => ?_, fun m hm => ?_, ?_, outside⟩
    · exact mixed_congr (mixed_afterSupers hr hwf hi) rfl (fun r _ => rfl) fun r hr' =>
        readByte_restPhase_outside D (by omega) (.inl (by omega))
    · exact mixed_congr (hwords m hm) afterSupers_key.symm
        (fun r _ => (afterSupers_beyond hr (by omega)).symm) fun r _ => rfl
    · exact htail.congr afterSupers_key.symm (fun r _ => (afterSupers_beyond hr (by omega)).symm) fun r _ => rfl

end Sys2Proof.Laws

/-! PROOF. The cipher commands case by case: the checks in order (R65, R85, R87, R104), the end of a command whose
region no other agent has written, and the dispatch commands as a map of their region (R66, R67). -/

namespace Sys2Proof.Laws

open Sys2Proof.Machine

/-! The region's bytes, part by part. -/

theorem sameBytes_iff {a n : Nat} {buf buf' : List Host.Cell} :
    SameBytes a n buf buf' ↔ ∀ c, a ≤ c → c < a + n → readByte buf' c = readByte buf c := by
  refine ⟨fun h c hac hc => ?_, fun h r hr => h _ (by omega) (by omega)⟩
  have := h (c - a) (by omega)
  rwa [Nat.add_sub_cancel' hac] at this

theorem SameBytes.sub {a n b k : Nat} {buf buf' : List Host.Cell} (h : SameBytes a n buf buf') (hb : a ≤ b)
    (hk : b + k ≤ a + n) : SameBytes b k buf buf' :=
  fun r _ => sameBytes_iff.1 h (b + r) (by omega) (by omega)

/-- A dispatch region is its super-blocks, its words run and its tail (R66, R73). -/
theorem sameBytes_of_parts {a count : Nat} {buf buf' : List Host.Cell}
    (super : ∀ i, i < (partition count).full → SameBytes (a + 64 * i) (4 * MCount.sixteen.val) buf buf')
    (words : ∀ m : MCount, m.val = (partition count).nw →
      SameBytes (a + 64 * (partition count).full) (4 * m.val) buf buf')
    (tail : SameBytes (a + 64 * (partition count).full + 4 * (partition count).nw) (partition count).tail buf buf') :
    SameBytes a count buf buf' := by
  obtain ⟨hcover, -, hnw, hone⟩ := partition_spec count
  have h16 : MCount.sixteen.val = 16 := rfl
  generalize partition count = q at *
  refine sameBytes_iff.2 fun c hac hc => ?_
  by_cases hsuper : c < a + 64 * q.full
  · exact sameBytes_iff.1 (super ((c - a) / 64) (by omega)) c (by omega) (by omega)
  · by_cases hwords : c < a + 64 * q.full + 4 * q.nw
    · exact sameBytes_iff.1 (words ⟨q.nw, by omega, by omega⟩ rfl) c (by omega) hwords
    · exact sameBytes_iff.1 tail c (by omega) (by omega)

/-- Two dispatches with the same call and the same bytes of the region end with the same bytes of the region (R8). -/
theorem DispatchedBy.sameBytes {D : Config.Delegate} {d : Dir} {s t s' t' : State} (h : DispatchedBy D d s t)
    (h' : DispatchedBy D d s' t') (hcall : SameCall s s')
    (hs : SameBytes s.start.toNat s.count.toNat s.buf s'.buf) :
    SameBytes s.start.toNat s.count.toNat t.buf t'.buf := by
  obtain ⟨hstart, hcount, hkey⟩ := hcall
  obtain ⟨super', words', tail', -⟩ := h'
  rw [hstart, hcount] at super' words' tail'
  obtain ⟨hcover, -, -, -⟩ := partition_spec s.count.toNat
  have h16 : MCount.sixteen.val = 16 := rfl
  refine sameBytes_of_parts (fun i hi => ?_) (fun m hm => ?_) ?_
  · exact mixed_sameBytes (h.super i hi) (super' i hi) hkey (hs.sub (by omega) (by omega))
  · exact mixed_sameBytes (h.words m hm) (words' m hm) hkey (hs.sub (by omega) (by omega))
  · exact h.tail.sameBytes tail' hkey (hs.sub (by omega) (by omega))

/-- A dispatch to decrypt, with the same call and from the buffer a dispatch to encrypt left, restores every byte (R9);
of the delegate it needs the contract, and that only where there is a tail. -/
theorem DispatchedBy.restores {D : Config.Delegate} {s t v u : State}
    (hD : TailContract D ∨ (partition s.count.toNat).tail = 0) (h : DispatchedBy D .enc s t)
    (h' : DispatchedBy D .dec v u) (hcall : SameCall s v) (hbuf : v.buf = t.buf) (a : Nat) :
    readByte u.buf a = readByte s.buf a := by
  obtain ⟨hstart, hcount, hkey⟩ := hcall
  obtain ⟨super', words', tail', outside'⟩ := h'
  rw [hstart, hcount] at super' words' tail'
  have hto : ∀ off n, SameBytes off n t.buf v.buf := fun _ _ _ _ => by rw [hbuf]
  by_cases hin : s.start.toNat ≤ a ∧ a < s.start.toNat + s.count.toNat
  · refine sameBytes_iff.1 (sameBytes_of_parts (fun i hi => ?_) (fun m hm => ?_) ?_) a hin.1 hin.2
    · exact mixed_restores (mixed_congr (h.super i hi) rfl (fun _ _ => rfl) (hto _ _)) (super' i hi) hkey
    · exact mixed_restores (mixed_congr (h.words m hm) rfl (fun _ _ => rfl) (hto _ _)) (words' m hm) hkey
    · rcases hD with hD | h0
      · exact (h.tail.congr rfl (fun _ _ => rfl) (hto _ _)).restores hD (partition_spec _).2.1 tail' hkey
      · rw [h0]
        exact fun k hk => absurd hk (Nat.not_lt_zero k)
  · rw [outside' a (by rw [hstart, hcount]; omega), hbuf, h.outside a (by omega)]

/-! The end of a cipher command (R128). -/

/-- What the parts of a cipher command write: the phase, the working registers, the port, the buffer and the free-value
counter, as in `CipherResult.done`. -/
def WritesParts (s u : State) : Prop :=
  u = { s with phase := u.phase, work := u.work, port := u.port, buf := u.buf, draws := u.draws }

section
variable {s u : State} (h : WritesParts s u)
include h

theorem WritesParts.call : SameCall s u := by
  rw [h]
  exact ⟨rfl, rfl, rfl⟩

theorem WritesParts.keyv : u.keyv = s.keyv := by rw [h]
theorem WritesParts.buflen : u.buflen = s.buflen := by rw [h]
theorem WritesParts.touched : u.touched = s.touched := by rw [h]
theorem WritesParts.fault : u.fault = s.fault := by rw [h]
theorem WritesParts.fcode : u.fcode = s.fcode := by rw [h]

end

theorem writesParts_block (d : Dir) (off : Nat) (m : MCount) (s : State) : WritesParts s (block d off m s) := by
  rw [WritesParts, block_eq]

theorem writesParts_dispatchParts (D : Config.Delegate) (d : Dir) (s : State) :
    WritesParts s (dispatchParts D (dispatchBegin d s)) := by
  rw [WritesParts, dispatchParts_eq]
  rfl

@[simp] theorem finishCipher_key (i : Instr) (s : State) : (finishCipher i s).key = s.key := by
  simp [finishCipher, finish]
@[simp] theorem finishCipher_keyv (i : Instr) (s : State) : (finishCipher i s).keyv = s.keyv := by
  simp [finishCipher, finish]
@[simp] theorem finishCipher_start (i : Instr) (s : State) : (finishCipher i s).start = s.start := by
  simp [finishCipher, finish]
@[simp] theorem finishCipher_count (i : Instr) (s : State) : (finishCipher i s).count = s.count := by
  simp [finishCipher, finish]
@[simp] theorem finishCipher_buflen (i : Instr) (s : State) : (finishCipher i s).buflen = s.buflen := by
  simp [finishCipher, finish]
@[simp] theorem finishCipher_fault (i : Instr) (s : State) : (finishCipher i s).fault = s.fault := by
  simp [finishCipher, finish]
@[simp] theorem finishCipher_fcode (i : Instr) (s : State) : (finishCipher i s).fcode = s.fcode := by
  simp [finishCipher, finish]
@[simp] theorem finishCipher_touched (i : Instr) (s : State) : (finishCipher i s).touched = [] := by
  simp [finishCipher, finish]

theorem wf_finishCipher (i : Instr) {s : State} (h : Memory.wf s.buf = true) :
    Memory.wf (finishCipher i s).buf = true := by
  simpa [finishCipher, finish] using wf_settle i s.touched h

/-- The bytes a command's parts left are the command's, if no other agent wrote its region. -/
theorem finishCipher_buf_of_owned {i : Instr} {s u : State} (hw : WritesParts s u) (ho : Owned i s) :
    (finishCipher i u).buf = u.buf := by
  obtain ⟨hstart, hcount, -⟩ := hw.call
  have hout : ∀ a ∈ u.touched, inRegion i u a = false := fun a ha => by
    rw [inRegion_congr hw.keyv hstart hcount hw.buflen]
    exact ho a (hw.touched ▸ ha)
  rw [finishCipher, finish_owned hout]
  simp

/-! `ENCRYPT` and `DECRYPT`, case by case (R65, R67). -/

theorem dispatchCommand_noKey (D : Config.Delegate) (i : Instr) (d : Dir) {s : State} (hk : s.keyv = false) :
    dispatchCommand D i d s = raiseFault .noKey s := by
  simp [dispatchCommand, dispatchCheck, hk]

theorem dispatchCommand_range (D : Config.Delegate) (i : Instr) (d : Dir) {s : State} (hk : s.keyv = true)
    (hr : ¬ InRange s s.count.toNat) : dispatchCommand D i d s = raiseFault .range s := by
  have hr : s.inRange s.count.toNat = false := decide_eq_false hr
  simp [dispatchCommand, dispatchCheck, hk, hr]

theorem dispatchCommand_done (D : Config.Delegate) (i : Instr) (d : Dir) {s : State} (hk : s.keyv = true)
    (hr : InRange s s.count.toNat) :
    dispatchCommand D i d s = finishCipher i (dispatchParts D (dispatchBegin d s)) := by
  have hr : s.inRange s.count.toNat = true := decide_eq_true hr
  simp [dispatchCommand, dispatchCheck, hk, hr, dispatchRun]

/-- A dispatch command in range makes every part from its own old bytes. -/
theorem dispatchedBy_dispatchCommand (D : Config.Delegate) {i : Instr} (d : Dir) {s : State} (hk : KeyLoaded s)
    (hr : InRange s s.count.toNat) (ho : Owned i s) (hwf : Memory.wf s.buf = true) :
    DispatchedBy D d s (dispatchCommand D i d s) := by
  have hb : (dispatchCommand D i d s).buf = (dispatchParts D (dispatchBegin d s)).buf := by
    rw [dispatchCommand_done D i d hk hr, finishCipher_buf_of_owned (writesParts_dispatchParts D d s) ho]
  have hr32 : s.start.toNat + s.count.toNat < 2 ^ 32 := Nat.lt_of_le_of_lt hr s.buflen.isLt
  obtain ⟨super, words, tail, outside⟩ := dispatchedBy_dispatchParts D d hwf hr32
  have hto : ∀ off n, SameBytes off n (dispatchParts D (dispatchBegin d s)).buf (dispatchCommand D i d s).buf :=
    fun _ _ _ _ => by rw [hb]
  exact ⟨fun j hj => mixed_congr (super j hj) rfl (fun _ _ => rfl) (hto _ _),
    fun m hm => mixed_congr (words m hm) rfl (fun _ _ => rfl) (hto _ _),
    tail.congr rfl (fun _ _ => rfl) (hto _ _), fun c hc => by rw [hb, outside c hc]⟩

/-- What a dispatch command in range leaves for the next one: the call, its checks passed, nothing disturbed. -/
theorem dispatchCommand_keeps_call (D : Config.Delegate) (i : Instr) (d : Dir) {s : State} (hk : KeyLoaded s)
    (hr : InRange s s.count.toNat) :
    SameCall s (dispatchCommand D i d s) ∧ KeyLoaded (dispatchCommand D i d s) ∧
      InRange (dispatchCommand D i d s) (dispatchCommand D i d s).count.toNat ∧
      (dispatchCommand D i d s).touched = [] := by
  have hw := writesParts_dispatchParts D d s
  obtain ⟨hstart, hcount, hkey⟩ := hw.call
  rw [dispatchCommand_done D i d hk hr]
  simpa [SameCall, KeyLoaded, InRange, hstart, hcount, hkey, hw.keyv, hw.buflen] using And.intro hk hr

theorem owned_of_untouched {i : Instr} {s : State} (h : s.touched = []) : Owned i s := fun a ha => by simp [h] at ha

theorem wf_dispatchCommand (D : Config.Delegate) (i : Instr) (d : Dir) {s : State} (hk : KeyLoaded s)
    (hr : InRange s s.count.toNat) (h : Memory.wf s.buf = true) : Memory.wf (dispatchCommand D i d s).buf = true := by
  rw [dispatchCommand_done D i d hk hr]
  exact wf_finishCipher i (wf_dispatchParts D (s := dispatchBegin d s) h)

/-- `DECRYPT` with the call of an `ENCRYPT` and from the buffer it left restores every byte (R9, R124). -/
theorem decrypt_restores {D : Config.Delegate} {s v : State}
    (hD : TailContract D ∨ (partition s.count.toNat).tail = 0) (hk : KeyLoaded s) (hr : InRange s s.count.toNat)
    (ho : Owned .encrypt s) (hwf : Memory.wf s.buf = true) (hcall : SameCall s v) (hkv : KeyLoaded v)
    (hrv : InRange v v.count.toNat) (hov : Owned .decrypt v)
    (hbuf : v.buf = (dispatchCommand D .encrypt .enc s).buf) (a : Nat) :
    readByte (dispatchCommand D .decrypt .dec v).buf a = readByte s.buf a := by
  have hwfv : Memory.wf v.buf = true := hbuf ▸ wf_dispatchCommand D .encrypt .enc hk hr hwf
  exact (dispatchedBy_dispatchCommand D .enc hk hr ho hwf).restores hD
    (dispatchedBy_dispatchCommand D .dec hkv hrv hov hwfv) hcall hbuf a

/-- `DECRYPT` right after `ENCRYPT` restores every byte (R9). -/
theorem decrypt_restores_at_once {D : Config.Delegate} {s : State}
    (hD : TailContract D ∨ (partition s.count.toNat).tail = 0) (hk : KeyLoaded s) (hr : InRange s s.count.toNat)
    (ho : Owned .encrypt s) (hwf : Memory.wf s.buf = true) (a : Nat) :
    readByte (dispatchCommand D .decrypt .dec (dispatchCommand D .encrypt .enc s)).buf a = readByte s.buf a := by
  obtain ⟨hcall, hkt, hrt, htouched⟩ := dispatchCommand_keeps_call D .encrypt .enc hk hr
  exact decrypt_restores hD hk hr ho hwf hcall hkt hrt (owned_of_untouched htouched) rfl a

/-- Settles O47: each part is made from its own old bytes by a map that decryption inverts; the parts cover the
region. -/
theorem decryptUndoesEncrypt : Obligations.DecryptUndoesEncrypt := by
  refine ⟨fun s => ⟨rfl, rfl⟩, fun D s hD hk hr ho hwf => ⟨decrypt_restores_at_once (.inl hD) hk hr ho hwf, ?_⟩, ?_⟩
  · exact fun v hcall hkv hrv hov hbuf => decrypt_restores (.inl hD) hk hr ho hwf hcall hkv hrv hov hbuf
  · exact fun s hk hr ho hwf h0 => ⟨_, _, rfl, rfl, decrypt_restores_at_once (.inr h0) hk hr ho hwf⟩

end Sys2Proof.Laws

/-! PROOF. What a cipher command leaves in its region, and whether and how it faults, depends on the key, the operands,
the buffer length and the region's bytes alone (R8, R24). -/

namespace Sys2Proof.Laws

open Sys2Proof.Machine

/-! The direct commands, case by case (R85, R87, R89). -/

section
variable (i : Instr) (d : Dir) {s : State}

theorem fixedCommand_noKey (hk : s.keyv = false) : fixedCommand i d s = raiseFault .noKey s := by
  simp [fixedCommand, hk]

theorem fixedCommand_guard (hk : s.keyv = true) (hg : ¬ InRange s 64) : fixedCommand i d s = finish i s := by
  have hg : s.guard = true := decide_eq_true (Nat.not_le.1 hg)
  simp [fixedCommand, hk, hg]

theorem fixedCommand_done (hk : s.keyv = true) (hr : InRange s 64) :
    fixedCommand i d s = finishCipher i (block d s.start.toNat .sixteen s) := by
  have hg : s.guard = false := decide_eq_false (Nat.not_lt.2 hr)
  simp [fixedCommand, hk, hg]

theorem wordsCommand_noKey (hk : s.keyv = false) : wordsCommand i d s = raiseFault .noKey s := by
  simp [wordsCommand, hk]

theorem wordsCommand_operand (hk : s.keyv = true) (hl : ¬ s.legalN) : wordsCommand i d s = raiseFault .operand s := by
  simp only [wordsCommand, hk, dif_neg hl, Bool.not_true, Bool.false_eq_true, if_false]

theorem wordsCommand_range (hk : s.keyv = true) (hl : s.legalN) (hr : ¬ InRange s (4 * s.count.toNat)) :
    wordsCommand i d s = raiseFault .range s := by
  have hr : s.inRange (4 * s.count.toNat) = false := decide_eq_false hr
  simp only [wordsCommand, hk, dif_pos hl, hr, Bool.not_true, Bool.false_eq_true, if_false, Bool.not_false, if_true]

theorem wordsCommand_done (hk : s.keyv = true) {m : MCount} (hm : m.val = s.count.toNat)
    (hr : InRange s (4 * m.val)) : wordsCommand i d s = finishCipher i (block d s.start.toNat m s) := by
  obtain ⟨n, h2, h16⟩ := m
  obtain rfl : n = s.count.toNat := hm
  have hr : s.inRange (4 * s.count.toNat) = true := decide_eq_true hr
  have hl : s.legalN := ⟨h2, h16⟩
  simp only [wordsCommand, hk, dif_pos hl, hr, Bool.not_true, Bool.false_eq_true, if_false]

end

/-! The regions of the commands that do their work. -/

section
variable {i : Instr} {s : State} (hk : s.keyv = true)
include hk

theorem footprint_dispatch (hi : i = .encrypt ∨ i = .decrypt) (hr : InRange s s.count.toNat) :
    footprint i s = s.count.toNat := by
  have hr : s.inRange s.count.toNat = true := decide_eq_true hr
  rcases hi with rfl | rfl <;> simp [footprint, hk, hr]

theorem footprint_fixed (hi : i = .encFixed ∨ i = .decFixed) (hr : InRange s 64) : footprint i s = 64 := by
  have hg : s.guard = false := decide_eq_false (Nat.not_lt.2 hr)
  rcases hi with rfl | rfl <;> simp [footprint, hk, hg]

theorem footprint_words (hi : i = .encWords ∨ i = .decWords) (hl : s.legalN) (hr : InRange s (4 * s.count.toNat)) :
    footprint i s = 4 * s.count.toNat := by
  have hr : s.inRange (4 * s.count.toNat) = true := decide_eq_true hr
  have hl : 2 ≤ s.count.toNat ∧ s.count.toNat ≤ 16 := hl
  rcases hi with rfl | rfl <;> simp [footprint, hk, hl, hr]

end

/-! Two runs of one command. -/

/-- The two states hold the same inputs of the command `i`: the call, the buffer length, whether a key is loaded, the
fault record, and the bytes of the region, which no other agent has written. -/
structure SameInputs (i : Instr) (s s' : State) : Prop where
  call : SameCall s s'
  buflen : s'.buflen = s.buflen
  keyv : s'.keyv = s.keyv
  fault : s'.fault = s.fault
  fcode : s'.fcode = s.fcode
  region : SameBytes s.start.toNat (footprint i s) s.buf s'.buf
  owned : Owned i s
  owned' : Owned i s'
  canonical : Memory.wf s.buf = true
  canonical' : Memory.wf s'.buf = true

/-- The two runs of a command launched in `s` end with the same fault record and the same bytes of the region. -/
structure SameResult (i : Instr) (s t t' : State) : Prop where
  fault : t'.fault = t.fault
  fcode : t'.fcode = t.fcode
  region : SameBytes s.start.toNat (footprint i s) t.buf t'.buf

section
variable {i : Instr} {s s' : State} (h : SameInputs i s s')
include h

theorem SameInputs.inRange (n : Nat) : InRange s' n ↔ InRange s n := by
  simp only [InRange, h.call.1, h.buflen]

theorem SameInputs.legalN : s'.legalN ↔ s.legalN := by
  simp only [State.legalN, h.call.2.1]

/-- A recorded fault leaves the buffer as it was (R105). -/
theorem sameResult_raiseFault (c : FCode) : SameResult i s (raiseFault c s) (raiseFault c s') where
  fault := rfl
  fcode := rfl
  region := h.region

/-- The guard's empty end leaves the buffer and the fault record as they were (R89). -/
theorem sameResult_finish : SameResult i s (finish i s) (finish i s') := by
  rw [finish_owned h.owned, finish_owned h.owned']
  exact ⟨h.fault, h.fcode, h.region⟩

/-- The end of a command whose parts made the same bytes. -/
theorem sameResult_finishCipher {u u' : State} (hu : WritesParts s u) (hu' : WritesParts s' u')
    (hb : SameBytes s.start.toNat (footprint i s) u.buf u'.buf) :
    SameResult i s (finishCipher i u) (finishCipher i u') where
  fault := by simp only [finishCipher_fault, hu.fault, hu'.fault, h.fault]
  fcode := by simp only [finishCipher_fcode, hu.fcode, hu'.fcode, h.fcode]
  region := by rwa [finishCipher_buf_of_owned hu h.owned, finishCipher_buf_of_owned hu' h.owned']

/-- One block operation on the whole region. -/
theorem sameResult_block (d : Dir) {m : MCount} (hm : footprint i s = 4 * m.val) :
    SameResult i s (finishCipher i (block d s.start.toNat m s)) (finishCipher i (block d s'.start.toNat m s')) := by
  obtain ⟨hstart, -, hkey⟩ := h.call
  refine sameResult_finishCipher h (writesParts_block ..) (writesParts_block ..) ?_
  have hs := h.region
  rw [hm] at hs ⊢
  rw [hstart]
  exact mixed_sameBytes (mixed_block h.canonical d _ m) (mixed_block h.canonical' d _ m) hkey hs

theorem fixedCommand_sameResult (d : Dir) (hi : i = .encFixed ∨ i = .decFixed) :
    SameResult i s (fixedCommand i d s) (fixedCommand i d s') := by
  cases hk : s.keyv with
  | false =>
    rw [fixedCommand_noKey i d hk, fixedCommand_noKey i d (h.keyv.trans hk)]
    exact sameResult_raiseFault h _
  | true =>
    have hk' := h.keyv.trans hk
    by_cases hr : InRange s 64
    · rw [fixedCommand_done i d hk hr, fixedCommand_done i d hk' ((h.inRange 64).2 hr)]
      exact sameResult_block h d (footprint_fixed hk hi hr)
    · rw [fixedCommand_guard i d hk hr, fixedCommand_guard i d hk' (mt (h.inRange 64).1 hr)]
      exact sameResult_finish h

theorem wordsCommand_sameResult (d : Dir) (hi : i = .encWords ∨ i = .decWords) :
    SameResult i s (wordsCommand i d s) (wordsCommand i d s') := by
  have hcount := h.call.2.1
  cases hk : s.keyv with
  | false =>
    rw [wordsCommand_noKey i d hk, wordsCommand_noKey i d (h.keyv.trans hk)]
    exact sameResult_raiseFault h _
  | true =>
    have hk' := h.keyv.trans hk
    by_cases hl : s.legalN
    · by_cases hr : InRange s (4 * s.count.toNat)
      · have hr' : InRange s' (4 * s.count.toNat) := (h.inRange _).2 hr
        rw [wordsCommand_done i d hk (m := ⟨s.count.toNat, hl.1, hl.2⟩) rfl hr,
          wordsCommand_done i d hk' (m := ⟨s.count.toNat, hl.1, hl.2⟩) (by rw [hcount]) hr']
        exact sameResult_block h d (footprint_words hk hi hl hr)
      · have hr' : ¬ InRange s' (4 * s'.count.toNat) := by rwa [hcount, h.inRange]
        rw [wordsCommand_range i d hk hl hr, wordsCommand_range i d hk' (h.legalN.2 hl) hr']
        exact sameResult_raiseFault h _
    · rw [wordsCommand_operand i d hk hl, wordsCommand_operand i d hk' (mt h.legalN.1 hl)]
      exact sameResult_raiseFault h _

theorem dispatchCommand_sameResult (D : Config.Delegate) (d : Dir) (hi : i = .encrypt ∨ i = .decrypt) :
    SameResult i s (dispatchCommand D i d s) (dispatchCommand D i d s') := by
  have hcount := h.call.2.1
  have hr' : InRange s' s'.count.toNat ↔ InRange s s.count.toNat := by rw [hcount, h.inRange]
  cases hk : s.keyv with
  | false =>
    rw [dispatchCommand_noKey D i d hk, dispatchCommand_noKey D i d (h.keyv.trans hk)]
    exact sameResult_raiseFault h _
  | true =>
    have hk' := h.keyv.trans hk
    by_cases hr : InRange s s.count.toNat
    · have hs := h.region
      rw [dispatchCommand_done D i d hk hr, dispatchCommand_done D i d hk' (hr'.2 hr)]
      refine sameResult_finishCipher h (writesParts_dispatchParts ..) (writesParts_dispatchParts ..) ?_
      rw [footprint_dispatch hk hi hr] at hs ⊢
      exact (dispatchedBy_dispatchParts D d h.canonical (Nat.lt_of_le_of_lt hr s.buflen.isLt)).sameBytes
        (dispatchedBy_dispatchParts D d h.canonical' (Nat.lt_of_le_of_lt (hr'.2 hr) s'.buflen.isLt)) h.call hs
    · rw [dispatchCommand_range D i d hk hr, dispatchCommand_range D i d hk' (mt hr'.1 hr)]
      exact sameResult_raiseFault h _

/-- Each of the six cipher commands gives the same result from the same inputs. -/
theorem exec_sameResult (hi : i ∈ [Instr.encrypt, .decrypt, .encFixed, .decFixed, .encWords, .decWords]) :
    ∃ t t', exec i s = .next t ∧ exec i s' = .next t' ∧ SameResult i s t t' := by
  simp only [List.mem_cons, List.not_mem_nil, or_false] at hi
  rcases hi with rfl | rfl | rfl | rfl | rfl | rfl
  · exact ⟨_, _, rfl, rfl, dispatchCommand_sameResult h _ _ (.inl rfl)⟩
  · exact ⟨_, _, rfl, rfl, dispatchCommand_sameResult h _ _ (.inr rfl)⟩
  · exact ⟨_, _, rfl, rfl, fixedCommand_sameResult h _ (.inl rfl)⟩
  · exact ⟨_, _, rfl, rfl, fixedCommand_sameResult h _ (.inr rfl)⟩
  · exact ⟨_, _, rfl, rfl, wordsCommand_sameResult h _ (.inl rfl)⟩
  · exact ⟨_, _, rfl, rfl, wordsCommand_sameResult h _ (.inr rfl)⟩

end

/-- Settles O50: the checks read only the inputs, and every part is a function of its old bytes and the key. -/
theorem resultDependsOnKeyOperandsAndRegion : Obligations.ResultDependsOnKeyOperandsAndRegion := by
  intro s s' i hi hcall hlen hkeyv ho ho' hwf hwf' hfault hfcode hregion
  obtain ⟨t, t', ht, ht', hres⟩ := exec_sameResult
    { call := hcall, buflen := hlen, keyv := hkeyv, fault := hfault, fcode := hfcode,
      region := sameBytes_iff.2 hregion, owned := ho, owned' := ho', canonical := hwf, canonical' := hwf' } hi
  exact ⟨t, t', ht, ht', hres.fault, hres.fcode, sameBytes_iff.1 hres.region⟩

end Sys2Proof.Laws

/-! PROOF. The delegate's moves when no unanswered request stands on the port (R7). -/

namespace Sys2Proof.Laws

open Sys2Proof.Machine

section
variable {s : State} (h : s.port.status ≠ .requested)
include h

theorem delegateMove_unasked : delegateMove s = .fault .answerUnasked := if_neg h

theorem answerMove_unasked (r : Vector Byte 7) : answerMove r s = .fault .answerUnasked := if_neg h

end

theorem step_scheduled {s : State} {mv : Move} {rest : List Move} (h : s.todo = mv :: rest) :
    step s = makeMove mv { s with todo := rest } := by
  simp only [step, runMove, h]

/-- Settles O14: taking a move off the schedule leaves the port, on which no unanswered request stands. -/
theorem unaskedAnswersStop : Obligations.UnaskedAnswersStop := by
  rintro s r rest hport (h | h)
  · exact (step_scheduled h).trans (delegateMove_unasked (s := { s with todo := rest }) hport)
  · exact (step_scheduled h).trans (answerMove_unasked (s := { s with todo := rest }) hport r)

end Sys2Proof.Laws

/-! PROOF. What the end of a command and the six cipher commands leave (R26, R105, R128): the registers, the engine at
rest, and every byte outside the region. -/

namespace Sys2Proof.Laws

open Sys2Proof.Machine

/-! The parts of a command keep the registers and the host's side. -/

section
variable {s u : State} (h : WritesParts s u)
include h

theorem WritesParts.keyin : u.keyin = s.keyin := by rw [h]
theorem WritesParts.busy : u.busy = s.busy := by rw [h]
theorem WritesParts.inflight : u.inflight = s.inflight := by rw [h]
theorem WritesParts.faulted : u.faulted = s.faulted := by rw [h]
theorem WritesParts.todo : u.todo = s.todo := by rw [h]
theorem WritesParts.hostWord : u.hostWord = s.hostWord := by rw [h]
theorem WritesParts.hostByte : u.hostByte = s.hostByte := by rw [h]

end

/-! The engine at rest after a fault and after the end of a command. -/

theorem atRest_toIdle (s : State) : AtRest s.toIdle := ⟨rfl, rfl, rfl, rfl, rfl⟩

theorem atRest_raiseFault (c : FCode) (s : State) : AtRest (raiseFault c s) := ⟨rfl, rfl, rfl, rfl, rfl⟩

/-- A fault records its code and nothing else (R105). -/
theorem faultRecorded_raiseFault (c : FCode) (s : State) : FaultRecorded c.code s (raiseFault c s) := rfl

/-- The end of a command writes no register but the sequencing ones (R128). -/
theorem keepsRegisters_finish (i : Instr) (s : State) : KeepsRegisters s (finish i s) := by
  simp [KeepsRegisters, AtRest, finish]

theorem keepsRegisters_finishCipher (i : Instr) {s u : State} (h : WritesParts s u) :
    KeepsRegisters s (finishCipher i u) := by
  obtain ⟨hstart, hcount, hkey⟩ := h.call
  simp [KeepsRegisters, AtRest, finishCipher, finish, hstart, hcount, hkey, h.keyv, h.keyin, h.buflen, h.fault,
    h.fcode, h.faulted, h.todo, h.hostWord, h.hostByte]

/-- The end of a command writes no byte outside its region (R38). -/
theorem readByte_finishCipher_outside (i : Instr) (s : State) {c : Nat}
    (hc : c < s.start.toNat ∨ s.start.toNat + footprint i s ≤ c) :
    readByte (finishCipher i s).buf c = readByte s.buf c := by
  simpa [finishCipher, finish] using readByte_settle_outside i s.touched s c hc

theorem inSpace_finishCipher (i : Instr) {s : State} (h : Memory.inSpace s.buf = true) :
    Memory.inSpace (finishCipher i s).buf = true := by
  simpa [finishCipher, finish] using inSpace_settle i s.touched h

/-! What a cipher command leaves, whichever way it ends. -/

/-- A cipher command keeps the registers or records a fault (R26, R105). -/
theorem CipherResult.registers {i : Instr} {s t : State} (h : CipherResult i s t) :
    KeepsRegisters s t ∨ ∃ c, t = raiseFault c s := by
  cases h with
  | fault c _ => exact .inr ⟨c, rfl⟩
  | guard _ => exact .inl (keepsRegisters_finish i s)
  | done u frame _ _ _ => exact .inl (keepsRegisters_finishCipher i frame)

/-- A cipher command writes no byte outside its region (R38). -/
theorem CipherResult.keepsOutside {i : Instr} {s t : State} (h : CipherResult i s t) :
    KeepsOutside s t (footprint i s) := by
  intro c hc
  cases h with
  | fault _ _ => rfl
  | guard h0 => rw [finish_of_footprint_zero h0, toIdle_buf]
  | done u frame _ _ outside =>
    have hw : WritesParts s u := frame
    obtain ⟨hstart, hcount, -⟩ := hw.call
    rw [readByte_finishCipher_outside i u (by rwa [footprint_congr hw.keyv hstart hcount hw.buflen, hstart]),
      outside c hc]

/-- A cipher command keeps the buffer canonical and inside the offset space (R30, R36). -/
theorem CipherResult.buffer {i : Instr} {s t : State} (h : CipherResult i s t) (hwf : Memory.wf s.buf = true)
    (hsp : Memory.inSpace s.buf = true) : Memory.wf t.buf = true ∧ Memory.inSpace t.buf = true := by
  cases h with
  | fault _ _ => exact ⟨hwf, hsp⟩
  | guard h0 => rw [finish_of_footprint_zero h0, toIdle_buf]; exact ⟨hwf, hsp⟩
  | done u _ canonical inSpace _ => exact ⟨wf_finishCipher i (canonical hwf), inSpace_finishCipher i (inSpace hsp)⟩

/-- Settles O52: each of the three ways a cipher command can end keeps the registers, and so does a recorded fault. -/
theorem cipherCommandsFrame : Obligations.CipherCommandsFrame := by
  intro s t i hi ht
  have hres := exec_cipher hi ht
  have hout := hres.keepsOutside
  rcases hres.registers with hkeep | ⟨c, rfl⟩
  · obtain ⟨hkey, hkeyv, hkeyin, hstart, hcount, hbuflen, hfault, hfcode, hfaulted, htodo, hword, hbyte, hrest⟩ :=
      hkeep
    exact ⟨hkey, hkeyv, hkeyin, hstart, hcount, hbuflen, htodo, hword, hbyte, hrest, hout,
      .inl ⟨hfault, hfcode, hfaulted⟩⟩
  · exact ⟨rfl, rfl, rfl, rfl, rfl, rfl, rfl, rfl, rfl, atRest_raiseFault c s, hout,
      .inr ⟨_, faultRecorded_raiseFault c s⟩⟩

theorem dispatchCommand_keepsRegisters (D : Config.Delegate) (i : Instr) (d : Dir) {s : State} (hk : s.keyv = true)
    (hr : InRange s s.count.toNat) : KeepsRegisters s (dispatchCommand D i d s) := by
  rw [dispatchCommand_done D i d hk hr]
  exact keepsRegisters_finishCipher i (writesParts_dispatchParts D d s)

/-- Settles O46: with the connected delegate, a dispatch in range makes each part from its own old bytes. -/
theorem dispatchTransformsEveryPart : Obligations.DispatchTransformsEveryPart := by
  intro s hk hr he hd hwf
  exact ⟨⟨_, rfl, dispatchedBy_delegate.1 (dispatchedBy_dispatchCommand _ .enc hk hr he hwf),
      dispatchCommand_keepsRegisters _ _ _ hk hr⟩,
    ⟨_, rfl, dispatchedBy_delegate.1 (dispatchedBy_dispatchCommand _ .dec hk hr hd hwf),
      dispatchCommand_keepsRegisters _ _ _ hk hr⟩⟩

/-- Settles O34: rounds that start from the same words, `SUM` and neighbour stay the same on those words. -/
theorem roundFunctionReadsOnlyItsWords : Obligations.RoundFunctionReadsOnlyItsWords :=
  fun _ _ _ _ _ h => roundFn_same h

end Sys2Proof.Laws

/-! PROOF. The round function with operand count `m` leaves the words `V[m..15]` alone (R12, R78). -/

namespace Sys2Proof.Laws

open Sys2Proof.Machine

/-- Two sets of working registers agree on the words from `n` on. -/
def SameBeyond (n : Nat) (w w' : Work) : Prop :=
  ∀ i, n ≤ i → i < 16 → w.word (BitVec.ofNat 4 i) = w'.word (BitVec.ofNat 4 i)

theorem SameBeyond.refl (n : Nat) (w : Work) : SameBeyond n w w := fun _ _ _ => rfl

theorem SameBeyond.trans {n : Nat} {w w' w'' : Work} (h : SameBeyond n w w') (h' : SameBeyond n w' w'') :
    SameBeyond n w w'' := fun i hn hi => (h i hn hi).trans (h' i hn hi)

theorem SameBeyond.of_v {n : Nat} {w w' : Work} (h : w.v = w'.v) : SameBeyond n w w' := fun _ _ _ => word_of_v h _

theorem ofNat4_ne_of_lt {n p i : Nat} (hp : p < n) (hn : n ≤ i) (hi : i < 16) :
    BitVec.ofNat 4 i ≠ BitVec.ofNat 4 p := fun e => by
  have := (ofNat4_inj hi (by omega)).1 e
  omega

section
variable {key : Key} {n p : Nat}

/-- A word update of encryption at an index below `n` leaves the words from `n` on (R80). -/
theorem encWord_beyond (hp : p < n) (next : BitVec 4) (w : Work) :
    SameBeyond n (encWord key (BitVec.ofNat 4 p) next w) w := fun i hn hi => by
  rw [word_encWord, if_neg (ofNat4_ne_of_lt hp hn hi)]

/-- A word update of decryption at an index below `n` leaves the words from `n` on (R81). -/
theorem decWord_beyond (hp : p < n) (prev : BitVec 4) (w : Work) :
    SameBeyond n (decWord key (BitVec.ofNat 4 p) prev w) w := fun i hn hi => by
  rw [word_decWord, if_neg (ofNat4_ne_of_lt hp hn hi)]

theorem encWordsUpTo_beyond {k : Nat} (hk : k ≤ n) (w : Work) : SameBeyond n (encWordsUpTo key w k) w := by
  induction k with
  | zero => exact .refl _ _
  | succ k ih => exact (encWord_beyond hk _ _).trans (ih (by omega))

theorem decWordsFrom_beyond {k : Nat} (hk : k < n) (w : Work) : SameBeyond n (decWordsFrom key w k) w := by
  induction k generalizing w with
  | zero => exact .refl _ _
  | succ k ih => exact (ih (by omega) _).trans (decWord_beyond hk _ w)

end

section
variable (key : Key) (m : MCount)

theorem encRound_beyond (w : Work) : SameBeyond m.val (encRound key m w) w :=
  (encWord_beyond (lastIndex_lt m) _ _).trans
    ((encWordsUpTo_beyond (Nat.sub_le m.val 1) _).trans (.of_v (encHead_v w)))

theorem decRound_beyond (w : Work) : SameBeyond m.val (decRound key m w) w :=
  have hm := lastIndex_lt m
  (SameBeyond.of_v (decStepBack_v _)).trans
    ((decWord_beyond (p := 0) (Nat.zero_lt_of_lt hm) _ _).trans
      ((decWordsFrom_beyond hm _).trans (.of_v (decHead_v w))))

theorem encRounds_beyond (w : Work) (r : Nat) : SameBeyond m.val (encRounds key m w r) w := by
  induction r with
  | zero => exact .refl _ _
  | succ r ih => exact (encRound_beyond key m _).trans ih

theorem decLoop_beyond (fuel : Nat) (w : Work) : SameBeyond m.val (decLoop key m fuel w) w := by
  induction fuel generalizing w with
  | zero => exact .refl _ _
  | succ fuel ih =>
    simp only [decLoop]
    split
    · exact decRound_beyond key m w
    · exact (ih _).trans (decRound_beyond key m w)

theorem roundFn_beyond (d : Dir) (w : Work) : SameBeyond m.val (roundFn d key m w) w := by
  cases d with
  | enc => exact (encRounds_beyond key m _ _).trans (.of_v (encInit_v m w))
  | dec => exact (decLoop_beyond key m _ _).trans (.of_v (decInit_v m w))

end

/-- Settles O33: every word update of a round is at an index below `m`, and the load writes the first `m` words. -/
theorem roundFunctionKeepsTheOtherWords : Obligations.RoundFunctionKeepsTheOtherWords := by
  intro d key m w buf off i hm hi
  exact ⟨roundFn_beyond key m d w i hm hi, by rw [word_loadV _ _ _ m.le_16 hi, if_neg (Nat.not_lt.2 hm)]⟩

end Sys2Proof.Laws

/-! PROOF. The host's register writes (R50, R51) and reset (R25, R116, R117). -/

namespace Sys2Proof.Laws

open Sys2Proof.Machine

/-- The register map as a chain of offsets (R50). -/
theorem regAt_eq : ∀ off : BitVec 6, regAt off =
    if off = 0x00 then .cmd else if off = 0x04 then .status else if off = 0x08 then .start
    else if off = 0x0C then .count else if off = 0x10 then .buflen else if off = 0x20 then .keyin 0
    else if off = 0x24 then .keyin 1 else if off = 0x28 then .keyin 2 else if off = 0x2C then .keyin 3
    else .reserved := by decide

theorem regAt_eq_cmd : ∀ off : BitVec 6, regAt off = .cmd ↔ off = 0x00 := by decide

/-- A host write to an idle engine, waiting or not, at an aligned offset that is not `CMD`'s (R51). -/
theorem hostWrite_idle {s : State} {off : BitVec 6} (wait : Bool) (v : Word) (hb : s.busy = false)
    (ha : off.toNat % 4 = 0) (h0 : off ≠ 0x00) : hostWrite wait off v s = .next (writeReg (regAt off) v s) := by
  have hc : regAt off ≠ .cmd := mt (regAt_eq_cmd off).1 h0
  simp [hostWrite, regAligned, ha, hb, hc]

/-- Settles O10: the write reaches the register at its offset, which the register map gives. -/
theorem hostWritesSetTheOperandRegisters : Obligations.HostWritesSetTheOperandRegisters := by
  intro s off v rest hb ha h0 htodo
  have hstep : step s = .next (writeReg (regAt off) v { s with todo := rest }) := by
    rcases htodo with h | h
    · exact (step_scheduled h).trans (hostWrite_idle true v hb ha h0)
    · exact (step_scheduled h).trans (hostWrite_idle false v hb ha h0)
  rw [hstep, regAt_eq, if_neg h0]
  by_cases h4 : off = 0x04
  · subst h4; rfl
  · rw [if_neg h4]
    split_ifs <;> rfl

/-! Reset. -/

/-- Settles O17: the values stand in `State.reset`. -/
theorem resetStateHoldsTheResetValues : Obligations.ResetStateHoldsTheResetValues :=
  ⟨rfl, rfl, rfl, rfl, rfl, rfl, rfl, rfl, rfl⟩

theorem atRest_assertReset (s : State) : AtRest (assertReset s) := ⟨rfl, rfl, rfl, rfl, rfl⟩

/-- An abandoned command changes the buffer and draws free values, nothing else (R117). -/
theorem abandon_eq (s : State) : abandon s = { s with buf := (abandon s).buf, draws := (abandon s).draws } := by
  simp only [abandon]
  split <;> rfl

theorem abandon_idle {s : State} (h : s.inflight = none) : abandon s = s := by simp only [abandon, h]

theorem abandon_busy {s : State} {i : Instr} (h : s.inflight = some i) :
    abandon s = s.forgetBytes s.start.toNat (footprint i s) := by simp only [abandon, h]

@[simp] theorem assertReset_buf (s : State) : (assertReset s).buf = (abandon s).buf := rfl

theorem assertReset_buf_idle {s : State} (h : s.inflight = none) : (assertReset s).buf = s.buf := by
  rw [assertReset_buf, abandon_idle h]

@[simp] theorem assertReset_sent (s : State) : (assertReset s).port.sent = s.port.sent :=
  congrArg (fun t => t.port.sent) (abandon_eq s)

@[simp] theorem assertReset_todo (s : State) : (assertReset s).todo = s.todo :=
  congrArg (fun t => t.todo) (abandon_eq s)

@[simp] theorem assertReset_faulted (s : State) : (assertReset s).faulted = s.faulted :=
  congrArg (fun t => t.faulted) (abandon_eq s)

/-- `STATUS` after reset is that of `State.reset` (R25, R116). -/
theorem assertReset_status (s : State) : (assertReset s).status = State.reset.status := rfl

theorem keepsOutside_assertReset {s : State} {i : Instr} (h : s.inflight = some i) :
    KeepsOutside s (assertReset s) (footprint i s) := fun c hc => by
  rw [assertReset_buf, abandon_busy h, forgetBytes_buf, readByte_writeBytes_outside _ _ _ _ _ hc]

/-- Settles O20: reset builds its state from `State.reset`, and abandoning a command writes its region only. -/
theorem assertingResetClearsTheEngine : Obligations.AssertingResetClearsTheEngine := by
  intro s rest htodo
  refine ⟨_, step_scheduled htodo, rfl, rfl, rfl, rfl, rfl, rfl, assertReset_status _, atRest_assertReset _,
    assertReset_sent _, assertReset_todo _, fun hidle => ?_, fun i hi => ?_⟩
  · exact assertReset_buf_idle (s := { s with todo := rest }) hidle
  · have hf : footprint i { s with todo := rest } = footprint i s := footprint_congr rfl rfl rfl rfl
    exact hf ▸ keepsOutside_assertReset (s := { s with todo := rest }) hi

end Sys2Proof.Laws

/-! PROOF. What each agent's move can do, said once (R51, R60, R95, R127), and which moves change the key (R10,
R116). -/

namespace Sys2Proof.Laws

open Sys2Proof.Machine

/-! The control commands and the delegate's operations. -/

theorem exec_nop (s : State) : exec .nop s = .next s.toIdle :=
  congrArg Host.Outcome.next (finish_of_footprint_zero rfl)

theorem exec_loadkey (s : State) : exec .loadkey s = .next { s with key := s.keyin, keyv := true }.toIdle :=
  congrArg Host.Outcome.next (finish_of_footprint_zero rfl)

theorem exec_clrf (s : State) : exec .clrf s = .next (clearFault s).toIdle :=
  congrArg Host.Outcome.next (finish_of_footprint_zero rfl)

/-- An instruction is a control command, a cipher command or one of the delegate's operations (R47, R53). -/
theorem instr_cases (i : Instr) :
    i = .nop ∨ i = .loadkey ∨ i = .clrf ∨
      i ∈ [Instr.encrypt, .decrypt, .encFixed, .decFixed, .encWords, .decWords] ∨ i.isCommand = false := by
  cases i <;> simp [Instr.isCommand]

/-- The delegate's operations answer the request (R96, R97). -/
theorem exec_tail {i : Instr} (hi : i.isCommand = false) (s : State) :
    ∃ d len, exec i s = .next (respond Config.delegate d len s) := by
  cases i with
  | tailEnc len => exact ⟨.enc, len, rfl⟩
  | tailDec len => exact ⟨.dec, len, rfl⟩
  | _ => exact absurd hi (by decide)

theorem decodeTail_isCommand (h : BitVec 4) : (decodeTail h).isCommand = false := by
  simp only [decodeTail]
  split <;> rfl

/-! Command words (R46, R47). -/

theorem decodeOp_isCommand {op : BitVec 4} {i : Instr} (h : decodeOp op = .ok i) : i.isCommand = true := by
  simp only [decodeOp] at h
  split at h <;> cases h <;> rfl

theorem decodeCmd_ok {w : Word} {i : Instr} (h : decodeCmd w = .ok i) :
    rsvField w = 0 ∧ decodeOp (opField w) = .ok i := by
  simp only [decodeCmd] at h
  split at h
  · next hr => exact ⟨hr, h⟩
  · cases h

theorem decodeCmd_isCommand {w : Word} {i : Instr} (h : decodeCmd w = .ok i) : i.isCommand = true :=
  decodeOp_isCommand (decodeCmd_ok h).2

theorem decodeOp_eq_loadkey : ∀ op : BitVec 4, decodeOp op = .ok .loadkey → op = 1 := by decide

/-- The only word that decodes to `LOADKEY` (R47). -/
theorem decodeCmd_eq_loadkey {w : Word} (h : decodeCmd w = .ok .loadkey) : w = 1 := by
  obtain ⟨hrsv, hop⟩ := decodeCmd_ok h
  have hop := decodeOp_eq_loadkey _ hop
  have hhigh : (rsvField w).toNat = 0 := by rw [hrsv]; rfl
  have hlow : (opField w).toNat = 1 := by rw [hop]; rfl
  simp only [rsvField, opField, BitVec.extractLsb'_toNat, Nat.shiftRight_eq_div_pow] at hhigh hlow
  refine BitVec.eq_of_toNat_eq (show w.toNat = 1 from ?_)
  omega

/-! What each agent's move can do. -/

/-- What a host write of `v` at the offset `off` can make of the state (R51, R60, R106). -/
inductive HostWriteResult (wait : Bool) (off : BitVec 6) (v : Word) (s : State) : State → Prop
  | ignored : HostWriteResult wait off v s s
  | register (idle : s.busy = false) : HostWriteResult wait off v s (writeReg (regAt off) v s)
  | clrf (idle : s.busy = false) {t : State} (ht : exec .clrf s = .next t) : HostWriteResult wait off v s t
  | illegal (idle : s.busy = false) : HostWriteResult wait off v s (raiseFault .illCmd s)
  | posted (i : Instr) (idle : s.busy = false) (noFault : s.fault = false) (hi : decodeCmd v = .ok i) :
      HostWriteResult wait off v s (launch i s)
  | run (i : Instr) (idle : s.busy = false) (noFault : s.fault = false) (hi : decodeCmd v = .ok i) (hwait : wait = true)
      (hoff : off = 0x00) {t : State} (ht : exec i (launch i s) = .next t) : HostWriteResult wait off v s t

theorem cmdWrite_result {wait : Bool} {v : Word} {s t : State} (h : cmdWrite wait v s = .next t) :
    HostWriteResult wait 0x00 v s t := by
  simp only [cmdWrite] at h
  split at h
  · cases h; exact .ignored
  next hb =>
  have hb : s.busy = false := by simpa using hb
  split at h
  · split at h
    · exact .clrf hb h
    · cases h; exact .ignored
  next hf =>
  have hf : s.fault = false := by simpa using hf
  split at h
  · cases h; exact .illegal hb
  next i hi =>
  split at h
  · next hw => exact .run i hb hf hi hw rfl h
  · cases h; exact .posted i hb hf hi

theorem hostWrite_result {wait : Bool} {off : BitVec 6} {v : Word} {s t : State}
    (h : hostWrite wait off v s = .next t) : HostWriteResult wait off v s t := by
  simp only [hostWrite] at h
  split at h
  · cases h
  split at h
  · cases h; exact .ignored
  next hb =>
  split at h
  · next hc => exact (regAt_eq_cmd off).1 hc ▸ cmdWrite_result h
  · cases h; exact .register (by simpa using hb)

theorem hostRead_result {off : BitVec 6} {s t : State} (h : hostRead off s = .next t) :
    t = { s with hostWord := readReg (regAt off) s } := by
  simp only [hostRead] at h
  split at h
  · cases h
  · cases h; rfl

/-- A host's buffer read changes only what the host holds and the free-value counter (R131). -/
theorem peek_eq (a : Word) (s : State) :
    peek a s = { s with hostByte := (peek a s).hostByte, draws := (peek a s).draws } := by
  simp only [peek]
  split <;> rfl

/-- The dispatch command of a direction (R67, R68). -/
def dispatchOf : Dir → Instr
  | .enc => .encrypt
  | .dec => .decrypt

theorem dispatchOf_inj {d d' : Dir} (h : dispatchOf d = dispatchOf d') : d = d' := by
  cases d <;> cases d' <;> simp [dispatchOf] at h ⊢

/-- What the engine's move can make of the state: it waits, a dispatch command goes on by one part, or another command
runs (R39, R118). -/
inductive EngineMoveResult (s : State) : State → Prop
  | waits (idle : s.inflight = none) : EngineMoveResult s s
  | part (d : Dir) (hi : s.inflight = some (dispatchOf d)) : EngineMoveResult s (dispatchMove (dispatchOf d) d s)
  | run (i : Instr) (hi : s.inflight = some i) {t : State} (ht : exec i s = .next t) : EngineMoveResult s t

theorem engineMove_result {s t : State} (h : engineMove s = .next t) : EngineMoveResult s t := by
  simp only [engineMove] at h
  split at h
  · next hi => cases h; exact .waits hi
  · next hi => cases h; exact .part .enc hi
  · next hi => cases h; exact .part .dec hi
  · next i _ _ hi => exact .run i hi h

/-- The delegate answers a standing request (R95). -/
theorem delegateMove_result {s t : State} (h : delegateMove s = .next t) :
    s.port.status = .requested ∧ ∃ d len, t = respond Config.delegate d len s := by
  simp only [delegateMove] at h
  split at h
  · next hp =>
    obtain ⟨d, len, ht⟩ := exec_tail (decodeTail_isCommand s.port.thdr) s
    rw [ht] at h
    cases h
    exact ⟨hp, d, len, rfl⟩
  · cases h

theorem answerMove_result {r : Vector Byte 7} {s t : State} (h : answerMove r s = .next t) :
    s.port.status = .requested ∧ t = { s with port := { s.port with status := .answered, rdata := r } } := by
  simp only [answerMove] at h
  split at h
  · next hp => cases h; exact ⟨hp, rfl⟩
  · cases h

/-- With nothing scheduled the delegate answers or the engine goes on (R118). -/
theorem ownMove_result {s t : State} (h : ownMove s = .next t) :
    delegateMove s = .next t ∨ engineMove s = .next t := by
  simp only [ownMove] at h
  split at h
  · exact .inl h
  · exact .inr h

theorem step_unscheduled {s : State} (h : s.todo = []) : step s = ownMove s := by
  simp only [step, runMove, h]

/-! The key. -/

/-- `KEY` and `KEYV` are as before. -/
def KeepsKey (s t : State) : Prop := t.key = s.key ∧ t.keyv = s.keyv

/-- `KEY` is what stood in `KEYIN0..3`, and `KEYV` is 1 (R62). -/
def LoadsKey (s t : State) : Prop := t.key = s.keyin ∧ t.keyv = true

theorem KeepsKey.refl (s : State) : KeepsKey s s := ⟨rfl, rfl⟩

/-- No command but `LOADKEY` writes the key (R10, R26). -/
theorem exec_keepsKey {i : Instr} {s t : State} (hi : i ≠ .loadkey) (h : exec i s = .next t) : KeepsKey s t := by
  rcases instr_cases i with rfl | rfl | rfl | hc | htail
  · rw [exec_nop] at h; cases h; exact ⟨rfl, rfl⟩
  · exact absurd rfl hi
  · rw [exec_clrf] at h; cases h; exact ⟨rfl, rfl⟩
  · rcases (exec_cipher hc h).registers with hkeep | ⟨c, rfl⟩
    · obtain ⟨hkey, hkeyv, -⟩ := hkeep
      exact ⟨hkey, hkeyv⟩
    · exact ⟨rfl, rfl⟩
  · obtain ⟨d, len, ht⟩ := exec_tail htail s
    rw [ht] at h; cases h; exact ⟨rfl, rfl⟩

theorem exec_loadkey_loadsKey {s t : State} (h : exec .loadkey s = .next t) : LoadsKey s t := by
  rw [exec_loadkey] at h; cases h; exact ⟨rfl, rfl⟩

theorem writeReg_keepsKey (r : Reg) (v : Word) (s : State) : KeepsKey s (writeReg r v s) := by
  cases r <;> exact ⟨rfl, rfl⟩

/-- What the engine's moves on a dispatch command write is none of the key (R26). -/
theorem dispatchMove_keepsKey (i : Instr) (d : Dir) (s : State) : KeepsKey s (dispatchMove i d s) := by
  simp only [dispatchMove]
  split
  · simp only [dispatchLaunch]
    split <;> exact ⟨rfl, rfl⟩
  · simp only [superMove]
    split_ifs <;> simp [KeepsKey]
  · simp only [wordsMove]
    split_ifs <;> simp [KeepsKey]
  · simp only [tailMove]
    split <;> simp [KeepsKey]

theorem HostWriteResult.key {wait : Bool} {off : BitVec 6} {v : Word} {s t : State}
    (h : HostWriteResult wait off v s t) :
    KeepsKey s t ∨ LoadsKey s t ∧ wait = true ∧ off = 0x00 ∧ v = 0x00000001 := by
  cases h with
  | ignored => exact .inl (.refl s)
  | register _ => exact .inl (writeReg_keepsKey _ _ _)
  | clrf _ ht => exact .inl (exec_keepsKey (by decide) ht)
  | illegal _ => exact .inl ⟨rfl, rfl⟩
  | posted i _ _ _ => exact .inl ⟨rfl, rfl⟩
  | run i _ _ hdec hwait hoff ht =>
    by_cases hi : i = .loadkey
    · subst hi
      exact .inr ⟨exec_loadkey_loadsKey (s := launch .loadkey s) ht, hwait, hoff, decodeCmd_eq_loadkey hdec⟩
    · exact .inl (exec_keepsKey (s := launch i s) hi ht)

theorem EngineMoveResult.key {s t : State} (h : EngineMoveResult s t) :
    KeepsKey s t ∨ LoadsKey s t ∧ s.inflight = some .loadkey := by
  cases h with
  | waits _ => exact .inl (.refl s)
  | part d _ => exact .inl (dispatchMove_keepsKey _ d s)
  | run i hfly ht =>
    by_cases hi : i = .loadkey
    · subst hi
      exact .inr ⟨exec_loadkey_loadsKey ht, hfly⟩
    · exact .inl (exec_keepsKey hi ht)

theorem delegateMove_keepsKey {s t : State} (h : delegateMove s = .next t) : KeepsKey s t := by
  obtain ⟨-, d, len, rfl⟩ := delegateMove_result h
  exact ⟨rfl, rfl⟩

/-- What each move does to the key. -/
theorem makeMove_key {mv : Move} {s t : State} (h : makeMove mv s = .next t) :
    KeepsKey s t ∨ (LoadsKey s t ∧ (mv = .wr 0x00 0x00000001 ∨ s.inflight = some .loadkey)) ∨
      (t.key = Vector.replicate 4 0 ∧ t.keyv = false ∧ mv = .reset) := by
  cases mv with
  | wr off v =>
    refine (hostWrite_result h).key.imp_right fun ⟨hload, _, hoff, hv⟩ => .inl ⟨hload, .inl ?_⟩
    rw [hoff, hv]
  | post off v =>
    exact .inl ((hostWrite_result h).key.resolve_right fun ⟨_, hwait, _⟩ => Bool.false_ne_true hwait)
  | rd off => rw [hostRead_result h]; exact .inl ⟨rfl, rfl⟩
  | narrow off => cases h
  | poke a b => cases h; exact .inl ⟨rfl, rfl⟩
  | peek a => cases h; rw [peek_eq]; exact .inl ⟨rfl, rfl⟩
  | reset => cases h; exact .inr (.inr ⟨rfl, rfl, rfl⟩)
  | pause => cases h; exact .inl (.refl s)
  | engine => exact (engineMove_result h).key.imp_right fun ⟨hload, hi⟩ => .inl ⟨hload, .inr hi⟩
  | delegate => exact .inl (delegateMove_keepsKey h)
  | answer r =>
    obtain ⟨-, rfl⟩ := answerMove_result h
    exact .inl ⟨rfl, rfl⟩

/-- Settles O21: the move taken says what becomes of the key. -/
theorem onlyLoadkeyAndResetChangeTheKey : Obligations.OnlyLoadkeyAndResetChangeTheKey := by
  intro s t h
  cases htodo : s.todo with
  | nil =>
    rw [step_unscheduled htodo] at h
    rcases ownMove_result h with hd | he
    · exact .inl (delegateMove_keepsKey hd)
    · exact (engineMove_result he).key.imp_right fun ⟨⟨hkey, hkeyv⟩, hi⟩ => .inl ⟨hkey, hkeyv, .inr hi⟩
  | cons mv rest =>
    rw [step_scheduled htodo] at h
    rcases makeMove_key h with hkeep | ⟨⟨hkey, hkeyv⟩, rfl | hi⟩ | ⟨hkey, hkeyv, rfl⟩
    · exact .inl hkeep
    · exact .inr (.inl ⟨hkey, hkeyv, .inl ⟨rest, rfl⟩⟩)
    · exact .inr (.inl ⟨hkey, hkeyv, .inr hi⟩)
    · exact .inr (.inr ⟨hkey, hkeyv, rest, rfl⟩)

end Sys2Proof.Laws

/-! PROOF. The invariant of the machine (R20, R21, R25, R105): an engine at rest keeps its records; each part of a
dispatch command in flight leaves the next one what it needs; so every step keeps it. -/

namespace Sys2Proof.Laws

open Sys2Proof.Machine

/-! What the invariant asks whether or not a command is in flight. -/

/-- The buffer in canonical form, the fault record, and the key before `LOADKEY`: all that `EngineInv` says of an engine
at rest. -/
structure RecordInv (s : State) : Prop where
  canonical : Memory.wf s.buf = true
  inSpace : Memory.inSpace s.buf = true
  code : s.fault = false ↔ s.fcode = 0
  legalCode : s.fcode.toNat ≤ 4
  sticky : s.fault = true → s.faulted = true
  noKey : s.keyv = false → s.key = Vector.replicate 4 0

theorem engineInv_record {s : State} (h : EngineInv s) : RecordInv s :=
  ⟨h.canonical, h.inSpace, h.code, h.legalCode, h.sticky, h.noKey⟩

/-- An engine at rest needs no more than its records. -/
theorem engineInv_of_atRest {s : State} (hrest : AtRest s) (h : RecordInv s) : EngineInv s := by
  obtain ⟨hbusy, hinflight, hphase, htouched, hport⟩ := hrest
  exact {
    canonical := h.canonical
    inSpace := h.inSpace
    code := h.code
    legalCode := h.legalCode
    faultIdle := fun _ => hbusy
    sticky := h.sticky
    noKey := h.noKey
    busy := by rw [hbusy, hinflight]; rfl
    command := fun i hi => by simp [hinflight] at hi
    rest := fun _ => ⟨hbusy, hinflight, hphase, htouched, hport⟩
    running := fun hp => absurd hphase hp
    progress := by simp only [Progress, hphase]
    port := fun hp => absurd hport hp }

theorem engineInv_inflight_none {s : State} (h : EngineInv s) (hb : s.busy = false) : s.inflight = none := by
  simpa [hb] using h.busy.symm

theorem engineInv_atRest {s : State} (h : EngineInv s) (hb : s.busy = false) : AtRest s :=
  h.rest (engineInv_inflight_none h hb)

/-- A command that ends with its registers kept and the buffer canonical keeps the invariant. -/
theorem engineInv_of_keepsRegisters {s t : State} (h : RecordInv s) (hk : KeepsRegisters s t)
    (canonical : Memory.wf t.buf = true) (inSpace : Memory.inSpace t.buf = true) : EngineInv t := by
  obtain ⟨hkey, hkeyv, -, -, -, -, hfault, hfcode, hfaulted, -, -, -, hrest⟩ := hk
  exact engineInv_of_atRest hrest
    ⟨canonical, inSpace, by rw [hfault, hfcode]; exact h.code, by rw [hfcode]; exact h.legalCode,
      by rw [hfault, hfaulted]; exact h.sticky, by rw [hkeyv, hkey]; exact h.noKey⟩

theorem recordInv_of_writesParts {s u : State} (h : RecordInv s) (hw : WritesParts s u)
    (canonical : Memory.wf u.buf = true) (inSpace : Memory.inSpace u.buf = true) : RecordInv u := by
  obtain ⟨-, -, hkey⟩ := hw.call
  exact ⟨canonical, inSpace, by rw [hw.fault, hw.fcode]; exact h.code, by rw [hw.fcode]; exact h.legalCode,
    by rw [hw.fault, hw.faulted]; exact h.sticky, by rw [hw.keyv, hkey]; exact h.noKey⟩

/-! States at rest. -/

/-- The codes of the causes are 1 to 4 (R103). -/
theorem fcode_code_range (c : FCode) : c.code ≠ 0 ∧ c.code.toNat ≤ 4 := by
  cases c <;> decide

theorem engineInv_raiseFault {s : State} (h : RecordInv s) (c : FCode) : EngineInv (raiseFault c s) :=
  engineInv_of_atRest (atRest_raiseFault c s) {
    canonical := h.canonical
    inSpace := h.inSpace
    code := by simpa using (fcode_code_range c).1
    legalCode := (fcode_code_range c).2
    sticky := fun _ => rfl
    noKey := h.noKey }

theorem engineInv_toIdle {s : State} (h : RecordInv s) : EngineInv s.toIdle :=
  engineInv_of_atRest (atRest_toIdle s) ⟨h.canonical, h.inSpace, h.code, h.legalCode, h.sticky, h.noKey⟩

theorem recordInv_clearFault {s : State} (h : RecordInv s) : RecordInv (clearFault s) :=
  ⟨h.canonical, h.inSpace, by simp, by simp, by simp, h.noKey⟩

theorem recordInv_loadKey {s : State} (h : RecordInv s) : RecordInv { s with key := s.keyin, keyv := true } :=
  ⟨h.canonical, h.inSpace, h.code, h.legalCode, h.sticky, fun hk => Bool.noConfusion hk⟩

theorem engineInv_finishCipher (i : Instr) {s : State} (h : RecordInv s) : EngineInv (finishCipher i s) :=
  engineInv_of_keepsRegisters h (keepsRegisters_finishCipher i rfl) (wf_finishCipher i h.canonical)
    (inSpace_finishCipher i h.inSpace)

/-- However a cipher command ends, the engine is at rest and its records are in order. -/
theorem CipherResult.engineInv {i : Instr} {s t : State} (hres : CipherResult i s t) (h : RecordInv s) :
    EngineInv t := by
  obtain ⟨canonical, inSpace⟩ := hres.buffer h.canonical h.inSpace
  rcases hres.registers with hk | ⟨c, rfl⟩
  · exact engineInv_of_keepsRegisters h hk canonical inSpace
  · exact engineInv_raiseFault h c

/-- A command run to its end (R60). -/
theorem exec_command_engineInv {i : Instr} {s t : State} (hi : i.isCommand = true) (h : RecordInv s)
    (ht : exec i s = .next t) : EngineInv t := by
  rcases instr_cases i with rfl | rfl | rfl | hc | htail
  · rw [exec_nop] at ht; cases ht; exact engineInv_toIdle h
  · rw [exec_loadkey] at ht; cases ht; exact engineInv_toIdle (recordInv_loadKey h)
  · rw [exec_clrf] at ht; cases ht; exact engineInv_toIdle (recordInv_clearFault h)
  · exact (exec_cipher hc ht).engineInv h
  · exact absurd hi (by simp [htail])

theorem recordInv_reset : RecordInv State.reset :=
  ⟨rfl, rfl, by decide, by decide, by decide, fun _ => rfl⟩

/-- Settles O18: the reset state is at rest, with no fault and no key. -/
theorem resetMeetsTheInvariant : Obligations.ResetMeetsTheInvariant :=
  engineInv_of_atRest ⟨rfl, rfl, rfl, rfl, rfl⟩ recordInv_reset

/-- Reset keeps the buffer in its form, also where it loses an abandoned command's region (R117). -/
theorem abandon_buffer {s : State} (h : RecordInv s) :
    Memory.wf (abandon s).buf = true ∧ Memory.inSpace (abandon s).buf = true := by
  cases hi : s.inflight with
  | none => rw [abandon_idle hi]; exact ⟨h.canonical, h.inSpace⟩
  | some i =>
    rw [abandon_busy hi, forgetBytes_buf]
    refine ⟨wf_writeBytes h.canonical _ _ _, ?_⟩
    by_cases h0 : footprint i s = 0
    · rw [h0]; exact h.inSpace
    · obtain ⟨-, hrange⟩ := footprint_range h0
      exact inSpace_writeBytes h.inSpace _ _ (by have := s.buflen.isLt; omega)

theorem engineInv_assertReset {s : State} (h : RecordInv s) : EngineInv (assertReset s) := by
  obtain ⟨canonical, inSpace⟩ := abandon_buffer h
  have hr := recordInv_reset
  exact engineInv_of_atRest (atRest_assertReset s)
    ⟨canonical, inSpace, hr.code, hr.legalCode, fun hf => Bool.noConfusion hf, hr.noKey⟩

/-! The other agents' moves. -/

/-- The invariant says nothing of the schedule, of what the host holds, or of the free-value counter. -/
theorem engineInv_hostSide {s : State} (h : EngineInv s) (l : List Move) (w : Word) (b : Byte) (n : Nat) :
    EngineInv { s with todo := l, hostWord := w, hostByte := b, draws := n } :=
  ⟨h.canonical, h.inSpace, h.code, h.legalCode, h.faultIdle, h.sticky, h.noKey, h.busy, h.command, h.rest, h.running,
    h.progress, h.port⟩

theorem engineInv_poke {s : State} (h : EngineInv s) (a : Word) (b : Byte) : EngineInv (poke a b s) where
  canonical := wf_writeByte h.canonical _ _
  inSpace := inSpace_writeByte h.inSpace a.isLt _
  code := h.code
  legalCode := h.legalCode
  faultIdle := h.faultIdle
  sticky := h.sticky
  noKey := h.noKey
  busy := h.busy
  command := h.command
  rest := fun hi => by
    obtain ⟨hbusy, -, hphase, htouched, hport⟩ := h.rest hi
    have hi : s.inflight = none := hi
    exact ⟨hbusy, hi, hphase, by simp [poke, hi, htouched], hport⟩
  running := h.running
  progress := h.progress
  port := h.port

/-- The answer of a delegate to a standing request: the port's response fields (R54). -/
theorem engineInv_answered {s : State} (h : EngineInv s) (hp : s.port.status = .requested) (r : Vector Byte 7)
    (n : Nat) : EngineInv { s with port := { s.port with status := .answered, rdata := r }, draws := n } where
  canonical := h.canonical
  inSpace := h.inSpace
  code := h.code
  legalCode := h.legalCode
  faultIdle := h.faultIdle
  sticky := h.sticky
  noKey := h.noKey
  busy := h.busy
  command := h.command
  rest := fun hi => by
    obtain ⟨-, -, -, -, hquiet⟩ := h.rest hi
    simp [hp] at hquiet
  running := h.running
  progress := h.progress
  port := fun _ => h.port (by simp [hp])

theorem respond_eq (D : Config.Delegate) (d : Dir) (len : BitVec 3) (s : State) :
    respond D d len s = { s with
      port := { s.port with status := .answered, rdata := (respond D d len s).port.rdata }
      draws := (respond D d len s).draws } := rfl

/-- A launched command waits for the engine's first move (R60). -/
theorem engineInv_launch {s : State} (h : EngineInv s) (hb : s.busy = false) (hf : s.fault = false) {i : Instr}
    (hi : i.isCommand = true) : EngineInv (launch i s) := by
  obtain ⟨-, -, hphase, -, hport⟩ := engineInv_atRest h hb
  exact {
    canonical := h.canonical
    inSpace := h.inSpace
    code := h.code
    legalCode := h.legalCode
    faultIdle := fun hf' => absurd (hf.symm.trans hf') (by decide)
    sticky := h.sticky
    noKey := h.noKey
    busy := rfl
    command := fun j hj => by cases hj; exact hi
    rest := fun hn => by cases hn
    running := fun hp => absurd hphase hp
    progress := h.progress
    port := fun hp => absurd hport hp }

theorem recordInv_launch {s : State} (h : RecordInv s) (i : Instr) : RecordInv (launch i s) :=
  ⟨h.canonical, h.inSpace, h.code, h.legalCode, h.sticky, h.noKey⟩

theorem engineInv_writeReg {s : State} (h : EngineInv s) (r : Reg) (v : Word) (hb : s.busy = false) :
    EngineInv (writeReg r v s) := by
  have hrest := engineInv_atRest h hb
  obtain ⟨canonical, inSpace, code, legalCode, sticky, noKey⟩ := engineInv_record h
  cases r <;> exact engineInv_of_atRest hrest ⟨canonical, inSpace, code, legalCode, sticky, noKey⟩

theorem HostWriteResult.engineInv {wait : Bool} {off : BitVec 6} {v : Word} {s t : State}
    (hres : HostWriteResult wait off v s t) (h : EngineInv s) : EngineInv t := by
  have hr := engineInv_record h
  cases hres with
  | ignored => exact h
  | register idle => exact engineInv_writeReg h _ _ idle
  | clrf _ ht => exact exec_command_engineInv rfl hr ht
  | illegal _ => exact engineInv_raiseFault hr _
  | posted i idle noFault hi =>
    exact engineInv_launch h idle noFault (decodeCmd_isCommand hi)
  | run i _ _ hi _ _ ht => exact exec_command_engineInv (decodeCmd_isCommand hi) (recordInv_launch hr i) ht

/-! The engine's moves on a dispatch command in flight. -/

/-- Beyond its first move a dispatch command runs with its checks passed (R65). -/
theorem engineInv_runs {s : State} {d : Dir} (h : EngineInv s) (hi : s.inflight = some (dispatchOf d))
    (hp : s.phase ≠ .idle) : Runs s d := by
  have hrun : ∃ d', s.inflight = some (dispatchOf d') ∧ Runs s d' := by
    rcases h.running hp with hr | hr
    · exact ⟨.enc, hr⟩
    · exact ⟨.dec, hr⟩
  obtain ⟨d', hi', hr⟩ := hrun
  have hd : d' = d := dispatchOf_inj (Option.some.inj (hi'.symm.trans hi))
  exact hd ▸ hr

theorem engineInv_port_quiet {s : State} (h : EngineInv s) (hp : s.phase ≠ .tail) : s.port.status = .quiet := by
  by_contra hq
  exact hp (h.port hq).1

/-- A part of a dispatch command in flight keeps the invariant if it leaves the buffer canonical, the direction, the
progress and the port in order; everything else it leaves alone. -/
theorem engineInv_of_writesParts {s u : State} {d : Dir} (h : EngineInv s) (hi : s.inflight = some (dispatchOf d))
    (hw : WritesParts s u) (hk : KeyLoaded s) (hr : InRange s s.count.toNat) (hdir : u.work.dir = d)
    (canonical : Memory.wf u.buf = true) (inSpace : Memory.inSpace u.buf = true) (progress : Progress u)
    (port : u.port.status ≠ .quiet →
      u.phase = .tail ∧ u.port.thdr = tailHeader u.work.dir (u.work.left.setWidth 3)) : EngineInv u := by
  obtain ⟨hstart, hcount, -⟩ := hw.call
  have hrec := recordInv_of_writesParts (engineInv_record h) hw canonical inSpace
  have hiu : u.inflight = some (dispatchOf d) := hw.inflight.trans hi
  have hrun : Runs u d := ⟨hdir, hw.keyv.trans hk, by rw [InRange, hstart, hcount, hw.buflen]; exact hr⟩
  exact {
    canonical := canonical
    inSpace := inSpace
    code := hrec.code
    legalCode := hrec.legalCode
    faultIdle := by rw [hw.fault, hw.busy]; exact h.faultIdle
    sticky := hrec.sticky
    noKey := hrec.noKey
    busy := by rw [hw.busy, hw.inflight]; exact h.busy
    command := by rw [hw.inflight]; exact h.command
    rest := fun hn => by simp [hiu] at hn
    running := fun _ => by
      cases d with
      | enc => exact .inl ⟨hiu, hrun⟩
      | dec => exact .inr ⟨hiu, hrun⟩
    progress := progress
    port := port }

/-- The engine's first move: the checks fault, or the working registers are set (R65, R67). -/
theorem dispatchLaunch_cases (d : Dir) (s : State) :
    (∃ c, dispatchLaunch d s = raiseFault c s) ∨
      KeyLoaded s ∧ InRange s s.count.toNat ∧ dispatchLaunch d s = dispatchBegin d s := by
  simp only [dispatchLaunch]
  split
  · next c _ => exact .inl ⟨c, rfl⟩
  · next hc =>
    simp only [dispatchCheck] at hc
    split_ifs at hc with hk hr
    exact .inr ⟨by simpa [KeyLoaded] using hk, by simpa [State.inRange, InRange] using hr, rfl⟩

section
variable {s : State}

theorem progress_super (hp : s.phase = .super) :
    Progress s ↔ s.work.off.toNat + 64 * s.work.full.toNat + s.work.left.toNat = s.start.toNat + s.count.toNat ∧
      s.start.toNat ≤ s.work.off.toNat := by
  simp only [Progress, hp]

theorem progress_words (hp : s.phase = .words) :
    Progress s ↔ s.work.off.toNat + s.work.left.toNat = s.start.toNat + s.count.toNat ∧
      s.start.toNat ≤ s.work.off.toNat ∧ s.work.left ≠ 0 ∧ s.work.nw.toNat = s.work.left.toNat / 4 := by
  simp only [Progress, hp]

theorem progress_tail (hp : s.phase = .tail) :
    Progress s ↔ s.work.off.toNat + s.work.left.toNat = s.start.toNat + s.count.toNat ∧
      s.start.toNat ≤ s.work.off.toNat ∧ 1 ≤ s.work.left.toNat ∧ s.work.left.toNat ≤ 7 := by
  simp only [Progress, hp]

theorem toNat_pos_of_ne_zero {n : Nat} {x : BitVec n} (h : x ≠ 0) : 1 ≤ x.toNat :=
  (BitVec.toNat_pos x).2 ((BitVec.pos_iff_ne_zero x).2 h)

/-- A region in range ends inside the 32-bit offset space (R36). -/
theorem inRange_lt {n : Nat} (h : InRange s n) : s.start.toNat + n < 2 ^ 32 := Nat.lt_of_le_of_lt h s.buflen.isLt

end

section
variable {s : State} {d : Dir} (h : EngineInv s) (hi : s.inflight = some (dispatchOf d))
include h hi

theorem dispatchLaunch_engineInv (hp : s.phase = .idle) : EngineInv (dispatchLaunch d s) := by
  rcases dispatchLaunch_cases d s with ⟨c, hc⟩ | ⟨hk, hr, hb⟩
  · rw [hc]
    exact engineInv_raiseFault (engineInv_record h) c
  · rw [hb]
    have hquiet := engineInv_port_quiet h (by simp [hp])
    exact engineInv_of_writesParts h hi rfl hk hr rfl h.canonical h.inSpace
      ((progress_super rfl).2 ⟨dispatchBegin_region d s, Nat.le_refl _⟩) fun hq => absurd hquiet hq

/-- A super-block takes 64 bytes of the region off the counters (R67, R70). -/
theorem superBlock_engineInv (hp : s.phase = .super) (hfull : s.work.full ≠ 0) : EngineInv (superBlock s) := by
  obtain ⟨hdir, hk, hr⟩ := engineInv_runs h hi (by simp [hp])
  obtain ⟨hsum, hoff⟩ := (progress_super hp).1 h.progress
  have hquiet := engineInv_port_quiet h (by simp [hp])
  have h32 := inRange_lt hr
  have h16 : MCount.sixteen.val = 16 := rfl
  have hpos := toNat_pos_of_ne_zero hfull
  have hoff' : (superBlock s).work.off.toNat = s.work.off.toNat + 64 := by
    rw [superBlock_off]
    exact BitVec.toNat_add_of_lt (show s.work.off.toNat + 64 < 2 ^ 32 by omega)
  have hfull' : (superBlock s).work.full.toNat = s.work.full.toNat - 1 := by
    rw [superBlock_full]
    exact BitVec.toNat_sub_of_le (BitVec.le_def.2 hpos)
  refine engineInv_of_writesParts h hi (superBlock_eq s) hk hr (by rw [superBlock_dir, hdir]) ?_ ?_
    ((progress_super (by rw [superBlock_phase, hp])).2 ?_) fun hq => absurd (by rw [superBlock_port, hquiet]) hq
  · rw [superBlock_buf]; exact wf_block h.canonical _ _ _
  · rw [superBlock_buf]; exact inSpace_block h.inSpace _ _ _ (by omega)
  · rw [hoff', hfull', superBlock_left, superBlock_start, superBlock_count]
    omega

/-- With no super-block left the counters stand for what is left, which the words phase takes on (R67). -/
theorem enterWords_engineInv (hp : s.phase = .super) (hfull : s.work.full = 0) (hleft : s.work.left ≠ 0) :
    EngineInv (enterWords s) := by
  obtain ⟨hdir, hk, hr⟩ := engineInv_runs h hi (by simp [hp])
  obtain ⟨hsum, hoff⟩ := (progress_super hp).1 h.progress
  have hquiet := engineInv_port_quiet h (by simp [hp])
  have hsum' : s.work.off.toNat + s.work.left.toNat = s.start.toNat + s.count.toNat := by simpa [hfull] using hsum
  exact engineInv_of_writesParts h hi rfl hk hr hdir h.canonical h.inSpace
    ((progress_words rfl).2 ⟨hsum', hoff, hleft, enterWords_nw_toNat s⟩) fun hq => absurd hquiet hq

theorem superMove_engineInv (hp : s.phase = .super) : EngineInv (superMove (dispatchOf d) s) := by
  simp only [superMove]
  split_ifs with hfull hleft
  · exact engineInv_finishCipher _ (engineInv_record h)
  · exact enterWords_engineInv h hi hp hfull hleft
  · exact superBlock_engineInv h hi hp hfull

/-- What the words run leaves is a tail of 1 to 7 bytes, or the end of the command (R66, R71). -/
theorem wordsMove_engineInv (hp : s.phase = .words) : EngineInv (wordsMove (dispatchOf d) s) := by
  obtain ⟨hdir, hk, hr⟩ := engineInv_runs h hi (by simp [hp])
  obtain ⟨hsum, hoff, hleft, hnw⟩ := (progress_words hp).1 h.progress
  have hquiet := engineInv_port_quiet h (by simp [hp])
  have h32 := inRange_lt hr
  have hpos := toNat_pos_of_ne_zero hleft
  simp only [wordsMove]
  split
  · next hw =>
    have hm : (nwCount s hw).val = s.work.left.toNat / 4 := hnw
    have canonical : Memory.wf (wordsBlock (nwCount s hw) s).buf = true := wf_block h.canonical _ _ _
    have inSpace : Memory.inSpace (wordsBlock (nwCount s hw) s).buf = true :=
      inSpace_block h.inSpace _ _ _ (by omega)
    split
    · exact engineInv_finishCipher _
        (recordInv_of_writesParts (engineInv_record h) (wordsBlock_eq _ s) canonical inSpace)
    · next hend =>
      have hpos' := toNat_pos_of_ne_zero hend
      have hleft' := wordsBlock_left_toNat hnw (nwCount s hw)
      have hoff' := advanceWords_off_toNat (s := wordsBlock (nwCount s hw) s)
        (by rw [wordsBlock_off, wordsBlock_nw]; omega)
      rw [wordsBlock_off, wordsBlock_nw] at hoff'
      refine engineInv_of_writesParts h hi (u := advanceWords (wordsBlock (nwCount s hw) s)) ?_ hk hr ?_ canonical
        inSpace ((progress_tail rfl).2 ?_) ?_
      · rw [wordsBlock_eq]; rfl
      · rw [advanceWords_dir, wordsBlock_dir, hdir]
      · rw [hoff', advanceWords_left, hleft', advanceWords_start, advanceWords_count, wordsBlock_start,
          wordsBlock_count]
        omega
      · rw [advanceWords_port, wordsBlock_port]
        exact fun hq => absurd hquiet hq
  · next hw =>
    exact engineInv_of_writesParts h hi rfl hk hr hdir h.canonical h.inSpace
      ((progress_tail rfl).2 ⟨hsum, hoff, hpos, show s.work.left.toNat ≤ 7 by omega⟩) fun hq => absurd hquiet hq

/-- The request is sent with its header, is waited for, or its answer is written back (R53, R98, R127). -/
theorem tailMove_engineInv (hp : s.phase = .tail) : EngineInv (tailMove (dispatchOf d) s) := by
  obtain ⟨hdir, hk, hr⟩ := engineInv_runs h hi (by simp [hp])
  obtain ⟨hsum, hoff, h1, h7⟩ := (progress_tail hp).1 h.progress
  have h32 := inRange_lt hr
  simp only [tailMove]
  split
  · exact engineInv_of_writesParts h hi rfl hk hr hdir h.canonical h.inSpace
      ((progress_tail (s := tailSend s) hp).2 ⟨hsum, hoff, h1, h7⟩) fun _ => ⟨hp, rfl⟩
  · exact h
  · next hans =>
    have hlen : (tlenField s.port.thdr).toNat ≤ s.work.left.toNat := by
      rw [(h.port (by simp [hans])).2, tlenField_tailHeader, BitVec.toNat_setWidth]
      exact Nat.mod_le _ _
    exact engineInv_finishCipher _ (recordInv_of_writesParts (engineInv_record h) rfl
      (wf_writeBytes h.canonical _ _ _) (inSpace_writeBytes h.inSpace _ _ (by omega)))

theorem dispatchMove_engineInv : EngineInv (dispatchMove (dispatchOf d) d s) := by
  simp only [dispatchMove]
  split
  · next hp => exact dispatchLaunch_engineInv h hi hp
  · next hp => exact superMove_engineInv h hi hp
  · next hp => exact wordsMove_engineInv h hi hp
  · next hp => exact tailMove_engineInv h hi hp

end

/-! Every step. -/

theorem EngineMoveResult.engineInv {s t : State} (hres : EngineMoveResult s t) (h : EngineInv s) : EngineInv t := by
  cases hres with
  | waits _ => exact h
  | part d hi => exact dispatchMove_engineInv h hi
  | run i hi ht => exact exec_command_engineInv (h.command i hi) (engineInv_record h) ht

theorem delegateMove_engineInv {s t : State} (h : EngineInv s) (ht : delegateMove s = .next t) : EngineInv t := by
  obtain ⟨hp, d, len, rfl⟩ := delegateMove_result ht
  rw [respond_eq]
  exact engineInv_answered h hp _ _

theorem makeMove_engineInv {mv : Move} {s t : State} (h : EngineInv s) (ht : makeMove mv s = .next t) :
    EngineInv t := by
  cases mv with
  | wr off v => exact (hostWrite_result ht).engineInv h
  | post off v => exact (hostWrite_result ht).engineInv h
  | rd off => rw [hostRead_result ht]; exact engineInv_hostSide h _ _ _ _
  | narrow off => cases ht
  | poke a b => cases ht; exact engineInv_poke h a b
  | peek a => cases ht; rw [peek_eq]; exact engineInv_hostSide h _ _ _ _
  | reset => cases ht; exact engineInv_assertReset (engineInv_record h)
  | pause => cases ht; exact h
  | engine => exact (engineMove_result ht).engineInv h
  | delegate => exact delegateMove_engineInv h ht
  | answer r =>
    obtain ⟨hp, rfl⟩ := answerMove_result ht
    exact engineInv_answered h hp r _

/-- Settles O19: whoever moves, and also with nothing scheduled. -/
theorem everyStepKeepsTheInvariant : Obligations.EveryStepKeepsTheInvariant := by
  intro s t h ht
  cases htodo : s.todo with
  | nil =>
    rw [step_unscheduled htodo] at ht
    rcases ownMove_result ht with hd | he
    · exact delegateMove_engineInv h hd
    · exact (engineMove_result he).engineInv h
  | cons mv rest =>
    rw [step_scheduled htodo] at ht
    exact makeMove_engineInv (engineInv_hostSide h rest _ _ _) ht

end Sys2Proof.Laws

/-! PROOF. The buffer: words as little-endian sums of bytes (R33, R34), the canonical form under every instruction (R30,
R36), and the host's accesses (R41, R120). -/

namespace Sys2Proof.Laws

open Sys2Proof.Machine

/-! Words as sums of bytes (R33). -/

/-- Concatenation as a sum: the upper part is weighted by the lower part's width. -/
theorem toNat_append_add {k n : Nat} (x : BitVec k) (y : BitVec n) : (x ++ y).toNat = x.toNat * 2 ^ n + y.toNat := by
  rw [BitVec.toNat_append, ← Nat.shiftLeft_add_eq_or_of_lt y.isLt, Nat.shiftLeft_eq]

theorem readWord_toNat (m : List Host.Cell) (a : Nat) :
    (readWord m a).toNat =
      (readByte m a).toNat + 256 * (readByte m (a + 1)).toNat + 65536 * (readByte m (a + 2)).toNat +
        16777216 * (readByte m (a + 3)).toNat := by
  simp only [readWord, toNat_append_add]
  omega

/-- The general form of R33, for every length. -/
theorem memRead_eq_sum (m : List Host.Cell) (a n : Nat) :
    memRead m a n = ((List.range n).map fun i => (readByte m (a + i)).toNat * 256 ^ i).sum := by
  induction n with
  | zero => rfl
  | succ n ih => rw [memRead, ih, List.sum_range_succ]

/-- Settles O25: concatenating the bytes weights them by powers of 256. -/
theorem wordReadIsLittleEndian : Obligations.WordReadIsLittleEndian := by
  refine fun m a => ⟨readWord_toNat m a, ?_, fun n _ => memRead_eq_sum m a n⟩
  rw [readWord_toNat]
  simp only [memRead, Nat.add_zero]
  omega

/-- Settles O26: each byte of the stored word stands at its offset, and the four give the word back. -/
theorem wordWriteIsLittleEndian : Obligations.WordWriteIsLittleEndian := by
  intro m a w hwf
  have hbyte : ∀ i, i < 4 → readByte (writeWord m a w) (a + i) = wordByte w i := fun i hi =>
    readByte_writeWord hwf a i w hi
  exact ⟨hbyte 0 (by decide), hbyte 1 (by decide), hbyte 2 (by decide), hbyte 3 (by decide),
    fun c hc => readByte_writeWord_outside m a c w hc, readWord_of_bytes hbyte⟩

/-! The canonical form (R30, R36). -/

/-- Settles O27: a cipher command writes only offsets of its region in range; no other instruction writes the buffer. -/
theorem execKeepsTheBufferCanonical : Obligations.ExecKeepsTheBufferCanonical := by
  intro i s t hwf hsp h
  rcases instr_cases i with rfl | rfl | rfl | hc | htail
  · rw [exec_nop] at h; cases h; exact ⟨hwf, hsp⟩
  · rw [exec_loadkey] at h; cases h; exact ⟨hwf, hsp⟩
  · rw [exec_clrf] at h; cases h; exact ⟨hwf, hsp⟩
  · exact (exec_cipher hc h).buffer hwf hsp
  · obtain ⟨d, len, ht⟩ := exec_tail htail s
    rw [ht] at h; cases h; exact ⟨hwf, hsp⟩

/-! The host's buffer accesses (R41, R120). -/

theorem owned_eq_false {s : State} {a : Nat}
    (h : ∀ i, s.inflight = some i → a < s.start.toNat ∨ s.start.toNat + footprint i s ≤ a) : owned s a = false := by
  cases hi : s.inflight with
  | none => simp only [owned, hi]
  | some i =>
    have hout := h i hi
    simp only [owned, hi, inRegion, Bool.and_eq_false_iff, decide_eq_false_iff_not]
    omega

/-- A read outside the region of a command in flight returns the byte. -/
theorem peek_unowned {s : State} {a : Word} (h : owned s a.toNat = false) :
    peek a s = { s with hostByte := readByte s.buf a.toNat } := by
  simp only [peek, h, Bool.false_eq_true, if_false]

/-- Settles O15: the write is one `writeByte`; the read is of a byte no command in flight owns. -/
theorem hostBufferAccesses : Obligations.HostBufferAccesses := by
  constructor
  · intro s a b rest hwf htodo
    exact ⟨_, step_scheduled htodo, (readByte_writeByte hwf a.toNat a.toNat b).trans (if_pos rfl),
      fun c hc => readByte_writeByte_ne s.buf a.toNat c b hc, rfl, rfl⟩
  · intro s a rest htodo hout
    have hfree : owned { s with todo := rest } a.toNat = false := owned_eq_false fun i hi =>
      footprint_congr (i := i) (s := s) (t := { s with todo := rest }) rfl rfl rfl rfl ▸ hout i hi
    exact (step_scheduled htodo).trans (congrArg Host.Outcome.next (peek_unowned hfree))

end Sys2Proof.Laws

/-! PROOF. A command in flight reaches the state the atomic command gives (R39, R41, R60): for the dispatch commands,
the moves from each phase to the command's end, the last phase first. -/

namespace Sys2Proof.Laws

open Sys2Proof.Machine

/-! The machine going on by itself. -/

/-- Some number of steps leads from `s` to `t`. -/
def Reaches (s t : State) : Prop := ∃ k, Host.Core.run Sys2Proof.core k s = .next t

theorem Reaches.refl (s : State) : Reaches s s := ⟨0, rfl⟩

theorem Reaches.of_step {s t u : State} (h : step s = .next u) (hr : Reaches u t) : Reaches s t := by
  obtain ⟨k, hk⟩ := hr
  have hcore : Host.Core.step Sys2Proof.core s = .next u := h
  exact ⟨k + 1, by simp only [Host.Core.run, hcore]; exact hk⟩

theorem Reaches.of_last_step {s t : State} (h : step s = .next t) : Reaches s t := .of_step h (.refl t)

/-- With nothing scheduled the engine moves, unless it waits for an answer (R118). -/
theorem step_engineMove {s : State} (htodo : s.todo = []) (hport : s.port.status ≠ .requested) :
    step s = engineMove s := (step_unscheduled htodo).trans (if_neg hport)

/-- With nothing scheduled a standing request is answered (R95). -/
theorem step_delegateMove {s : State} (htodo : s.todo = []) (hport : s.port.status = .requested) :
    step s = exec (decodeTail s.port.thdr) s :=
  (step_unscheduled htodo).trans ((if_pos hport).trans (if_pos hport))

/-- A command that is no dispatch command runs in one move (R39). -/
theorem engineMove_exec {s : State} {i : Instr} (hi : s.inflight = some i) (hnd : ∀ d, i ≠ dispatchOf d) :
    engineMove s = exec i s := by
  cases i with
  | encrypt => exact absurd rfl (hnd .enc)
  | decrypt => exact absurd rfl (hnd .dec)
  | _ => simp only [engineMove, hi]

/-! The dispatch command of a direction. -/

theorem exec_dispatchOf (d : Dir) (s : State) :
    exec (dispatchOf d) s = .next (dispatchCommand Config.delegate (dispatchOf d) d s) := by
  cases d <;> rfl

/-- The delegate's operation under a request's header is its answer in that direction and length (R53, R96, R97). -/
theorem exec_tailHeader (d : Dir) (len : BitVec 3) (s : State) :
    exec (decodeTail (tailHeader d len)) s = .next (respond Config.delegate d len s) := by
  cases d with
  | enc =>
    have h : decodeTail (tailHeader .enc len) = .tailEnc len := by revert len; decide
    rw [h]; rfl
  | dec =>
    have h : decodeTail (tailHeader .dec len) = .tailDec len := by revert len; decide
    rw [h]; rfl

/-- The dispatch command of direction `d` is in flight and nothing is scheduled. -/
structure DispatchInFlight (d : Dir) (s : State) : Prop where
  inflight : s.inflight = some (dispatchOf d)
  todo : s.todo = []

/-- The checks of the dispatch command in flight are passed, and nothing stands on the tail port. -/
structure PartsToDo (d : Dir) (s : State) : Prop extends DispatchInFlight d s where
  quiet : s.port.status = .quiet
  dir : s.work.dir = d

section
variable {d : Dir} {s : State}

theorem DispatchInFlight.step_dispatchMove (h : DispatchInFlight d s) (hport : s.port.status ≠ .requested) :
    step s = .next (dispatchMove (dispatchOf d) d s) := by
  rw [step_engineMove h.todo hport]
  cases d <;> simp only [engineMove, h.inflight, dispatchOf]

theorem PartsToDo.step_dispatchMove (h : PartsToDo d s) : step s = .next (dispatchMove (dispatchOf d) d s) :=
  h.toDispatchInFlight.step_dispatchMove (by simp [h.quiet])

/-- A part that leaves the direction and the port alone leaves the next part to do. -/
theorem PartsToDo.of_writesParts {u : State} (h : PartsToDo d s) (hw : WritesParts s u) (hport : u.port = s.port)
    (hdir : u.work.dir = s.work.dir) : PartsToDo d u where
  inflight := hw.inflight.trans h.inflight
  todo := hw.todo.trans h.todo
  quiet := hport ▸ h.quiet
  dir := hdir.trans h.dir

/-! The tail phase (R98). -/

theorem PartsToDo.step_tailSend (h : PartsToDo d s) (hphase : s.phase = .tail) : step s = .next (tailSend s) := by
  rw [h.step_dispatchMove]
  simp only [dispatchMove, hphase, tailMove, h.quiet]

theorem DispatchInFlight.step_tailBack (h : DispatchInFlight d s) (hphase : s.phase = .tail)
    (hanswered : s.port.status = .answered) : step s = .next (finishCipher (dispatchOf d) (tailBack s)) := by
  rw [h.step_dispatchMove (by simp [hanswered])]
  simp only [dispatchMove, hphase, tailMove, hanswered]

/-- The request, the delegate's answer, its writing back. -/
theorem PartsToDo.tail_reaches (h : PartsToDo d s) (hphase : s.phase = .tail) :
    Reaches s (finishCipher (dispatchOf d) (tailPhase Config.delegate s)) := by
  have hanswer : step (tailSend s) =
      .next (respond Config.delegate s.work.dir (s.work.left.setWidth 3) (tailSend s)) :=
    (step_delegateMove (s := tailSend s) h.todo rfl).trans (exec_tailHeader _ _ _)
  have hflight : DispatchInFlight d (respond Config.delegate s.work.dir (s.work.left.setWidth 3) (tailSend s)) :=
    ⟨h.inflight, h.todo⟩
  rw [tailPhase_acts]
  exact .of_step (h.step_tailSend hphase) (.of_step hanswer (.of_last_step (hflight.step_tailBack hphase rfl)))

/-! The words phase (R71): the command and the engine's move take the same branch. -/

theorem restPhase_run (D : Config.Delegate) (hnw : 1 < (enterWords s).work.nw.toNat) :
    restPhase D s =
      if (afterWords s hnw).work.left = 0 then afterWords s hnw else tailPhase D (advanceWords (afterWords s hnw)) :=
  dif_pos hnw

theorem wordsMove_run (i : Instr) (hnw : 1 < (enterWords s).work.nw.toNat) :
    wordsMove i (enterWords s) =
      if (afterWords s hnw).work.left = 0 then finishCipher i (afterWords s hnw) else advanceWords (afterWords s hnw) :=
  dif_pos hnw

theorem restPhase_skip (D : Config.Delegate) (hnw : ¬ 1 < (enterWords s).work.nw.toNat) :
    restPhase D s = tailPhase D (skipWords (enterWords s)) := dif_neg hnw

theorem wordsMove_skip (i : Instr) (hnw : ¬ 1 < (enterWords s).work.nw.toNat) :
    wordsMove i (enterWords s) = skipWords (enterWords s) := dif_neg hnw

/-- The words run or its skipping, and the tail. -/
theorem PartsToDo.words_reaches (h : PartsToDo d s) :
    Reaches (enterWords s) (finishCipher (dispatchOf d) (restPhase Config.delegate s)) := by
  have hwords : PartsToDo d (enterWords s) := h.of_writesParts rfl rfl rfl
  have hmove : step (enterWords s) = .next (wordsMove (dispatchOf d) (enterWords s)) := hwords.step_dispatchMove
  by_cases hnw : 1 < (enterWords s).work.nw.toNat
  · have hafter : PartsToDo d (afterWords s hnw) :=
      hwords.of_writesParts (wordsBlock_eq _ _) (wordsBlock_port _ _) (wordsBlock_dir _ _)
    have hadvance : PartsToDo d (advanceWords (afterWords s hnw)) := hafter.of_writesParts rfl rfl rfl
    rw [wordsMove_run _ hnw] at hmove
    rw [restPhase_run _ hnw]
    split at hmove
    · next hleft => rw [if_pos hleft]; exact .of_last_step hmove
    · next hleft => rw [if_neg hleft]; exact .of_step hmove (hadvance.tail_reaches rfl)
  · have hskip : PartsToDo d (skipWords (enterWords s)) := hwords.of_writesParts rfl rfl rfl
    rw [wordsMove_skip _ hnw] at hmove
    rw [restPhase_skip _ hnw]
    exact .of_step hmove (hskip.tail_reaches rfl)

/-! The super-blocks (R70). -/

theorem dispatchParts_full_zero (D : Config.Delegate) (hfull : s.work.full.toNat = 0) :
    dispatchParts D s = if s.work.left = 0 then s else restPhase D s := by
  simp only [dispatchParts, hfull, superPhase]

theorem superBlock_full_toNat {n : Nat} (hfull : s.work.full.toNat = n + 1) :
    (superBlock s).work.full.toNat = n := by
  have h1 : (1 : BitVec 26) ≤ s.work.full := BitVec.le_def.2 (show 1 ≤ s.work.full.toNat by omega)
  rw [superBlock_full, BitVec.toNat_sub_of_le h1, hfull]
  rfl

theorem dispatchParts_superBlock (D : Config.Delegate) {n : Nat} (hfull : s.work.full.toNat = n + 1) :
    dispatchParts D s = dispatchParts D (superBlock s) := by
  simp only [dispatchParts, hfull, superBlock_full_toNat hfull, superPhase]

theorem PartsToDo.step_superMove (h : PartsToDo d s) (hphase : s.phase = .super) :
    step s = .next (superMove (dispatchOf d) s) := by
  rw [h.step_dispatchMove]
  simp only [dispatchMove, hphase]

/-- The super-blocks, one a move, and what follows them. -/
theorem PartsToDo.super_reaches {n : Nat} (h : PartsToDo d s) (hphase : s.phase = .super)
    (hfull : s.work.full.toNat = n) :
    Reaches s (finishCipher (dispatchOf d) (dispatchParts Config.delegate s)) := by
  induction n generalizing s with
  | zero =>
    have hmove := h.step_superMove hphase
    rw [superMove, if_pos (BitVec.eq_of_toNat_eq hfull)] at hmove
    rw [dispatchParts_full_zero _ hfull]
    split at hmove
    · next hleft => rw [if_pos hleft]; exact .of_last_step hmove
    · next hleft => rw [if_neg hleft]; exact .of_step hmove h.words_reaches
  | succ n ih =>
    have hmove := h.step_superMove hphase
    rw [superMove, if_neg fun h0 => by simp [h0] at hfull] at hmove
    rw [dispatchParts_superBlock _ hfull]
    have hblock : PartsToDo d (superBlock s) :=
      h.of_writesParts (superBlock_eq s) (superBlock_port s) (superBlock_dir s)
    exact .of_step hmove (ih hblock ((superBlock_phase s).trans hphase) (superBlock_full_toNat hfull))

/-- From the launch on: the checks fault, or every part is done in turn (R65, R67). -/
theorem DispatchInFlight.launch_reaches (h : DispatchInFlight d s) (hphase : s.phase = .idle)
    (hquiet : s.port.status = .quiet) :
    Reaches s (dispatchCommand Config.delegate (dispatchOf d) d s) := by
  have hmove : step s = .next (dispatchLaunch d s) := by
    rw [h.step_dispatchMove (by simp [hquiet])]
    simp only [dispatchMove, hphase]
  simp only [dispatchLaunch] at hmove
  simp only [dispatchCommand]
  cases hc : dispatchCheck s with
  | some c => rw [hc] at hmove; exact .of_last_step hmove
  | none =>
    rw [hc] at hmove
    have hbegin : PartsToDo d (dispatchBegin d s) := ⟨⟨h.inflight, h.todo⟩, hquiet, rfl⟩
    exact .of_step hmove (hbegin.super_reaches rfl rfl)

end

/-- A launched command comes to its atomic result: a dispatch command part by part, any other in one move. -/
theorem launch_reaches {s t : State} {i : Instr} (hrest : AtRest s) (htodo : s.todo = [])
    (ht : exec i (launch i s) = .next t) : Reaches (launch i s) t := by
  obtain ⟨-, -, hphase, -, hquiet⟩ := hrest
  by_cases hd : ∃ d, i = dispatchOf d
  · obtain ⟨d, rfl⟩ := hd
    rw [exec_dispatchOf] at ht
    cases ht
    have hflight : DispatchInFlight d (launch (dispatchOf d) s) := ⟨rfl, htodo⟩
    exact hflight.launch_reaches hphase hquiet
  · have hport : (launch i s).port.status ≠ .requested := by simp [hquiet]
    have hmove : step (launch i s) = exec i (launch i s) :=
      (step_engineMove (s := launch i s) htodo hport).trans (engineMove_exec rfl fun d h => hd ⟨d, h⟩)
    exact .of_last_step (hmove.trans ht)

/-- Settles O55: the moves of a command in flight are the parts of the atomic command, in order. -/
theorem commandInFlightReachesTheAtomicResult : Obligations.CommandInFlightReachesTheAtomicResult := by
  intro s i hrest htodo _
  obtain ⟨t, ht⟩ := exec_answers i (launch i s)
  obtain ⟨k, hk⟩ := launch_reaches hrest htodo ht
  exact ⟨k, t, ht, hk⟩

end Sys2Proof.Laws

/-! PROOF. The encoding (R46, R47, R49, R53): the decoders and the encoder agree both ways, and which command words are
illegal. -/

namespace Sys2Proof.Laws

open Sys2Proof.Machine

/-! Request headers (R53): each of the sixteen is the encoding of what it reads as. -/

theorem decodeTail_tailHeader_enc : ∀ len : BitVec 3, decodeTail (tailHeader .enc len) = .tailEnc len := by decide

theorem decodeTail_tailHeader_dec : ∀ len : BitVec 3, decodeTail (tailHeader .dec len) = .tailDec len := by decide

theorem encode_decodeTail : ∀ h : BitVec 4, encode (decodeTail h) = .thdr h := by decide

/-! Command words (R46, R47, R49). -/

/-- A command word is its two fields (R46). -/
theorem rsvField_append_opField (w : Word) : rsvField w ++ opField w = w := by
  refine BitVec.eq_of_toNat_eq ?_
  have hw := w.isLt
  simp only [toNat_append_add, rsvField, opField, BitVec.extractLsb'_toNat, Nat.shiftRight_eq_div_pow]
  omega

/-- The encoding of an opcode's command is that opcode under reserved bits 0 (R47). -/
theorem encode_of_decodeOp {op : BitVec 4} {i : Instr} (h : decodeOp op = .ok i) :
    encode i = .cmd ((0 : BitVec 28) ++ op) := by
  simp only [decodeOp] at h
  split at h <;> cases h
  all_goals
    next hop => exact congrArg Wire.cmd (BitVec.eq_of_toNat_eq (by rw [toNat_append_add, hop]; rfl))

theorem encode_of_decodeCmd {w : Word} {i : Instr} (h : decodeCmd w = .ok i) : encode i = .cmd w := by
  obtain ⟨hrsv, hop⟩ := decodeCmd_ok h
  rw [encode_of_decodeOp hop, ← hrsv, rsvField_append_opField]

theorem decodeOp_reserved : ∀ op : BitVec 4, 9 ≤ op.toNat → decodeOp op = .error (.reservedOpcode op) := by decide

theorem decodeOp_assigned : ∀ op : BitVec 4, op.toNat < 9 → ∃ i, decodeOp op = .ok i := by
  have h : ∀ op : BitVec 4, op.toNat < 9 → (decodeOp op).isOk = true := by decide
  intro op hop
  cases hd : decodeOp op with
  | ok i => exact ⟨i, rfl⟩
  | error e => simpa [hd, Except.isOk, Except.toBool] using h op hop

/-- Which words are no command (R49). -/
theorem decodeCmd_illegal {w : Word} (h : 9 ≤ (opField w).toNat ∨ rsvField w ≠ 0) : ∃ e, decodeCmd w = .error e := by
  by_cases hrsv : rsvField w = 0
  · exact ⟨_, (if_pos hrsv).trans (decodeOp_reserved _ (h.resolve_right (not_not_intro hrsv)))⟩
  · exact ⟨_, if_neg hrsv⟩

theorem decodeCmd_legal {w : Word} (h : ¬ (9 ≤ (opField w).toNat ∨ rsvField w ≠ 0)) : ∃ i, decodeCmd w = .ok i := by
  obtain ⟨hop, hrsv⟩ := not_or.1 h
  obtain ⟨i, hi⟩ := decodeOp_assigned _ (Nat.not_le.1 hop)
  exact ⟨i, (if_pos (not_not.1 hrsv)).trans hi⟩

/-! Both channels. -/

theorem decode_encode (i : Instr) : decode (encode i) = .ok i := by
  cases i with
  | tailEnc len => exact congrArg Except.ok (decodeTail_tailHeader_enc len)
  | tailDec len => exact congrArg Except.ok (decodeTail_tailHeader_dec len)
  | _ => rfl

theorem encode_of_decode {x : Wire} {i : Instr} (h : decode x = .ok i) : encode i = x := by
  cases x with
  | cmd w => exact encode_of_decodeCmd h
  | thdr hdr => cases h; exact encode_decodeTail hdr

/-- Settles O2: a word is its two fields, so only one word carries an opcode; a header is its direction and length. -/
theorem decodeAndEncodeAgree : Obligations.DecodeAndEncodeAgree :=
  ⟨decode_encode, fun _ _ => encode_of_decode⟩

/-- Settles O1: each word is looked up in the tables. -/
theorem tableWordsDecode : Obligations.TableWordsDecode :=
  ⟨rfl, rfl, rfl, rfl, rfl, rfl, rfl, rfl, rfl, rfl⟩

end Sys2Proof.Laws

/-! PROOF. The step on each kind of register access (R50, R51, R60, R122) and on the delegate's move (R95). -/

namespace Sys2Proof.Laws

open Sys2Proof.Machine

/-! Register accesses. -/

/-- A scheduled host write, waiting or not, is taken off the schedule and made. -/
theorem step_hostWrite {s : State} {off : BitVec 6} {v : Word} {rest : List Move}
    (h : s.todo = .wr off v :: rest ∨ s.todo = .post off v :: rest) :
    ∃ wait, step s = hostWrite wait off v { s with todo := rest } := by
  rcases h with h | h
  · exact ⟨true, step_scheduled h⟩
  · exact ⟨false, step_scheduled h⟩

theorem regAligned_iff (off : BitVec 6) : regAligned off = true ↔ off.toNat % 4 = 0 := beq_iff_eq

section
variable {s : State} {off : BitVec 6} (wait : Bool) (v : Word)

theorem hostWrite_unaligned (ha : off.toNat % 4 ≠ 0) : hostWrite wait off v s = .refused .unalignedRegisterAccess := by
  simp [hostWrite, regAligned_iff, ha]

theorem hostRead_unaligned (ha : off.toNat % 4 ≠ 0) : hostRead off s = .refused .unalignedRegisterAccess := by
  simp [hostRead, regAligned_iff, ha]

theorem hostRead_aligned (ha : off.toNat % 4 = 0) :
    hostRead off s = .next { s with hostWord := readReg (regAt off) s } := by
  simp [hostRead, regAligned_iff, ha]

theorem hostWrite_busy (hb : s.busy = true) (ha : off.toNat % 4 = 0) : hostWrite wait off v s = .next s := by
  simp [hostWrite, regAligned_iff, ha, hb]

theorem hostWrite_cmd (hb : s.busy = false) : hostWrite wait 0x00 v s = cmdWrite wait v s :=
  (if_neg (by decide)).trans ((if_neg (by simp [hb])).trans (if_pos rfl))

end

/-- What a host reads at each offset (R50, R51 (c), (d)). -/
theorem readReg_regAt (off : BitVec 6) (s : State) :
    readReg (regAt off) s =
      if off = 0x04 then s.status else if off = 0x08 then s.start else if off = 0x0C then s.count
      else if off = 0x10 then s.buflen else 0 := by
  rw [regAt_eq]
  by_cases h0 : off = 0x00
  · subst h0; rfl
  · rw [if_neg h0]
    split_ifs <;> rfl

/-- Settles O8: while `BUSY` is 1 an aligned write is ignored, wherever it goes. -/
theorem registerWritesWhileBusyAreLost : Obligations.RegisterWritesWhileBusyAreLost := by
  intro s off v rest hb ha htodo
  obtain ⟨wait, hstep⟩ := step_hostWrite htodo
  exact hstep.trans (hostWrite_busy wait v hb ha)

/-- Settles O9: the register map gives what an aligned read returns; `STATUS` does not show the schedule. -/
theorem hostReadsReturnTheRegister : Obligations.HostReadsReturnTheRegister := by
  intro s off rest ha htodo
  rw [step_scheduled htodo, makeMove, hostRead_aligned ha, readReg_regAt]
  rfl

/-- Settles O12: the alignment is tested before anything else. -/
theorem narrowRegisterAccessesAreRefused : Obligations.NarrowRegisterAccessesAreRefused := by
  intro s off v rest
  refine ⟨step_scheduled, fun ha htodo => ?_⟩
  rcases htodo with h | h | h
  · exact (step_scheduled h).trans (hostWrite_unaligned true v ha)
  · exact (step_scheduled h).trans (hostWrite_unaligned false v ha)
  · exact (step_scheduled h).trans (hostRead_unaligned ha)

/-! The launch of a command (R49, R60). -/

section
variable {s : State} (hb : s.busy = false) (hf : s.fault = false)
include hb hf

theorem cmdWrite_illegal (wait : Bool) {w : Word} {e : DecodeError} (he : decodeCmd w = .error e) :
    cmdWrite wait w s = .next (raiseFault .illCmd s) := by
  simp [cmdWrite, hb, hf, he]

theorem cmdWrite_launches {w : Word} {i : Instr} (hi : decodeCmd w = .ok i) :
    cmdWrite true w s = exec i (launch i s) := by
  simp [cmdWrite, hb, hf, hi]

/-- A waiting `CMD` write of a command's word is `exec` of the command, launched (R60). -/
theorem step_launches {w : Word} {i : Instr} {rest : List Move} (htodo : s.todo = .wr 0x00 w :: rest)
    (hi : decodeCmd w = .ok i) : step s = exec i (launch i { s with todo := rest }) :=
  (step_scheduled htodo).trans ((hostWrite_cmd true w (s := { s with todo := rest }) hb).trans
    (cmdWrite_launches (s := { s with todo := rest }) hb hf hi))

end

/-- An engine at rest is as the end of a command leaves it (R128). -/
theorem toIdle_of_atRest {s : State} (h : AtRest s) : s.toIdle = s := by
  obtain ⟨hbusy, hinflight, hphase, htouched, hport⟩ := h
  rcases s with ⟨_, _, _, _, _, _, _, _, _, _, _, _, _, ⟨_, _, _, _, _, _⟩, _, _, _, _, _, _⟩
  dsimp only at hbusy hinflight hphase htouched hport
  subst hbusy hinflight hphase htouched hport
  rfl

theorem raiseFault_of_atRest (c : FCode) {s : State} (h : AtRest s) :
    raiseFault c s = { s with fault := true, fcode := c.code, faulted := true } := by
  rw [raiseFault, toIdle_of_atRest h]

theorem hostWrite_illegal (wait : Bool) {s : State} {w : Word} {e : DecodeError} (hrest : AtRest s)
    (hf : s.fault = false) (he : decodeCmd w = .error e) :
    hostWrite wait 0x00 w s = .next { s with fault := true, fcode := 4, faulted := true } := by
  have ⟨hb, _⟩ := hrest
  rw [hostWrite_cmd wait w hb, cmdWrite_illegal hb hf wait he, raiseFault_of_atRest _ hrest]
  rfl

/-- Settles O3: an illegal word is rejected by the decoder, and the fault finds the engine already at rest; a legal one
decodes, and then it is the command's encoding. -/
theorem illegalCommandWordsFault : Obligations.IllegalCommandWordsFault := by
  refine fun w => ⟨fun hill s rest hrest hf htodo => ?_, fun hleg => ?_⟩
  · obtain ⟨e, he⟩ := decodeCmd_illegal hill
    obtain ⟨wait, hstep⟩ := step_hostWrite htodo
    exact hstep.trans (hostWrite_illegal wait (s := { s with todo := rest }) hrest hf he)
  · obtain ⟨i, hi⟩ := decodeCmd_legal hleg
    exact ⟨i, hi, decodeCmd_isCommand hi, encode_of_decodeCmd hi⟩

/-! The delegate's moves. -/

/-- Settles O5: the delegate executes what the header decodes to. -/
theorem stepRunsTheDelegatesOperation : Obligations.StepRunsTheDelegatesOperation :=
  fun _ _ htodo hport => (step_scheduled htodo).trans (if_pos hport)

end Sys2Proof.Laws

/-! PROOF. Host programs (R55, R56): the lines of a pseudo-command, one step each, come to what it stands for. -/

namespace Sys2Proof.Laws

open Sys2Proof.Machine

/-! Running the lines. -/

/-- `k` steps of the machine, in the model's own types. -/
def runSteps (k : Nat) (s : State) : Host.Outcome State Fault Refusal := Host.Core.run Sys2Proof.core k s

theorem runSteps_succ (k : Nat) {s t : State} (h : step s = .next t) : runSteps (k + 1) s = runSteps k t := by
  have hcore : Host.Core.step Sys2Proof.core s = .next t := h
  simp only [runSteps, Host.Core.run, hcore]
  rfl

theorem runSteps_one (s : State) : runSteps 1 s = step s := by
  have hcore : Host.Core.step Sys2Proof.core s = step s := rfl
  simp only [runSteps, Host.Core.run, hcore]
  cases step s <;> rfl

/-! The lines that launch a command: writes to operand registers, then the `CMD` write (R55). -/

/-- The operand registers written one after the other, each write an offset and a word. -/
def writeRegs : List (BitVec 6 × Word) → State → State
  | [], s => s
  | (off, v) :: lines, s => writeRegs lines (writeReg (regAt off) v s)

/-- The lines that make these writes. -/
def registerLines (lines : List (BitVec 6 × Word)) : List Move := lines.map fun line => .wr line.1 line.2

/-- Every offset is that of a whole register that is not `CMD` (R50, R51). -/
def sparesCmd (offs : List (BitVec 6)) : Bool := offs.all fun off => regAligned off && off != 0x00

/-- The state with this schedule. -/
def withTodo (l : List Move) (s : State) : State := { s with todo := l }

section
variable (r : Reg) (v : Word) (s : State) (l : List Move)

theorem writeReg_busy : (writeReg r v s).busy = s.busy := by cases r <;> rfl
theorem writeReg_fault : (writeReg r v s).fault = s.fault := by cases r <;> rfl
theorem writeReg_withTodo : writeReg r v (withTodo l s) = withTodo l (writeReg r v s) := by cases r <;> rfl

theorem writeRegs_withTodo (lines : List (BitVec 6 × Word)) :
    writeRegs lines (withTodo l s) = withTodo l (writeRegs lines s) := by
  induction lines generalizing s with
  | nil => rfl
  | cons line lines ih => rw [writeRegs, writeReg_withTodo, ih, writeRegs]

end

/-- A line that writes an operand register of an idle engine (R51). -/
theorem step_writeReg {s : State} {off : BitVec 6} {v : Word} {rest : List Move} (htodo : s.todo = .wr off v :: rest)
    (hb : s.busy = false) (ha : off.toNat % 4 = 0) (h0 : off ≠ 0x00) :
    step s = .next (withTodo rest (writeReg (regAt off) v s)) := by
  rw [← writeReg_withTodo]
  exact (step_scheduled htodo).trans (hostWrite_idle (s := withTodo rest s) true v hb ha h0)

/-- The lines come to `exec` of the command, launched with the operands they wrote (R60). -/
theorem runSteps_launch {lines : List (BitVec 6 × Word)} {w : Word} {i : Instr} {rest : List Move} {s : State}
    (hoffs : sparesCmd (lines.map Prod.fst) = true) (hi : decodeCmd w = .ok i) (hb : s.busy = false) (hf : s.fault = false)
    (htodo : s.todo = registerLines lines ++ .wr HostProgram.offCmd w :: rest) :
    runSteps (lines.length + 1) s = exec i (launch i (withTodo rest (writeRegs lines s))) := by
  induction lines generalizing s with
  | nil => exact (runSteps_one s).trans (step_launches hb hf htodo hi)
  | cons line lines ih =>
    simp only [sparesCmd, List.map_cons, List.all_cons, Bool.and_eq_true, bne_iff_ne, regAligned_iff] at hoffs
    obtain ⟨⟨ha, h0⟩, hoffs⟩ := hoffs
    have hrun := ih hoffs (s := withTodo (registerLines lines ++ .wr HostProgram.offCmd w :: rest)
      (writeReg (regAt line.1) line.2 s)) ((writeReg_busy ..).trans hb) ((writeReg_fault ..).trans hf) rfl
    rw [writeRegs_withTodo] at hrun
    exact (runSteps_succ _ (step_writeReg htodo hb ha h0)).trans hrun

/-- The writes of the key's four words to `KEYIN0..3` (R56). -/
def keyinLines (k : Key) : List (BitVec 6 × Word) :=
  [(HostProgram.offKeyin 0, k[0]), (HostProgram.offKeyin 1, k[1]), (HostProgram.offKeyin 2, k[2]),
    (HostProgram.offKeyin 3, k[3])]

/-- Four writes to `KEYIN0..3` fill it (R19). -/
theorem set_keyin (v k : Key) : (((v.set 0 k[0]).set 1 k[1]).set 2 k[2]).set 3 k[3] = k := by
  refine Vector.ext fun i hi => ?_
  have : i = 0 ∨ i = 1 ∨ i = 2 ∨ i = 3 := by omega
  rcases this with rfl | rfl | rfl | rfl <;> simp

/-! The pseudo-commands on an engine at rest (R56). -/

section
variable {s : State} {rest : List Move} (hrest : AtRest s)
include hrest

theorem run_setlen {n : Word} (htodo : s.todo = HostProgram.setlen n ++ rest) :
    runSteps 1 s = .next { s with todo := rest, buflen := n } :=
  have ⟨hb, _⟩ := hrest
  (runSteps_one s).trans (step_writeReg htodo hb (by decide) (by decide))

/-- `CLRF` is taken with and without a recorded fault (R60, R106). -/
theorem cmdWrite_clrf : cmdWrite true clrfWord s = .next (clearFault s) := by
  have ⟨hb, _⟩ := hrest
  have hidle : (clearFault s).toIdle = clearFault s := toIdle_of_atRest hrest
  cases hf : s.fault with
  | true => simp [cmdWrite, hb, hf, exec_clrf, hidle]
  | false =>
    rw [cmdWrite_launches hb hf (i := .clrf) rfl, exec_clrf]
    exact congrArg Host.Outcome.next hidle

theorem run_clrf (htodo : s.todo = HostProgram.clrf ++ rest) :
    runSteps 1 s = .next { s with todo := rest, fault := false, fcode := 0 } :=
  have ⟨hb, _⟩ := hrest
  (runSteps_one s).trans ((step_scheduled htodo).trans ((hostWrite_cmd true _ (s := { s with todo := rest }) hb).trans
    (cmdWrite_clrf (s := { s with todo := rest }) hrest)))

variable (hf : s.fault = false)
include hf

theorem run_nop (htodo : s.todo = HostProgram.nop ++ rest) : runSteps 1 s = .next { s with todo := rest } := by
  have ⟨hb, _⟩ := hrest
  rw [runSteps_one, step_launches hb hf htodo (i := .nop) rfl, exec_nop]
  exact congrArg Host.Outcome.next (toIdle_of_atRest (s := { s with todo := rest }) hrest)

/-- The last line of `LOADKEY` takes what the four before it left in `KEYIN0..3` (R62). -/
theorem run_loadkey {k : Key} (htodo : s.todo = HostProgram.loadkey k[0] k[1] k[2] k[3] ++ rest) :
    runSteps 5 s = .next { s with todo := rest, keyin := k, key := k, keyv := true } := by
  have ⟨hb, _⟩ := hrest
  have hkeyin : writeRegs (keyinLines k) s = { s with keyin := k } :=
    congrArg (fun v => { s with keyin := v }) (set_keyin s.keyin k)
  have hoffs : sparesCmd [HostProgram.offKeyin 0, HostProgram.offKeyin 1, HostProgram.offKeyin 2,
    HostProgram.offKeyin 3] = true := by decide
  have hrun := runSteps_launch (lines := keyinLines k) (i := .loadkey) hoffs rfl hb hf htodo
  rw [hkeyin, exec_loadkey] at hrun
  exact hrun.trans (congrArg Host.Outcome.next
    (toIdle_of_atRest (s := { s with todo := rest, keyin := k, key := k, keyv := true }) hrest))

end

/-- `FILL` writes its bytes at rising offsets, and nothing else (R56). -/
theorem run_fill {s : State} {rest : List Move} {a : Word} {bytes : List Byte} (hidle : s.inflight = none)
    (hwf : Memory.wf s.buf = true) (hfit : a.toNat + bytes.length ≤ 2 ^ 32)
    (htodo : s.todo = HostProgram.fill a bytes ++ rest) :
    ∃ t, runSteps bytes.length s = .next t ∧ t = { s with todo := rest, buf := t.buf } ∧
      (∀ j, (h : j < bytes.length) → readByte t.buf (a.toNat + j) = bytes[j]) ∧
      ∀ c, c < a.toNat ∨ a.toNat + bytes.length ≤ c → readByte t.buf c = readByte s.buf c := by
  induction bytes generalizing s a with
  | nil =>
    obtain rfl : s.todo = rest := htodo
    exact ⟨s, rfl, rfl, fun j h => absurd h (Nat.not_lt_zero j), fun _ _ => rfl⟩
  | cons b bytes ih =>
    rw [List.length_cons] at hfit
    have hnext : (a + 1).toNat = (a.toNat + 1) % 2 ^ 32 := BitVec.toNat_add a 1
    have hpoke : step s = .next { s with todo := HostProgram.fill (a + 1) bytes ++ rest,
                                         buf := writeByte s.buf a.toNat b } := by
      rw [step_scheduled htodo, makeMove, poke]
      simp [hidle]
    obtain ⟨t, hrun, hframe, hin, hout⟩ := ih (a := a + 1)
      (s := { s with todo := HostProgram.fill (a + 1) bytes ++ rest, buf := writeByte s.buf a.toNat b })
      hidle (wf_writeByte hwf _ _) (by omega) rfl
    refine ⟨t, (runSteps_succ _ hpoke).trans hrun, hframe, fun j hj => ?_, fun c hc => ?_⟩
    · cases j with
      | zero =>
        rw [hout _ (by omega)]
        exact (readByte_writeByte hwf _ _ b).trans (if_pos rfl)
      | succ j =>
        have hj : j < bytes.length := Nat.lt_of_succ_lt_succ hj
        rw [show a.toNat + (j + 1) = (a + 1).toNat + j by omega]
        exact hin j hj
    · rw [List.length_cons] at hc
      rw [hout c (by omega)]
      exact readByte_writeByte_ne _ _ _ _ (by omega)

/-- Settles O11: every line of an expansion is one step, and the last line of a command launches it. -/
theorem pseudoCommandsLaunchTheirCommand : Obligations.PseudoCommandsLaunchTheirCommand := by
  refine ⟨fun s rest hrest htodo => run_clrf hrest htodo,
    fun s rest a bytes ⟨_, hidle, _⟩ hwf hfit htodo => run_fill hidle hwf hfit htodo, fun s rest a n hrest hf => ?_⟩
  have ⟨hb, _⟩ := hrest
  refine ⟨run_nop hrest hf, fun k => run_loadkey hrest hf, run_setlen hrest, fun p hp htodo => ?_,
    fun p hp htodo => ?_⟩
  · have hoffs : sparesCmd [HostProgram.offStart, HostProgram.offCount] = true := by decide
    simp only [List.mem_cons, List.not_mem_nil, or_false] at hp
    rcases hp with rfl | rfl | rfl | rfl <;>
      exact runSteps_launch (lines := [(HostProgram.offStart, a), (HostProgram.offCount, n)]) hoffs rfl hb hf htodo
  · have hoffs : sparesCmd [HostProgram.offStart] = true := by decide
    simp only [List.mem_cons, List.not_mem_nil, or_false] at hp
    rcases hp with rfl | rfl <;>
      exact runSteps_launch (lines := [(HostProgram.offStart, a)]) hoffs rfl hb hf htodo

end Sys2Proof.Laws

/-! PROOF. `STATUS` (R21, R52). -/

namespace Sys2Proof.Laws

open Sys2Proof.Machine

theorem flagBit_toNat (b : Bool) : (flagBit b).toNat = if b then 1 else 0 := by
  cases b <;> rfl

/-- `STATUS` as a number, its fields weighted by their places (R52). -/
theorem status_toNat (s : State) :
    s.status.toNat = (if s.busy then 1 else 0) + 2 * (if s.fault then 1 else 0) + 4 * (if s.keyv then 1 else 0) +
      16 * s.fcode.toNat := by
  have h0 : (0 : BitVec 24).toNat = 0 ∧ (0 : BitVec 1).toNat = 0 := ⟨rfl, rfl⟩
  simp only [State.status, toNat_append_add, flagBit_toNat, h0]
  omega

/-- Settles O16: the fields weighted by their places; on an idle engine only the key flag and a code 1 to 4 are free. -/
theorem statusLayoutAndIdleValues : Obligations.StatusLayoutAndIdleValues := by
  refine ⟨status_toNat, fun s h hb => ?_⟩
  have hcode := h.code
  have hlegal := h.legalCode
  simp only [State.status, hb]
  generalize s.fault = fault at *
  generalize s.fcode = fcode at *
  generalize s.keyv = keyv at *
  clear h hb
  revert fault fcode keyv
  decide

end Sys2Proof.Laws

/-! PROOF. The tail port (R53, R54, R95 to R99, R127): what the delegate answers, what the engine asks and when, and how
it takes an answer. -/

namespace Sys2Proof.Laws

open Sys2Proof.Machine

/-! The delegate's answer (R54, R96, R97). -/

/-- Settles O53: each operation is the delegate's answer in its direction, which writes the response's fields only. -/
theorem tailOperationsAnswer : Obligations.TailOperationsAnswer :=
  fun s len => ⟨⟨_, rfl, fun _ h => respond_rdata Config.delegate .enc len s h, rfl, rfl⟩,
    ⟨_, rfl, fun _ h => respond_rdata Config.delegate .dec len s h, rfl, rfl⟩⟩

/-! The answer is taken as it stands (R54, R98, R127). -/

/-- Under the invariant an answered request is that of a dispatch command in flight in its tail phase, for exactly the
bytes left (R53, R95). -/
theorem engineInv_answered_request {s : State} {i : Instr} (h : EngineInv s) (hi : s.inflight = some i)
    (hp : s.port.status = .answered) :
    s.phase = .tail ∧ (∃ d, i = dispatchOf d) ∧ s.work.left.toNat = (tlenField s.port.thdr).toNat := by
  obtain ⟨hphase, hthdr⟩ := h.port (by simp [hp])
  obtain ⟨-, -, -, h7⟩ := (progress_tail hphase).1 h.progress
  refine ⟨hphase, ?_, ?_⟩
  · rcases h.running (by simp [hphase]) with ⟨hi', -⟩ | ⟨hi', -⟩
    · exact ⟨.enc, Option.some.inj (hi.symm.trans hi')⟩
    · exact ⟨.dec, Option.some.inj (hi.symm.trans hi')⟩
  · rw [hthdr, tlenField_tailHeader, BitVec.toNat_setWidth]
    omega

theorem engineMove_dispatchOf {s : State} {d : Dir} (hi : s.inflight = some (dispatchOf d)) :
    engineMove s = .next (dispatchMove (dispatchOf d) d s) := by
  cases d <;> simp only [engineMove, hi, dispatchOf]

/-- The engine's move on an answered request writes the answer back and ends the command (R98). -/
theorem engineMove_tailBack {s : State} {i : Instr} (h : EngineInv s) (hi : s.inflight = some i)
    (hp : s.port.status = .answered) : engineMove s = .next (finishCipher i (tailBack s)) := by
  obtain ⟨hphase, ⟨d, rfl⟩, -⟩ := engineInv_answered_request h hi hp
  rw [engineMove_dispatchOf hi]
  simp only [dispatchMove, hphase, tailMove, hp]

/-- The answer's first `TLEN` bytes stand at `OFF` (R54, R98). -/
theorem readByte_tailBack {s : State} (hwf : Memory.wf s.buf = true) {k : Nat}
    (hk : k < (tlenField s.port.thdr).toNat) :
    some (readByte (tailBack s).buf (s.work.off.toNat + k)) = s.port.rdata[k]? := by
  have h7 : k < 7 := by have := (tlenField s.port.thdr).isLt; omega
  rw [tailBack, readByte_writeBytes hwf _ _ _ _ hk]
  simp [h7]

theorem readByte_tailBack_outside {s : State} {c : Nat}
    (hc : c < s.work.off.toNat ∨ s.work.off.toNat + (tlenField s.port.thdr).toNat ≤ c) :
    readByte (tailBack s).buf c = readByte s.buf c := readByte_writeBytes_outside _ _ _ _ _ hc

/-- Settles O59: an answer is put on the port; the engine's next move writes it back, and with no other agent's write in
the region the end of the command settles nothing. -/
theorem answersAreTakenAsTheyStand : Obligations.AnswersAreTakenAsTheyStand := by
  refine ⟨fun s r rest htodo hp => (step_scheduled htodo).trans (if_pos hp),
    fun s i rest h hi hp htodo howned => ⟨(engineInv_answered_request h hi hp).2.2, ?_⟩⟩
  have hinv : EngineInv { s with todo := rest } := engineInv_hostSide h rest _ _ _
  have hwrites : WritesParts { s with todo := rest } (tailBack { s with todo := rest }) := rfl
  have howned' : Owned i { s with todo := rest } := fun a ha =>
    (inRegion_congr (s := s) rfl rfl rfl rfl a).trans (howned a ha)
  have hbuf := finishCipher_buf_of_owned hwrites howned'
  refine ⟨_, (step_scheduled htodo).trans (engineMove_tailBack hinv hi hp), fun k hk => ?_, fun c hc => ?_,
    keepsRegisters_finishCipher i hwrites⟩
  · rw [hbuf]
    exact readByte_tailBack (s := { s with todo := rest }) h.canonical hk
  · rw [hbuf]
    exact readByte_tailBack_outside (s := { s with todo := rest }) hc

/-! Which requests a command sends (R72, R95, R98, R99). -/

/-- From `s` to `t` one request was sent, of direction `d` for the `n` bytes at `off` of the buffer of `s` (R53, R98). -/
structure AsksTail (d : Dir) (off n : Nat) (s t : State) : Prop where
  sent : t.port.sent = s.port.sent + 1
  tkey : t.port.tkey = s.key
  thdr : t.port.thdr = tailHeader d (BitVec.ofNat 3 n)
  tdata : ∀ k : Fin 7, t.port.tdata[k] = if k.val < n then readByte s.buf (off + k.val) else 0

/-- A request was sent exactly if there is a tail (R72, R99). -/
def AsksIfTail (d : Dir) (off n : Nat) (s t : State) : Prop :=
  (n = 0 → t.port = s.port) ∧ (n ≠ 0 → AsksTail d off n s t)

/-- What came before the request does not show in it, if it left the key, the port and the tail's bytes alone. -/
theorem AsksTail.congr {d : Dir} {off n : Nat} {s s' t : State} (h : AsksTail d off n s' t) (hkey : s'.key = s.key)
    (hport : s'.port = s.port) (hbuf : SameBytes off n s.buf s'.buf) : AsksTail d off n s t where
  sent := by rw [h.sent, hport]
  tkey := by rw [h.tkey, hkey]
  thdr := h.thdr
  tdata := fun k => by
    rw [h.tdata k]
    split
    · next hk => exact hbuf k.val hk
    · rfl

theorem asksTail_tailPhase (D : Config.Delegate) (s : State) :
    AsksTail s.work.dir s.work.off.toNat s.work.left.toNat s (tailPhase D s) := by
  have hport : (tailPhase D s).port = (respond D s.work.dir (s.work.left.setWidth 3) (tailSend s)).port := by
    rw [tailPhase_acts, tailBack_port]
  exact {
    sent := by rw [hport]; rfl
    tkey := by rw [hport]; rfl
    thdr := by rw [hport]; rfl
    tdata := fun k => by rw [hport]; simp [respond, tailSend] }

/-- After the super-blocks: the words run sends nothing, the tail phase asks for what it leaves (R71, R72). -/
theorem asksIfTail_restPhase (D : Config.Delegate) {s : State} (ho : s.work.off.toNat + s.work.left.toNat < 2 ^ 32)
    (hne : s.work.left ≠ 0) :
    AsksIfTail s.work.dir (s.work.off.toNat + 4 * runWords s.work.left.toNat)
      (s.work.left.toNat - 4 * runWords s.work.left.toNat) s (restPhase D s) := by
  have hnw := enterWords_nw_toNat s
  by_cases h : 1 < (enterWords s).work.nw.toNat
  · have hrun : runWords s.work.left.toNat = s.work.left.toNat / 4 := if_pos (by omega)
    have hleft := afterWords_left h
    have htail : s.work.left.toNat - 4 * (s.work.left.toNat / 4) = s.work.left.toNat % 4 := by omega
    have hdir : (afterWords s h).work.dir = s.work.dir := by rw [afterWords, wordsBlock_dir]; rfl
    have hkey : (afterWords s h).key = s.key := by rw [afterWords, wordsBlock_key]; rfl
    have hport : (afterWords s h).port = s.port := by rw [afterWords, wordsBlock_port]; rfl
    rw [hrun, htail, restPhase_run D h]
    split
    · next h0 =>
      have h0 : s.work.left.toNat % 4 = 0 := by rw [← hleft, h0]; rfl
      exact ⟨fun _ => hport, fun hn => absurd h0 hn⟩
    · next h0 =>
      have hask := asksTail_tailPhase D (advanceWords (afterWords s h))
      rw [afterWords_off h ho, advanceWords_left, hleft, advanceWords_dir, hdir] at hask
      refine ⟨fun hn => ?_, fun _ => hask.congr hkey hport fun r _ => afterWords_outside h (.inr (by omega))⟩
      exact absurd (BitVec.eq_of_toNat_eq (y := 0) (hleft.trans hn)) h0
  · have hrun : runWords s.work.left.toNat = 0 := if_neg (by omega)
    rw [hrun, restPhase_skip D h]
    refine ⟨fun hn => absurd (BitVec.eq_of_toNat_eq hn) hne, fun _ => ?_⟩
    exact (asksTail_tailPhase D (skipWords (enterWords s))).congr rfl rfl fun _ _ => rfl

/-- All the parts of a dispatch: the super-blocks send nothing (R70). -/
theorem asksIfTail_dispatchParts (D : Config.Delegate) (d : Dir) {s : State}
    (hr : s.start.toNat + s.count.toNat < 2 ^ 32) :
    AsksIfTail d (s.start.toNat + (s.count.toNat - (partition s.count.toNat).tail)) (partition s.count.toNat).tail s
      (dispatchParts D (dispatchBegin d s)) := by
  have hleft := afterSupers_left (d := d) (s := s)
  have hport : (afterSupers d s).port = s.port := by rw [afterSupers, superPhase_eq]; rfl
  rw [dispatchParts_dispatchBegin, partition_tail]
  split
  · next h0 =>
    have h0 : s.count.toNat % 64 = 0 := by rw [← hleft, h0]; rfl
    exact ⟨fun _ => hport, fun hn => absurd (by rw [h0]; rfl) hn⟩
  · next h0 =>
    have hoff := afterSupers_off (d := d) hr
    have hask := asksIfTail_restPhase D (s := afterSupers d s) (by omega) h0
    have hrun : 4 * runWords (s.count.toNat % 64) ≤ s.count.toNat % 64 := by unfold runWords; split <;> omega
    rw [hoff, hleft, afterSupers_dir, show s.start.toNat + 64 * (s.count.toNat / 64) +
        4 * runWords (s.count.toNat % 64) = s.start.toNat + (s.count.toNat - (s.count.toNat % 64 -
          4 * runWords (s.count.toNat % 64))) by omega] at hask
    exact hask.imp (fun hquiet hn => (hquiet hn).trans hport) fun hsend hn =>
      (hsend hn).congr afterSupers_key hport fun r _ => afterSupers_beyond hr (by omega)

@[simp] theorem finish_port (i : Instr) (s : State) : (finish i s).port = { s.port with status := .quiet } := by
  simp [finish]

@[simp] theorem finishCipher_port (i : Instr) (s : State) :
    (finishCipher i s).port = { s.port with status := .quiet } := by
  simp [finishCipher]

/-- The direct commands send no request (R95). -/
theorem fixedCommand_sent (i : Instr) (d : Dir) (s : State) : (fixedCommand i d s).port.sent = s.port.sent := by
  unfold fixedCommand
  split_ifs <;> simp

theorem wordsCommand_sent (i : Instr) (d : Dir) (s : State) : (wordsCommand i d s).port.sent = s.port.sent := by
  unfold wordsCommand
  split_ifs <;> simp

/-- No command but the dispatch commands sends a request (R95). -/
theorem exec_sent {i : Instr} {s t : State}
    (hi : i ∈ [Instr.nop, .loadkey, .clrf, .encFixed, .decFixed, .encWords, .decWords]) (h : exec i s = .next t) :
    t.port.sent = s.port.sent := by
  simp only [List.mem_cons, List.not_mem_nil, or_false] at hi
  rcases hi with rfl | rfl | rfl | rfl | rfl | rfl | rfl
  · rw [exec_nop] at h; cases h; rfl
  · rw [exec_loadkey] at h; cases h; rfl
  · rw [exec_clrf] at h; cases h; rfl
  · cases h; exact fixedCommand_sent ..
  · cases h; exact fixedCommand_sent ..
  · cases h; exact wordsCommand_sent ..
  · cases h; exact wordsCommand_sent ..

/-- Settles O49: the request is what the dispatch's tail phase sent; the end of the command makes the port quiet and
keeps its fields. -/
theorem tailPortUse : Obligations.TailPortUse := by
  refine ⟨fun s hk hr p hp => ?_, fun s t i hi ht => exec_sent hi ht⟩
  obtain ⟨d, rfl⟩ : ∃ d, p = (dispatchOf d, d) := by
    simp only [List.mem_cons, List.not_mem_nil, or_false] at hp
    rcases hp with rfl | rfl
    · exact ⟨.enc, rfl⟩
    · exact ⟨.dec, rfl⟩
  obtain ⟨hquiet, hsend⟩ := asksIfTail_dispatchParts Config.delegate d (inRange_lt hr)
  refine ⟨_, exec_dispatchOf d s, ?_⟩
  rw [dispatchCommand_done _ _ _ hk hr, finishCipher_port]
  refine ⟨fun hn => by rw [hquiet hn], fun hn => ?_⟩
  obtain ⟨sent, tkey, thdr, tdata⟩ := hsend hn
  exact ⟨sent, tkey, thdr, tdata⟩

end Sys2Proof.Laws

/-! PROOF. Launching a command (R60) and the control commands (R61 to R63). -/

namespace Sys2Proof.Laws

open Sys2Proof.Machine

/-! The launch (R60). -/

/-- Settles O4: the launch finds the state with the move taken off the schedule. -/
theorem stepRunsTheLaunchedCommand : Obligations.StepRunsTheLaunchedCommand :=
  fun _ _ _ _ htodo hb hf hi => step_launches hb hf htodo hi

/-- A `CMD` write that does not wait is the launch alone (R60). -/
theorem cmdWrite_posts {s : State} {w : Word} {i : Instr} (hb : s.busy = false) (hf : s.fault = false)
    (hi : decodeCmd w = .ok i) : cmdWrite false w s = .next (launch i s) := by
  simp [cmdWrite, hb, hf, hi]

/-- A posted `CMD` write of a command's word is the launch alone, the move taken off the schedule (R60). -/
theorem step_posts {s : State} {w : Word} {i : Instr} {rest : List Move} (htodo : s.todo = .post 0x00 w :: rest)
    (hb : s.busy = false) (hf : s.fault = false) (hi : decodeCmd w = .ok i) :
    step s = .next (launch i { s with todo := rest }) :=
  (step_scheduled htodo).trans ((hostWrite_cmd false w (s := { s with todo := rest }) hb).trans
    (cmdWrite_posts (s := { s with todo := rest }) hb hf hi))

/-- The engine's scheduled move runs a command in flight that is no dispatch command (R39). -/
theorem step_engine_exec {s : State} {i : Instr} {rest : List Move} (htodo : s.todo = .engine :: rest)
    (hfly : s.inflight = some i) (hnd : ∀ d, i ≠ dispatchOf d) : step s = exec i { s with todo := rest } :=
  (step_scheduled htodo).trans (engineMove_exec (s := { s with todo := rest }) hfly hnd)

/-- Settles O6: the posted write is the launch; the engine's move then finds the command in flight, and only a dispatch
command goes part by part. -/
theorem postedCommandIsInFlight : Obligations.PostedCommandIsInFlight := by
  refine fun s w i rest htodo hb hf hi => ⟨step_posts htodo hb hf hi, fun henc hdec => ?_⟩
  have hnd : ∀ d, i ≠ dispatchOf d := fun d => by
    cases d with
    | enc => exact henc
    | dec => exact hdec
  exact step_engine_exec (s := launch i { s with todo := .engine :: rest }) rfl rfl hnd

/-! The control commands (R61 to R63). -/

/-- A command with nothing to settle ends in the idle state (R128). -/
theorem ended_toIdle (s : State) : Ended s s.toIdle := rfl

/-- Settles O35: `NOP` is the end of a command alone, which takes back what the launch set on an engine at rest. -/
theorem nopChangesNothing : Obligations.NopChangesNothing := by
  refine ⟨fun s => ⟨_, exec_nop s, ended_toIdle s⟩, fun s hrest => ?_⟩
  have hidle : (launch .nop s).toIdle = s := toIdle_of_atRest hrest
  exact (exec_nop (launch .nop s)).trans (congrArg Host.Outcome.next hidle)

/-- Settles O36: `LOADKEY` writes the key and its flag and ends. -/
theorem loadkeyCopiesTheKey : Obligations.LoadkeyCopiesTheKey :=
  fun s => ⟨_, exec_loadkey s, ended_toIdle _⟩

/-- Settles O37: `CLRF` clears the fault record and ends. -/
theorem clrfClearsTheFault : Obligations.ClrfClearsTheFault :=
  fun s => ⟨_, exec_clrf s, ended_toIdle (clearFault s)⟩

end Sys2Proof.Laws

/-! PROOF. The faults of the cipher commands (R64, R65, R85, R104). -/

namespace Sys2Proof.Laws

open Sys2Proof.Machine

section
variable {i : Instr} {s : State}

/-- Without a key every cipher command faults, before any other check (R64, R104). -/
theorem exec_noKey (hk : s.keyv = false)
    (hi : i ∈ [Instr.encrypt, .decrypt, .encFixed, .decFixed, .encWords, .decWords]) :
    exec i s = .next (raiseFault .noKey s) := by
  simp only [List.mem_cons, List.not_mem_nil, or_false] at hi
  rcases hi with rfl | rfl | rfl | rfl | rfl | rfl <;> refine congrArg Host.Outcome.next ?_
  · exact dispatchCommand_noKey Config.delegate _ _ hk
  · exact dispatchCommand_noKey Config.delegate _ _ hk
  · exact fixedCommand_noKey _ _ hk
  · exact fixedCommand_noKey _ _ hk
  · exact wordsCommand_noKey _ _ hk
  · exact wordsCommand_noKey _ _ hk

variable (hk : s.keyv = true)
include hk

theorem exec_dispatch_range (hr : ¬ InRange s s.count.toNat) (hi : i ∈ [Instr.encrypt, .decrypt]) :
    exec i s = .next (raiseFault .range s) := by
  rcases List.mem_pair.1 hi with rfl | rfl <;>
    exact congrArg Host.Outcome.next (dispatchCommand_range Config.delegate _ _ hk hr)

theorem exec_words_operand (hl : ¬ s.legalN) (hi : i ∈ [Instr.encWords, .decWords]) :
    exec i s = .next (raiseFault .operand s) := by
  rcases List.mem_pair.1 hi with rfl | rfl <;> exact congrArg Host.Outcome.next (wordsCommand_operand _ _ hk hl)

theorem exec_words_range (hl : s.legalN) (hr : ¬ InRange s (4 * s.count.toNat))
    (hi : i ∈ [Instr.encWords, .decWords]) : exec i s = .next (raiseFault .range s) := by
  rcases List.mem_pair.1 hi with rfl | rfl <;> exact congrArg Host.Outcome.next (wordsCommand_range _ _ hk hl hr)

end

/-- Settles O38: each command's checks in their order; a fault that is raised is recorded and changes nothing else. -/
theorem cipherFaultsInOrder : Obligations.CipherFaultsInOrder := by
  refine fun s => ⟨fun hk i hi => ?_, fun hk hr i hi => ?_, fun hk hl i hi => ?_, fun hk h2 h16 hr i hi => ?_⟩
  · exact ⟨_, exec_noKey hk hi, faultRecorded_raiseFault .noKey s⟩
  · exact ⟨_, exec_dispatch_range hk hr hi, faultRecorded_raiseFault .range s⟩
  · exact ⟨_, exec_words_operand hk hl hi, faultRecorded_raiseFault .operand s⟩
  · exact ⟨_, exec_words_range hk ⟨h2, h16⟩ hr hi, faultRecorded_raiseFault .range s⟩

end Sys2Proof.Laws

/-! PROOF. The partition of a dispatch region (R66), where its super-blocks lie (R74), and a region split at a
super-block (R70, R124). -/

namespace Sys2Proof.Laws

open Sys2Proof.Machine

/-! The cases of the partition (R66). -/

/-- With two words or more after the super-blocks the words run takes them all (R66). -/
theorem partition_of_two_le {count : Nat} (h : 2 ≤ (partition count).n) :
    (partition count).nw = (partition count).n ∧ (partition count).tail = (partition count).left % 4 := by
  have hnw : (partition count).nw = count % 64 / 4 := if_pos h
  exact ⟨hnw, by
    calc (partition count).tail = count % 64 - 4 * (partition count).nw := rfl
      _ = count % 64 % 4 := by rw [hnw]; omega⟩

/-- With no or one word after the super-blocks the tail takes every byte that is left (R66). -/
theorem partition_of_le_one {count : Nat} (h : (partition count).n ≤ 1) :
    (partition count).nw = 0 ∧ (partition count).tail = (partition count).left := by
  have hnw : (partition count).nw = 0 := if_neg (Nat.not_lt.2 h)
  exact ⟨hnw, by
    calc (partition count).tail = (partition count).left - 4 * (partition count).nw := rfl
      _ = (partition count).left := by rw [hnw, Nat.mul_zero, Nat.sub_zero]⟩

/-- Settles O45: the parts add up by `partition_spec`; the tail's length goes by the number of words left. -/
theorem partitionCoversTheRegion : Obligations.PartitionCoversTheRegion := by
  intro count
  have hn : (partition count).n = (partition count).left / 4 := rfl
  obtain ⟨hcover, htail, hnw, -⟩ := partition_spec count
  refine ⟨_, rfl, rfl, rfl, rfl, ?_, hcover, htail, hnw, fun h0 => ?_, fun h1 => ?_, fun h2 => ?_⟩
  · rcases Nat.lt_or_ge 1 (partition count).n with h2 | h1
    · exact .inr ⟨(partition_of_two_le h2).1, h2⟩
    · exact .inl ⟨(partition_of_le_one h1).1, h1⟩
  · have hleft := (partition_of_le_one (h0.le.trans (Nat.zero_le 1))).2
    exact ⟨hleft, by omega⟩
  · have hleft := (partition_of_le_one h1.le).2
    exact ⟨hleft, by omega⟩
  · exact (partition_of_two_le h2).2

/-! Where the super-blocks lie (R74). -/

/-- Settles O48: the super-blocks before the `i`-th moved `OFF` by `64 * i`, and the `i`-th lies in the region, so in
the buffer. -/
theorem guardNeverHoldsUnderDispatch : Obligations.GuardNeverHoldsUnderDispatch := by
  intro s d i hr hi
  have hr' : s.start.toNat + s.count.toNat ≤ s.buflen.toNat := hr
  have hlt := inRange_lt hr
  exact ⟨superPhase_off_toNat (s := dispatchBegin d s) (show s.start.toNat + 64 * i < 2 ^ 32 by omega), by omega⟩

/-! A region split after its first `k` super-blocks (R124). -/

/-- The call for the first `64 * k` bytes of the region of `s`. -/
def headCall (k : Nat) (s : State) : State := { s with count := BitVec.ofNat 32 (64 * k) }

/-- The call for the rest of the region of `s`, from the state `t` that the first call left. -/
def restCall (k : Nat) (s t : State) : State :=
  { t with start := s.start + BitVec.ofNat 32 (64 * k), count := s.count - BitVec.ofNat 32 (64 * k) }

@[simp] theorem headCall_start (k : Nat) (s : State) : (headCall k s).start = s.start := rfl
@[simp] theorem headCall_buflen (k : Nat) (s : State) : (headCall k s).buflen = s.buflen := rfl
@[simp] theorem headCall_buf (k : Nat) (s : State) : (headCall k s).buf = s.buf := rfl
@[simp] theorem restCall_buflen (k : Nat) (s t : State) : (restCall k s t).buflen = t.buflen := rfl
@[simp] theorem restCall_buf (k : Nat) (s t : State) : (restCall k s t).buf = t.buf := rfl

theorem inRegion_eq_false {i : Instr} {s : State} {a : Nat} :
    inRegion i s a = false ↔ a < s.start.toNat ∨ s.start.toNat + footprint i s ≤ a := by
  simp only [inRegion, Bool.and_eq_false_iff, decide_eq_false_iff_not, Nat.not_le, Nat.not_lt]

/-- `k` super-blocks less leave the words run and the tail of the partition (R66). -/
theorem partition_sub {count k : Nat} (h64 : 64 * k ≤ count) :
    (partition (count - 64 * k)).full = (partition count).full - k ∧
      (partition (count - 64 * k)).nw = (partition count).nw ∧
      (partition (count - 64 * k)).tail = (partition count).tail := by
  have hmod : (count - 64 * k) % 64 = count % 64 := Nat.sub_mul_mod h64
  exact ⟨Nat.sub_mul_div count 64 k, by rw [partition_nw, partition_nw, hmod],
    by rw [partition_tail, partition_tail, hmod]⟩

section
variable {k : Nat} {s : State} (h64 : 64 * k ≤ s.count.toNat)
include h64

theorem headCall_count : (headCall k s).count.toNat = 64 * k := by
  have := s.count.isLt
  simp only [headCall, BitVec.toNat_ofNat]
  omega

theorem headCall_inRange (hr : InRange s s.count.toNat) : InRange (headCall k s) (headCall k s).count.toNat := by
  rw [InRange] at hr
  rw [InRange, headCall_count h64, headCall_start, headCall_buflen]
  omega

/-- What no other agent wrote in the whole region, none wrote in its head (R120). -/
theorem headCall_owned {i : Instr} (hi : i = .encrypt ∨ i = .decrypt) (hk : s.keyv = true)
    (hr : InRange s s.count.toNat) (ho : Owned i s) : Owned i (headCall k s) := by
  intro a ha
  have hout := inRegion_eq_false.1 (ho a ha)
  rw [footprint_dispatch hk hi hr] at hout
  rw [inRegion_eq_false, footprint_dispatch (s := headCall k s) hk hi (headCall_inRange h64 hr), headCall_count h64,
    headCall_start]
  omega

theorem restCall_count (t : State) : (restCall k s t).count.toNat = s.count.toNat - 64 * k := by
  have := s.count.isLt
  simp only [restCall, BitVec.toNat_sub, BitVec.toNat_ofNat]
  omega

theorem restCall_start (t : State) (hr : s.start.toNat + s.count.toNat < 2 ^ 32) :
    (restCall k s t).start.toNat = s.start.toNat + 64 * k := by
  simp only [restCall, BitVec.toNat_add, BitVec.toNat_ofNat]
  omega

theorem restCall_inRange {t : State} (hr : InRange s s.count.toNat) (ht : t.buflen = s.buflen) :
    InRange (restCall k s t) (restCall k s t).count.toNat := by
  have hstart := restCall_start h64 t (inRange_lt hr)
  rw [InRange] at hr
  rw [InRange, hstart, restCall_count h64, restCall_buflen, ht]
  omega

/-- The head of a region is super-blocks only (R66). -/
theorem DispatchedBy.head_super {D : Config.Delegate} {d : Dir} {t : State} (head : DispatchedBy D d (headCall k s) t)
    {i : Nat} (hi : i < k) : Mixed d .sixteen (s.start.toNat + 64 * i) s t := by
  have hfull : (partition (headCall k s).count.toNat).full = k := by
    rw [headCall_count h64]
    exact Nat.mul_div_cancel_left k (by omega)
  exact mixed_congr (head.super i (hfull.symm ▸ hi)) rfl (fun _ _ => rfl) fun _ _ => rfl

/-- The head and the rest of a region, dispatched in turn, are the region's dispatch: the parts of the head and of the
rest are the region's parts, and neither call writes the other's (R66, R70). -/
theorem DispatchedBy.of_split {D : Config.Delegate} {d : Dir} {t u : State} (hkey : t.key = s.key)
    (hr : s.start.toNat + s.count.toNat < 2 ^ 32) (head : DispatchedBy D d (headCall k s) t)
    (rest : DispatchedBy D d (restCall k s t) u) : DispatchedBy D d s u := by
  have h16 : MCount.sixteen.val = 16 := rfl
  have hfull : (partition s.count.toNat).full = s.count.toNat / 64 := rfl
  obtain ⟨hfull', hnw, htail⟩ := partition_sub h64
  have hbase : s.start.toNat + 64 * k + 64 * ((partition s.count.toNat).full - k) =
      s.start.toNat + 64 * (partition s.count.toNat).full := by omega
  have outside := head.outside
  obtain ⟨super', words', tail', outside'⟩ := rest
  simp only [KeepsOutside, headCall_count h64, headCall_start, headCall_buf] at outside
  simp only [KeepsOutside, restCall_start h64 t hr, restCall_count h64, restCall_buf, hfull', hnw, htail, hbase]
    at super' words' tail' outside'
  have old : ∀ {a n : Nat}, s.start.toNat + 64 * k ≤ a → SameBytes a n (restCall k s t).buf s.buf :=
    fun ha r _ => (outside _ (.inr (by omega))).symm
  refine ⟨fun i hi => ?_, fun m hm => ?_, ?_, fun c hc => ?_⟩
  · by_cases hik : i < k
    · exact mixed_congr (head.head_super h64 hik) rfl (fun _ _ => rfl) fun r _ => outside' _ (.inl (by omega))
    · have hmixed := super' (i - k) (by omega)
      have hoff : s.start.toNat + 64 * k + 64 * (i - k) = s.start.toNat + 64 * i := by omega
      rw [hoff] at hmixed
      exact mixed_congr hmixed hkey.symm (old (by omega)) fun _ _ => rfl
  · exact mixed_congr (words' m hm) hkey.symm (old (by omega)) fun _ _ => rfl
  · exact tail'.congr hkey.symm (old (by omega)) fun _ _ => rfl
  · rw [outside' c (by omega), outside c (by omega)]

end

/-- Two dispatches of the same region from one state end with the same buffer contents (R8, R38). -/
theorem DispatchedBy.unique {D : Config.Delegate} {d : Dir} {s t u : State} (h : DispatchedBy D d s t)
    (h' : DispatchedBy D d s u) (a : Nat) : readByte u.buf a = readByte t.buf a := by
  by_cases hin : s.start.toNat ≤ a ∧ a < s.start.toNat + s.count.toNat
  · exact sameBytes_iff.1 (h.sameBytes h' ⟨rfl, rfl, rfl⟩ fun _ _ => rfl) a hin.1 hin.2
  · rw [h'.outside a (by omega), h.outside a (by omega)]

/-- A dispatch command on the head of a region and then on the rest leaves what the command on the whole leaves. -/
theorem dispatchCommand_splits (D : Config.Delegate) {i : Instr} (d : Dir) {s : State} {k : Nat}
    (hi : i = .encrypt ∨ i = .decrypt) (hk : KeyLoaded s) (hr : InRange s s.count.toNat)
    (hwf : Memory.wf s.buf = true) (h64 : 64 * k ≤ s.count.toNat) (ho : Owned i s) (a : Nat) :
    readByte (dispatchCommand D i d (restCall k s (dispatchCommand D i d (headCall k s)))).buf a =
      readByte (dispatchCommand D i d s).buf a := by
  have hk₁ : KeyLoaded (headCall k s) := hk
  have hr₁ := headCall_inRange h64 hr
  have head := dispatchedBy_dispatchCommand D d hk₁ hr₁ (headCall_owned h64 hi hk hr ho) hwf
  have hwf₁ := wf_dispatchCommand D i d hk₁ hr₁ hwf
  obtain ⟨⟨-, -, hkey⟩, hkeyv, -, htouched⟩ := dispatchCommand_keeps_call D i d hk₁ hr₁
  obtain ⟨-, -, -, -, -, hbuflen, -⟩ := dispatchCommand_keepsRegisters D i d hk₁ hr₁
  generalize dispatchCommand D i d (headCall k s) = t at *
  have rest := dispatchedBy_dispatchCommand D (i := i) (s := restCall k s t) d hkeyv (restCall_inRange h64 hr hbuflen)
    (owned_of_untouched htouched) hwf₁
  exact (dispatchedBy_dispatchCommand D d hk hr ho hwf).unique (.of_split h64 hkey (inRange_lt hr) head rest) a

/-- Settles O51: the two calls in turn make every part of the whole region from its own old bytes, as the one call
does. -/
theorem regionsSplitAtSuperBlocks : Obligations.RegionsSplitAtSuperBlocks := by
  intro s k hk hr hwf h64 i hi ho
  rcases List.mem_pair.1 hi with rfl | rfl
  · exact ⟨_, _, _, rfl, rfl, rfl, dispatchCommand_splits Config.delegate .enc (.inl rfl) hk hr hwf h64 ho⟩
  · exact ⟨_, _, _, rfl, rfl, rfl, dispatchCommand_splits Config.delegate .dec (.inr rfl) hk hr hwf h64 ho⟩

end Sys2Proof.Laws

/-! PROOF. The round function word by word (R75 to R81, R91, R93): `MX` and the key selection on unsigned numbers, the
schedule of `SUM`, what a round makes of each word, and encryption undoing decryption. -/

namespace Sys2Proof.Laws

open Sys2Proof.Machine

/-! The primitives (R75, R76). -/

/-- Settles O28: a left shift and a sum of words are the shift and the sum of the numbers, reduced modulo `2^32`. -/
theorem mxIsTheMixingFunction : Obligations.MxIsTheMixingFunction := by
  intro y z sum k
  simp only [mx, BitVec.toNat_xor, BitVec.toNat_add, BitVec.toNat_ushiftRight, BitVec.toNat_shiftLeft,
    Nat.shiftRight_eq_div_pow, Nat.shiftLeft_eq, Nat.reducePow]

theorem keyIndex_toNat (p : BitVec 4) (e : BitVec 2) : (keyIndex p e).toNat = p.toNat % 4 ^^^ e.toNat := by
  simp [keyIndex]

theorem getElem?_keyIndex (key : Key) (p : BitVec 4) (e : BitVec 2) :
    key[p.toNat % 4 ^^^ e.toNat]? = some (keySel key p e) := by
  rw [← keyIndex_toNat]
  exact Vector.getElem?_eq_getElem (keyIndex p e).isLt

theorem rotation_toNat (sum : Word) : (rotation sum).toNat = sum.toNat / 4 % 4 := by
  simp [Machine.rotation, Nat.shiftRight_eq_div_pow]

/-- Settles O29: the index has two bits. -/
theorem keySelectionIsTheRotation : Obligations.KeySelectionIsTheRotation :=
  fun key p e sum => ⟨keyIndex_toNat p e ▸ (keyIndex p e).isLt, getElem?_keyIndex key p e, rotation_toNat sum⟩

/-- Settles O58: the load and the store go word by word, and the words do not overlap. -/
theorem loadAndStoreMoveTheWords : Obligations.LoadAndStoreMoveTheWords :=
  fun buf off w m hwf => ⟨fun _ hj => word_loadV buf off w m.le_16 hj,
    fun j hj => readWord_storeV hwf off w m.val j hj, fun c hc => readByte_storeV_outside buf off w m.val c hc⟩

/-! The schedule of `SUM` and `RND` (R91, R93). -/

section
variable (key : Key) (m : MCount) (w : Work)

theorem encRound_rnd : (encRound key m w).rnd = w.rnd + 1 := by simp [encRound]

theorem encRound_e : (encRound key m w).e = rotation (w.sum + Config.delta) := by simp [encRound]

theorem decRound_rnd : (decRound key m w).rnd = w.rnd + 1 := by simp [decRound]

theorem encRounds_rnd (r : Nat) : (encRounds key m w r).rnd = w.rnd + BitVec.ofNat 6 r := by
  induction r with
  | zero => simp [encRounds]
  | succ r ih =>
    rw [encRounds, encRound_rnd, ih, BitVec.ofNat_add]
    exact BitVec.add_assoc _ _ _

/-- `E` is taken from the `SUM` its round advanced to (R80). -/
theorem encRounds_succ_e (r : Nat) : (encRounds key m w (r + 1)).e = rotation (encRounds key m w (r + 1)).sum := by
  rw [encRounds, encRound_e, encRound_sum]

/-- `r` rounds of decryption, without the loop's test. -/
def decRounds (r : Nat) : Work := (decRound key m)^[r] w

theorem decRounds_succ (r : Nat) : decRounds key m w (r + 1) = decRound key m (decRounds key m w r) :=
  Function.iterate_succ_apply' _ _ _

theorem decRounds_rnd (r : Nat) : (decRounds key m w r).rnd = w.rnd + BitVec.ofNat 6 r := by
  induction r with
  | zero => simp [decRounds]
  | succ r ih =>
    rw [decRounds_succ, decRound_rnd, ih, BitVec.ofNat_add]
    exact BitVec.add_assoc _ _ _

theorem decLoop_succ (fuel : Nat) :
    decLoop key m (fuel + 1) w =
      if (decRound key m w).sum = 0 then decRound key m w else decLoop key m fuel (decRound key m w) := rfl

end

/-- A counter of rounds does not wrap: there are at most 32 (R77). -/
theorem toNat_ofNat_round {m : MCount} {r : Nat} (hr : r ≤ roundCount m) : (BitVec.ofNat 6 r).toNat = r := by
  have := roundCount_le m
  rw [BitVec.toNat_ofNat, Nat.mod_eq_of_lt (by omega)]

/-- Settles O30: each round advances `SUM` by `DELTA` and takes `E` from it. -/
theorem encryptionSumSchedule : Obligations.EncryptionSumSchedule := by
  intro key m w r hsum hrnd hr
  have hs (r : Nat) : (encRounds key m w r).sum = BitVec.ofNat 32 r * Config.delta := by
    rw [encRounds_sum, hsum, zero_add]
  refine ⟨hs r, by rw [encRounds_rnd, hrnd, zero_add, toNat_ofNat_round hr], fun h1 => ?_⟩
  obtain ⟨r, rfl⟩ := Nat.exists_eq_add_of_le' h1
  rw [encRounds_succ_e, hs]

section
variable {key : Key} {m : MCount} {n : Nat} {w : Work}

/-- A round of decryption takes one multiple of `DELTA` off `SUM` (R91). -/
theorem decRound_sum_of_multiple (h : w.sum = BitVec.ofNat 32 (n + 1) * Config.delta) :
    (decRound key m w).sum = BitVec.ofNat 32 n * Config.delta := by
  rw [decRound_sum, h, BitVec.ofNat_add, BitVec.add_mul, show BitVec.ofNat 32 1 * Config.delta = Config.delta from rfl,
    BitVec.add_sub_cancel]

theorem decRounds_sum (h : w.sum = BitVec.ofNat 32 n * Config.delta) {j : Nat} (hj : j ≤ n) :
    (decRounds key m w j).sum = BitVec.ofNat 32 (n - j) * Config.delta := by
  induction j with
  | zero => exact h
  | succ j ih =>
    rw [decRounds_succ, decRound_sum_of_multiple (n := n - (j + 1))]
    rw [ih (by omega), show n - j = n - (j + 1) + 1 by omega]

/-- Below `2^32` only the multiple `0 *32 DELTA` is 0 (R91). -/
theorem ofNat_mul_delta_eq_zero_of_lt (hn : n < 2 ^ 32) : BitVec.ofNat 32 n * Config.delta = 0 ↔ n = 0 := by
  rw [ofNat_mul_delta_eq_zero]
  exact ⟨fun h => Nat.eq_zero_of_dvd_of_lt h hn, fun h => h ▸ Nat.dvd_zero _⟩

/-- Begun `n` multiples of `DELTA` above 0, the loop does not end before `n` rounds (R91). -/
theorem decLoop_eq_decRounds (hn : n < 2 ^ 32) (h : w.sum = BitVec.ofNat 32 n * Config.delta) {j : Nat} (hj : j ≤ n) :
    decLoop key m j w = decRounds key m w j := by
  induction j generalizing n w with
  | zero => rfl
  | succ j ih =>
    obtain ⟨n, rfl⟩ := Nat.exists_eq_add_of_le' (Nat.le_of_add_left_le hj : 1 ≤ n)
    have hs := decRound_sum_of_multiple (key := key) (m := m) h
    rw [decLoop_succ]
    split
    · next h0 =>
      rw [hs, ofNat_mul_delta_eq_zero_of_lt (by omega)] at h0
      obtain rfl : j = 0 := by omega
      rfl
    · exact ih (by omega) hs (by omega)

/-- Begun `n + 1` multiples of `DELTA` above 0, the loop ends after `n + 1` rounds, however many it is allowed (R91). -/
theorem decLoop_ends (h : w.sum = BitVec.ofNat 32 (n + 1) * Config.delta) {fuel : Nat} (hfuel : n + 1 ≤ fuel) :
    decLoop key m fuel w = decLoop key m (n + 1) w := by
  induction n generalizing w fuel with
  | zero =>
    obtain ⟨fuel, rfl⟩ := Nat.exists_eq_add_of_le' hfuel
    have h0 : (decRound key m w).sum = 0 := by rw [decRound_sum_of_multiple h]; rfl
    rw [decLoop_succ, decLoop_succ, if_pos h0, if_pos h0]
  | succ n ih =>
    obtain ⟨fuel, rfl⟩ := Nat.exists_eq_add_of_le' (Nat.le_of_add_left_le hfuel : 1 ≤ fuel)
    rw [decLoop_succ, decLoop_succ, ih (decRound_sum_of_multiple h) (by omega)]

end

theorem one_le_roundCount (m : MCount) : 1 ≤ roundCount m :=
  Nat.le_add_right_of_le (by decide)

/-- The decryption loop is its rounds in turn (R81, R91). -/
theorem roundDec_eq_decRounds (key : Key) (m : MCount) (w : Work) :
    roundDec key m w = decRounds key m (decInit m w) (roundCount m) := by
  have := roundCount_le m
  exact decLoop_eq_decRounds (by omega) (decInit_sum m w) le_rfl

/-- Settles O31: `SUM` goes down the multiples of `DELTA`, of which only the last is 0. -/
theorem decryptionRunsExactlyItsRounds : Obligations.DecryptionRunsExactlyItsRounds := by
  intro key m w hsum hrnd
  have hR := roundCount_le m
  refine ⟨ofNat_mul_delta_eq_zero, fun j hj => ?_, fun fuel hfuel => ?_⟩
  · have hs := decRounds_sum (key := key) (m := m) hsum hj
    rw [decLoop_eq_decRounds (by omega) hsum hj, hs, ofNat_mul_delta_eq_zero_of_lt (by omega), decRounds_rnd, hrnd,
      zero_add]
    exact ⟨rfl, toNat_ofNat_round hj, by omega⟩
  · obtain ⟨n, hn⟩ := Nat.exists_eq_add_of_le' (one_le_roundCount m)
    rw [hn] at hsum hfuel ⊢
    exact decLoop_ends hsum hfuel

/-! What a round makes of each word (R80, R81). -/

section
variable {key : Key} {w : Work} {n p : Nat}

/-- `Z` is the word before the one to be updated, at first the carried one (R80 (b), (c)). -/
theorem encWordsUpTo_z : (encWordsUpTo key w n).z =
    if n = 0 then w.z else (encWordsUpTo key w n).word (BitVec.ofNat 4 (n - 1)) := by
  cases n with
  | zero => rfl
  | succ n => exact z_encWord ..

/-- The words of an encryption round in progress: each gains `MX` of its old right-hand neighbour and its new left-hand
one (R80 (b)). -/
theorem encWordsUpTo_word (hn : n < 16) (hp : p < n) :
    (encWordsUpTo key w n).word (BitVec.ofNat 4 p) = w.word (BitVec.ofNat 4 p) +
      mx (w.word (BitVec.ofNat 4 (p + 1)))
        (if p = 0 then w.z else (encWordsUpTo key w n).word (BitVec.ofNat 4 (p - 1))) w.sum
        (keySel key (BitVec.ofNat 4 p) w.e) := by
  induction n with
  | zero => omega
  | succ n ih =>
    have hkeep {q : Nat} (hq : q < n) :
        (encWordsUpTo key w (n + 1)).word (BitVec.ofNat 4 q) = (encWordsUpTo key w n).word (BitVec.ofNat 4 q) := by
      rw [encWordsUpTo, word_encWord, if_neg (ofNat4_ne_of_lt hq le_rfl (by omega)).symm]
    have hprev : (if p = 0 then w.z else (encWordsUpTo key w (n + 1)).word (BitVec.ofNat 4 (p - 1))) =
        if p = 0 then w.z else (encWordsUpTo key w n).word (BitVec.ofNat 4 (p - 1)) :=
      ite_congr rfl (fun _ => rfl) fun _ => hkeep (by omega)
    rw [hprev]
    rcases Nat.lt_succ_iff_lt_or_eq.1 hp with hp | rfl
    · rw [hkeep hp, ih (by omega) hp]
    · have hold := encWordsUpTo_beyond (key := key) (le_refl p) w
      rw [encWordsUpTo, word_encWord, if_pos rfl, hold p le_rfl (by omega), hold (p + 1) (by omega) hn,
        encWordsUpTo_sum, encWordsUpTo_e, encWordsUpTo_z]

/-- The words of a decryption round in progress: each loses `MX` of its new right-hand neighbour and its old left-hand
one (R81). -/
theorem decWordsFrom_word (hn : n < 16) (h1 : 1 ≤ p) (hp : p ≤ n) :
    (decWordsFrom key w n).word (BitVec.ofNat 4 p) = w.word (BitVec.ofNat 4 p) -
      mx (if p = n then w.y else (decWordsFrom key w n).word (BitVec.ofNat 4 (p + 1)))
        (w.word (BitVec.ofNat 4 (p - 1))) w.sum (keySel key (BitVec.ofNat 4 p) w.e) := by
  induction n generalizing w with
  | zero => omega
  | succ n ih =>
    have hdone : (decWordsFrom key w (n + 1)).word (BitVec.ofNat 4 (n + 1)) =
        (decWord key (BitVec.ofNat 4 (n + 1)) (BitVec.ofNat 4 n) w).word (BitVec.ofNat 4 (n + 1)) :=
      decWordsFrom_beyond (Nat.lt_succ_self n) _ (n + 1) le_rfl hn
    rcases Nat.le_succ_iff.1 hp with hp | rfl
    · have hold {q : Nat} (hq : q ≤ n) :
          (decWord key (BitVec.ofNat 4 (n + 1)) (BitVec.ofNat 4 n) w).word (BitVec.ofNat 4 q) =
            w.word (BitVec.ofNat 4 q) := by
        rw [word_decWord, if_neg (ofNat4_ne_of_lt (Nat.lt_succ_of_le hq) le_rfl hn).symm]
      have hnext : (if p = n then (decWord key (BitVec.ofNat 4 (n + 1)) (BitVec.ofNat 4 n) w).y
            else (decWordsFrom key w (n + 1)).word (BitVec.ofNat 4 (p + 1))) =
          (decWordsFrom key w (n + 1)).word (BitVec.ofNat 4 (p + 1)) := by
        split
        · next h => rw [h, hdone, y_decWord]
        · rfl
      rw [if_neg (by omega), ← hnext, decWordsFrom, ih (by omega) hp, hold hp, hold (by omega),
        decWord_sum, decWord_e]
    · rw [if_pos rfl, hdone, word_decWord, if_pos rfl]
      rfl

theorem decWordsFrom_word_zero (hn : n < 16) : (decWordsFrom key w n).word 0 = w.word 0 := by
  induction n generalizing w with
  | zero => rfl
  | succ n ih =>
    have hne : (0 : BitVec 4) ≠ BitVec.ofNat 4 (n + 1) := (ofNat4_ne_of_lt (Nat.succ_pos n) le_rfl hn).symm
    rw [decWordsFrom, ih (by omega), word_decWord, if_neg hne]

/-- After the words down to `P = 1` of a decryption round `Y` is the last one restored (R81). -/
theorem decWordsFrom_y (h1 : 1 ≤ n) : (decWordsFrom key w n).y = (decWordsFrom key w n).word 1 := by
  induction n, h1 using Nat.le_induction generalizing w with
  | base => exact y_decWord ..
  | succ n h1 ih => exact ih

end

section
variable (key : Key) (m : MCount) (w : Work)

theorem lastIndex_ne {p : Nat} (hp : p < m.val - 1) : BitVec.ofNat 4 p ≠ lastIndex m :=
  (ofNat4_ne_of_lt hp le_rfl (by have := m.le_16; omega)).symm

/-- The key word of the index `p` and the rotation of `sum`, as R76 names it. -/
theorem getElem?_keySel {p : Nat} (hp : p < 16) (sum : Word) :
    key[p % 4 ^^^ sum.toNat / 4 % 4]? = some (keySel key (BitVec.ofNat 4 p) (rotation sum)) := by
  have h := getElem?_keyIndex key (BitVec.ofNat 4 p) (rotation sum)
  rwa [rotation_toNat, BitVec.toNat_ofNat, Nat.mod_eq_of_lt hp] at h

/-- A round of encryption is as R80 tells it. -/
theorem encRoundStep_encRound : EncRoundStep key m w (encRound key m w) := by
  have h2 := m.two_le
  have h16 := m.le_16
  have hsum := encRound_sum key m w
  have hinner {p : Nat} (hp : p < m.val - 1) : (encRound key m w).word (BitVec.ofNat 4 p) =
      (encWordsUpTo key (encHead w) (m.val - 1)).word (BitVec.ofNat 4 p) := by
    rw [encRound, word_encWord, if_neg (lastIndex_ne m hp)]
  refine ⟨hsum, encRound_z key m w, fun p hp => ⟨_, getElem?_keySel key (by omega) _, ?_⟩,
    ⟨_, getElem?_keySel key (by omega) _, ?_⟩⟩
  · have hprev : (if p = 0 then w.z else (encRound key m w).word (BitVec.ofNat 4 (p - 1))) =
        if p = 0 then w.z else (encWordsUpTo key (encHead w) (m.val - 1)).word (BitVec.ofNat 4 (p - 1)) :=
      ite_congr rfl (fun _ => rfl) fun _ => hinner (by omega)
    rw [hprev, hinner (by omega), encWordsUpTo_word (by omega) (by omega), hsum]
    simp only [encHead_word, encHead_z, encHead_sum, encHead_e]
  · have hlast : (encWordsUpTo key (encHead w) (m.val - 1)).word (BitVec.ofNat 4 (m.val - 1)) =
        w.word (BitVec.ofNat 4 (m.val - 1)) :=
      (encWordsUpTo_beyond le_rfl _ _ le_rfl (by omega)).trans (encHead_word w _)
    have hfirst : (encRound key m w).word 0 = (encWordsUpTo key (encHead w) (m.val - 1)).word 0 :=
      hinner (p := 0) (by omega)
    have hz : (encWordsUpTo key (encHead w) (m.val - 1)).z = (encRound key m w).word (BitVec.ofNat 4 (m.val - 2)) := by
      rw [encWordsUpTo_z, if_neg (by omega), hinner (by omega)]
      rfl
    rw [hfirst, ← hz, hsum, encRound, lastIndex, word_encWord, if_pos rfl, hlast]
    simp only [encWordsUpTo_sum, encWordsUpTo_e, encHead_sum, encHead_e]

/-- A round of decryption is as R81 tells it. -/
theorem decRoundStep_decRound : DecRoundStep key m w (decRound key m w) := by
  have h2 := m.two_le
  have h16 := m.le_16
  have hinner {p : Nat} (h1 : 1 ≤ p) (hp : p < m.val) : (decRound key m w).word (BitVec.ofNat 4 p) =
      (decWordsFrom key (decHead w) (m.val - 1)).word (BitVec.ofNat 4 p) := by
    exact (decRound_word key m w _).trans (decWord_beyond (p := 0) Nat.zero_lt_one _ _ p h1 (by omega))
  refine ⟨decRound_sum key m w, by rw [decRound_y, y_decWord, decRound_word],
    fun p h1 hp => ⟨_, getElem?_keySel key (by omega) _, ?_⟩, ⟨keySel key 0 (rotation w.sum), ?_, ?_⟩⟩
  · have hnext : (if p + 1 = m.val then w.y else (decRound key m w).word (BitVec.ofNat 4 (p + 1))) =
        if p = m.val - 1 then w.y
        else (decWordsFrom key (decHead w) (m.val - 1)).word (BitVec.ofNat 4 (p + 1)) :=
      ite_congr (by simp; omega) (fun _ => rfl) fun h => hinner (by omega) (by omega)
    rw [hnext, hinner h1 hp, decWordsFrom_word (by omega) h1 (by omega)]
    simp only [decHead_word, decHead_y, decHead_sum, decHead_e]
  · simpa using getElem?_keySel key (p := 0) (by omega) w.sum
  · have hnext : (decRound key m w).word 1 = (decWordsFrom key (decHead w) (m.val - 1)).word 1 :=
      hinner (p := 1) le_rfl (by omega)
    have hlast : (decRound key m w).word (BitVec.ofNat 4 (m.val - 1)) =
        (decWordsFrom key (decHead w) (m.val - 1)).word (lastIndex m) := hinner (by omega) (lastIndex_lt m)
    rw [hnext, hlast, ← decWordsFrom_y (by omega), decRound_word, word_decWord, if_pos rfl,
      decWordsFrom_word_zero (by omega)]
    simp only [decWordsFrom_sum, decWordsFrom_e, decHead_word, decHead_sum, decHead_e]

end

/-- Settles O57: the rounds the model runs, one after another, are the rounds the spec tells. -/
theorem roundsUpdateTheWords : Obligations.RoundsUpdateTheWords := by
  refine fun key m w => ⟨⟨encRounds key m (encInit m w), fun j _ => encInit_word m w _, encInit_sum m w,
      encInit_z m w, fun r _ => encRoundStep_encRound key m _, fun j _ => rfl⟩,
    ⟨decRounds key m (decInit m w), fun j _ => decInit_word m w _, decInit_sum m w, decInit_y m w,
      fun r _ => ?_, fun j _ => ?_⟩⟩
  · rw [decRounds_succ]
    exact decRoundStep_decRound key m _
  · exact congrArg (·.word (BitVec.ofNat 4 j)) (roundDec_eq_decRounds key m w)

/-! Encryption undoes decryption (R84): on the finitely many vectors of `m` words a map with a left inverse has it as
its inverse on both sides. -/

/-- The vector `V[0..m-1]` of the working registers. -/
def vectorOf (m : MCount) (w : Work) : Fin m.val → Word := fun i => w.word (BitVec.ofNat 4 i.val)

/-- Working registers that hold the vector `x`, and zeros elsewhere. -/
def withVector (m : MCount) (x : Fin m.val → Word) : Work :=
  { Work.reset with v := Vector.ofFn fun i => if h : i.val < m.val then x ⟨i.val, h⟩ else 0 }

theorem vectorOf_inj {m : MCount} {w w' : Work} : vectorOf m w = vectorOf m w' ↔ SameWords m.val w w' :=
  ⟨fun h i hi => congrFun h ⟨i, hi⟩, fun h => funext fun i => h i.val i.isLt⟩

theorem vectorOf_withVector (m : MCount) (x : Fin m.val → Word) : vectorOf m (withVector m x) = x := by
  funext i
  have hi : i.val % 16 = i.val := Nat.mod_eq_of_lt (by have := m.le_16; omega)
  simp [vectorOf, withVector, Work.word, hi]

/-- The round function as a map of vectors of `m` words (R12, R17). -/
def mixVector (d : Dir) (key : Key) (m : MCount) (x : Fin m.val → Word) : Fin m.val → Word :=
  vectorOf m (roundFn d key m (withVector m x))

theorem mixVector_vectorOf (d : Dir) (key : Key) (m : MCount) (w : Work) :
    mixVector d key m (vectorOf m w) = vectorOf m (roundFn d key m w) :=
  vectorOf_inj.2 (roundFn_same (vectorOf_inj.1 (vectorOf_withVector m _)))

theorem mixVector_leftInverse (key : Key) (m : MCount) :
    Function.LeftInverse (mixVector .dec key m) (mixVector .enc key m) := fun x => by
  have hdec := mixVector_vectorOf .dec key m (roundFn .enc key m (withVector m x))
  exact hdec.trans ((vectorOf_inj.2 (roundDec_roundEnc key m _)).trans (vectorOf_withVector m x))

theorem mixVector_rightInverse (key : Key) (m : MCount) :
    Function.RightInverse (mixVector .dec key m) (mixVector .enc key m) :=
  have h := mixVector_leftInverse key m
  h.rightInverse_of_surjective (Finite.surjective_of_injective h.injective)

/-- `RoundEnc(m)` after `RoundDec(m)` restores the vector (R84). -/
theorem roundEnc_roundDec (key : Key) (m : MCount) (w : Work) :
    SameWords m.val (roundEnc key m (roundDec key m w)) w := by
  have h := mixVector_rightInverse key m (vectorOf m w)
  rw [mixVector_vectorOf, mixVector_vectorOf] at h
  exact vectorOf_inj.1 h

/-- Settles O32: each direction is the inverse map of the other. -/
theorem roundFunctionRoundTrip : Obligations.RoundFunctionRoundTrip :=
  fun key m w i hi => ⟨roundDec_roundEnc key m w i hi, roundEnc_roundDec key m w i hi⟩

end Sys2Proof.Laws

/-! PROOF. The direct commands (R85 to R90): what their one block leaves, the guard, the fixed path as the words path at
16, and decryption after encryption. -/

namespace Sys2Proof.Laws

open Sys2Proof.Machine

/-! One block at `START` and then the end of the command (R82, R83, R128). -/

/-- A direct command that does its work mixes its words and keeps the rest. -/
theorem finishCipher_block {i : Instr} {s : State} (d : Dir) (m : MCount) (ho : Owned i s)
    (hwf : Memory.wf s.buf = true) :
    Mixed d m s.start.toNat s (finishCipher i (block d s.start.toNat m s)) ∧
      KeepsOutside s (finishCipher i (block d s.start.toNat m s)) (4 * m.val) ∧
      KeepsRegisters s (finishCipher i (block d s.start.toNat m s)) ∧
      (finishCipher i (block d s.start.toNat m s)).port = { s.port with status := .quiet } := by
  have hw := writesParts_block d s.start.toNat m s
  have hbuf := finishCipher_buf_of_owned hw ho
  refine ⟨mixed_congr (mixed_block hwf d s.start.toNat m) rfl (fun _ _ => rfl) fun _ _ => by rw [hbuf],
    fun c hc => by rw [hbuf, readByte_block_outside _ _ _ _ _ hc], keepsRegisters_finishCipher i hw, ?_⟩
  rw [finishCipher_port, block_port]

theorem exec_encFixed (s : State) : exec .encFixed s = .next (fixedCommand .encFixed .enc s) := rfl
theorem exec_decFixed (s : State) : exec .decFixed s = .next (fixedCommand .decFixed .dec s) := rfl
theorem exec_encWords (s : State) : exec .encWords s = .next (wordsCommand .encWords .enc s) := rfl
theorem exec_decWords (s : State) : exec .decWords s = .next (wordsCommand .decWords .dec s) := rfl

/-- Settles O40: each of the two is one block of `N` words at `START`. -/
theorem wordsCommandsMixTheirWords : Obligations.WordsCommandsMixTheirWords := by
  intro s m hk hm hr he hd hwf
  refine ⟨⟨_, exec_encWords s, ?_⟩, ⟨_, exec_decWords s, ?_⟩⟩ <;> rw [wordsCommand_done _ _ hk hm hr]
  · exact finishCipher_block .enc m he hwf
  · exact finishCipher_block .dec m hd hwf

/-- Settles O41: each of the two is one block of 16 words at `START`. -/
theorem fixedCommandsMixTheSuperBlock : Obligations.FixedCommandsMixTheSuperBlock := by
  intro s hk hr he hd hwf
  refine ⟨⟨_, exec_encFixed s, ?_⟩, ⟨_, exec_decFixed s, ?_⟩⟩ <;> rw [fixedCommand_done _ _ hk hr]
  · exact finishCipher_block .enc .sixteen he hwf
  · exact finishCipher_block .dec .sixteen hd hwf

/-! The guard (R89). -/

/-- Under the guard a fixed command has no region. -/
theorem footprint_fixed_guard {i : Instr} {s : State} (hi : i = .encFixed ∨ i = .decFixed) (hg : ¬ InRange s 64) :
    footprint i s = 0 := by
  have hg : s.guard = true := decide_eq_true (Nat.not_le.1 hg)
  rcases hi with rfl | rfl <;> simp [footprint, hg]

theorem fixedCommand_guard_toIdle {i : Instr} {s : State} (d : Dir) (hi : i = .encFixed ∨ i = .decFixed)
    (hk : s.keyv = true) (hg : ¬ InRange s 64) : fixedCommand i d s = s.toIdle := by
  rw [fixedCommand_guard i d hk hg, finish_of_footprint_zero (footprint_fixed_guard hi hg)]

/-- Settles O42: the guard ends the command with nothing to settle. -/
theorem guardDoesNothing : Obligations.GuardDoesNothing := by
  intro s hk hg
  refine ⟨⟨_, exec_encFixed s, ?_⟩, ⟨_, exec_decFixed s, ?_⟩⟩
  · rw [fixedCommand_guard_toIdle .enc (.inl rfl) hk (Nat.not_le.2 hg)]
    exact ended_toIdle s
  · rw [fixedCommand_guard_toIdle .dec (.inr rfl) hk (Nat.not_le.2 hg)]
    exact ended_toIdle s

/-! The fixed path is the words path at 16 (R90). -/

/-- The direct commands have one part, their region (R120). -/
theorem partOf_direct {i : Instr} (hi : i ∈ [Instr.encFixed, .decFixed, .encWords, .decWords]) (s : State) (a : Nat) :
    partOf i s a = (s.start.toNat, footprint i s) := by
  simp only [List.mem_cons, List.not_mem_nil, or_false] at hi
  rcases hi with rfl | rfl | rfl | rfl <;> rfl

/-- What other agents disturbed is settled alike for two direct commands with the same region (R120). -/
theorem settle_direct {i j : Instr} (hi : i ∈ [Instr.encFixed, .decFixed, .encWords, .decWords])
    (hj : j ∈ [Instr.encFixed, .decFixed, .encWords, .decWords]) {s : State} (h : footprint i s = footprint j s)
    (l : List Nat) : settle i l s = settle j l s := by
  induction l generalizing s with
  | nil => rfl
  | cons a rest ih =>
    have hin : inRegion i s a = inRegion j s a := by simp only [inRegion, h]
    simp only [settle, partOf_direct hi, partOf_direct hj, hin, h]
    split
    · exact ih ((footprint_congr rfl rfl rfl rfl).trans (h.trans (footprint_congr rfl rfl rfl rfl).symm))
    · exact ih h

section
variable {i : Instr} {s : State} (hi : i = .encFixed ∨ i = .decFixed) (hk : s.keyv = true) (hc : s.count.toNat = 16)
include hi hk hc

/-- Beyond the range the fixed command does nothing and the words command of 16 words faults. -/
theorem fixedCommand_wordsCommand_differ (j : Instr) (d : Dir) (hr : ¬ InRange s 64) :
    Ended s (fixedCommand i d s) ∧ FaultRecorded 2 s (wordsCommand j d s) := by
  have hl : s.legalN := by rw [State.legalN, hc]; decide
  rw [fixedCommand_guard_toIdle d hi hk hr, wordsCommand_range j d hk hl (by rwa [hc])]
  exact ⟨ended_toIdle s, faultRecorded_raiseFault .range s⟩

/-- In range the fixed command and the words command of 16 words are one block and the same end. -/
theorem fixedCommand_eq_wordsCommand {j : Instr} (hj : j = .encWords ∨ j = .decWords) (d : Dir) (hr : InRange s 64) :
    fixedCommand i d s = wordsCommand j d s := by
  have hl : s.legalN := by rw [State.legalN, hc]; decide
  have hr' : InRange s (4 * s.count.toNat) := by rwa [hc]
  have hw := writesParts_block d s.start.toNat .sixteen s
  obtain ⟨hstart, hcount, -⟩ := hw.call
  have hregion : footprint i (block d s.start.toNat .sixteen s) = footprint j (block d s.start.toNat .sixteen s) := by
    rw [footprint_congr hw.keyv hstart hcount hw.buflen, footprint_congr hw.keyv hstart hcount hw.buflen,
      footprint_fixed hk hi hr, footprint_words hk hj hl hr', hc]
  have hi : i ∈ [Instr.encFixed, .decFixed, .encWords, .decWords] := by rcases hi with rfl | rfl <;> simp
  have hj : j ∈ [Instr.encFixed, .decFixed, .encWords, .decWords] := by rcases hj with rfl | rfl <;> simp
  rw [fixedCommand_done i d hk hr, wordsCommand_done j d hk (m := .sixteen) hc.symm hr]
  simp only [finishCipher, finish, settle_direct hi hj hregion]

end

/-- Settles O43: the two paths have the same checks but for the range, the same block and the same region. -/
theorem fixedPathIsTheWordsPathAtSixteen : Obligations.FixedPathIsTheWordsPathAtSixteen := by
  refine ⟨rfl, fun s hk hcount p hp => ?_⟩
  have hc : s.count.toNat = 16 := by rw [hcount]; rfl
  rcases List.mem_pair.1 hp with rfl | rfl
  · exact ⟨_, _, exec_encFixed s, exec_encWords s, fixedCommand_eq_wordsCommand (.inl rfl) hk hc (.inl rfl) .enc,
      fun hr => fixedCommand_wordsCommand_differ (.inl rfl) hk hc _ .enc (Nat.not_le.2 hr)⟩
  · exact ⟨_, _, exec_decFixed s, exec_decWords s, fixedCommand_eq_wordsCommand (.inr rfl) hk hc (.inr rfl) .dec,
      fun hr => fixedCommand_wordsCommand_differ (.inr rfl) hk hc _ .dec (Nat.not_le.2 hr)⟩

/-! Decryption after encryption (R84, R86, R88). -/

/-- The same block mixed for encryption and then for decryption, each to the end of its command, restores every byte. -/
theorem decBlock_restores {i j : Instr} {s t : State} {m : MCount} (ho : Owned i s) (hwf : Memory.wf s.buf = true)
    (ht : t = finishCipher i (block .enc s.start.toNat m s)) (a : Nat) :
    readByte (finishCipher j (block .dec t.start.toNat m t)).buf a = readByte s.buf a := by
  obtain ⟨hmix, hout, -⟩ := finishCipher_block .enc m ho hwf
  rw [← ht] at hmix hout
  have hstart : t.start = s.start := by rw [ht, finishCipher_start, block_start]
  have hkey : t.key = s.key := by rw [ht, finishCipher_key, block_key]
  have hot : Owned j t := owned_of_untouched (by rw [ht, finishCipher_touched])
  have hwft : Memory.wf t.buf = true := ht ▸ wf_finishCipher i (wf_block hwf _ _ _)
  obtain ⟨hmix', hout', -⟩ := finishCipher_block .dec m hot hwft
  rw [hstart] at hmix'
  by_cases hin : s.start.toNat ≤ a ∧ a < s.start.toNat + 4 * m.val
  · rw [hstart]
    exact sameBytes_iff.1 (mixed_restores hmix hmix' hkey) a hin.1 hin.2
  · rw [hout' a (by rw [hstart]; omega), hout a (by omega)]

theorem decWords_restores {s : State} (hk : s.keyv = true) (ho : Owned .encWords s) (hwf : Memory.wf s.buf = true)
    {m : MCount} (hm : m.val = s.count.toNat) (hr : InRange s (4 * m.val)) (a : Nat) :
    readByte (wordsCommand .decWords .dec (wordsCommand .encWords .enc s)).buf a = readByte s.buf a := by
  have ht := wordsCommand_done .encWords .enc hk hm hr
  rw [wordsCommand_done .decWords .dec (m := m) (by rw [ht]; simpa using hk) (by rw [ht]; simpa using hm)
    (by rw [ht]; simpa [InRange] using hr)]
  exact decBlock_restores ho hwf ht a

theorem decFixed_restores {s : State} (hk : s.keyv = true) (ho : Owned .encFixed s) (hwf : Memory.wf s.buf = true)
    (a : Nat) :
    readByte (fixedCommand .decFixed .dec (fixedCommand .encFixed .enc s)).buf a = readByte s.buf a := by
  by_cases hr : InRange s 64
  · have ht := fixedCommand_done .encFixed .enc hk hr
    rw [fixedCommand_done .decFixed .dec (by rw [ht]; simpa using hk) (by rw [ht]; simpa [InRange] using hr)]
    exact decBlock_restores ho hwf ht a
  · rw [fixedCommand_guard_toIdle .enc (.inl rfl) hk hr,
      fixedCommand_guard_toIdle (s := s.toIdle) .dec (.inr rfl) hk hr]
    rfl

/-- Settles O44: the words of the region are mixed and mixed back; under the guard neither command does anything. -/
theorem directCommandsRoundTrip : Obligations.DirectCommandsRoundTrip := by
  intro s hk how hof hwf
  exact ⟨fun h2 h16 hr => ⟨_, _, exec_encWords _, exec_decWords _,
      decWords_restores hk how hwf (m := ⟨s.count.toNat, h2, h16⟩) rfl hr⟩,
    ⟨_, _, exec_encFixed _, exec_decFixed _, decFixed_restores hk hof hwf⟩⟩

end Sys2Proof.Laws

/-! PROOF. The tail's two directions undo each other (R97 (d)): the contract gives one order; on the finitely many spans of
a length it gives the other, as for the round function. An answer on the port then goes back as the next request. -/

namespace Sys2Proof.Laws

open Sys2Proof.Machine

theorem finite_span (n : Nat) : Finite (Vector Byte n) :=
  Finite.of_injective (fun (x : Vector Byte n) (i : Fin n) => x[i]) fun _ _ h =>
    Vector.ext fun i hi => congrFun h ⟨i, hi⟩

theorem dec_leftInverse_enc {D : Config.Delegate} (hD : TailContract D) (key : Key) {n : Nat} (h1 : 1 ≤ n)
    (h7 : n ≤ 7) : Function.LeftInverse (D.dec key n) (D.enc key n) :=
  fun x => hD key n x h1 h7

theorem dec_rightInverse_enc {D : Config.Delegate} (hD : TailContract D) (key : Key) {n : Nat} (h1 : 1 ≤ n)
    (h7 : n ≤ 7) : Function.RightInverse (D.dec key n) (D.enc key n) :=
  have := finite_span n
  have h := dec_leftInverse_enc hD key h1 h7
  h.rightInverse_of_surjective (Finite.surjective_of_injective h.injective)

/-- The delegate's function of either direction is undone by that of the other (R97 (d)). -/
theorem tailFn_tailFn {D : Config.Delegate} (hD : TailContract D) {p : Dir × Dir}
    (hp : p ∈ [(Dir.enc, Dir.dec), (.dec, .enc)]) (key : Key) {n : Nat} (h1 : 1 ≤ n) (h7 : n ≤ 7)
    (x : Vector Byte n) : tailFn D p.2 key (tailFn D p.1 key x) = x := by
  rcases List.mem_pair.1 hp with rfl | rfl
  · exact dec_leftInverse_enc hD key h1 h7 x
  · exact dec_rightInverse_enc hD key h1 h7 x

/-- An answer put back as request data has the delegate's answer as its span (R53, R54). -/
theorem respond_span (D : Config.Delegate) (d : Dir) (len : BitVec 3) (s : State) :
    TailPort.span { (respond D d len s).port with tdata := (respond D d len s).port.rdata } len =
      tailFn D d s.port.tkey (s.port.span len) :=
  Vector.ext fun k hk => by
    obtain ⟨_, hbyte⟩ := Vector.getElem?_eq_some_iff.1 (respond_rdata D d len s hk)
    simpa [TailPort.span] using hbyte

theorem span_getElem (p : TailPort) {len : BitVec 3} {k : Nat} (hk : k < len.toNat) :
    some (p.span len)[k] = p.tdata[k]? := by
  have h7 : k < 7 := by have := len.isLt; omega
  simp [TailPort.span, h7]

/-- Settles O54: the second request's span is the first answer, which the other direction's function turns back. -/
theorem tailDecUndoesTailEnc : Obligations.TailDecUndoesTailEnc := by
  refine ⟨fun s len => ⟨rfl, rfl⟩, ?_⟩
  rintro D s len hD - p hp _ rfl k hk
  have h1 : 1 ≤ len.toNat := by omega
  have h7 : len.toNat ≤ 7 := by have := len.isLt; omega
  have hback : tailFn D p.2 s.port.tkey
      (TailPort.span { (respond D p.1 len s).port with tdata := (respond D p.1 len s).port.rdata } len) =
      s.port.span len := by
    rw [respond_span, tailFn_tailFn hD hp _ h1 h7]
  rw [respond_rdata _ _ _ _ hk, ← span_getElem s.port hk, ← hback]
  rfl

end Sys2Proof.Laws

/-! PROOF. The fault record (R105 to R109): a faulted engine takes no command but `CLRF`; what a step can do with the
record; the cipher commands that leave it alone (R102). -/

namespace Sys2Proof.Laws

open Sys2Proof.Machine

/-! Register writes to a faulted engine (R106). -/

section
variable {s : State} (hrest : AtRest s) (hf : s.fault = true)
include hrest hf

/-- While a fault is recorded `CLRF` clears it and any other value written to `CMD` is ignored, whether or not the write
waits (R106). -/
theorem cmdWrite_faulted (wait : Bool) (v : Word) :
    cmdWrite wait v s = .next (if v = clrfWord then clearFault s else s) := by
  have ⟨hb, _⟩ := hrest
  have hidle : (clearFault s).toIdle = clearFault s := toIdle_of_atRest hrest
  by_cases hv : v = clrfWord
  · simp [cmdWrite, hb, hf, hv, exec_clrf, hidle]
  · simp [cmdWrite, hb, hf, hv]

/-- What a host write, waiting or not, makes of a faulted engine: nothing of a command but `CLRF`'s (R106). -/
theorem hostWrite_faulted {wait : Bool} {off : BitVec 6} {v : Word} {t : State}
    (h : hostWrite wait off v s = .next t) : t = s ∨ t = clearFault s ∨ t = writeReg (regAt off) v s := by
  have ⟨hb, _⟩ := hrest
  by_cases ha : off.toNat % 4 = 0
  · by_cases h0 : off = 0x00
    · rw [h0, hostWrite_cmd wait v hb, cmdWrite_faulted hrest hf] at h
      split_ifs at h <;> cases h
      · exact .inr (.inl rfl)
      · exact .inl rfl
    · rw [hostWrite_idle wait v hb ha h0] at h
      cases h
      exact .inr (.inr rfl)
  · rw [hostWrite_unaligned wait v ha] at h
    cases h

end

/-- Settles O7: a `CMD` write clears or is ignored; the other registers are written as on any idle engine. -/
theorem faultedEngineTakesOnlyClrf : Obligations.FaultedEngineTakesOnlyClrf := by
  refine fun s v rest hrest hf => ⟨fun mv hmv htodo => ?_, fun off htodo => ?_⟩
  · obtain ⟨wait, hstep⟩ := step_hostWrite (hmv.imp (· ▸ htodo) (· ▸ htodo))
    have ⟨hb, _⟩ := hrest
    rw [hstep, hostWrite_cmd wait v (s := { s with todo := rest }) hb,
      cmdWrite_faulted (s := { s with todo := rest }) hrest hf, apply_ite Host.Outcome.next]
    rfl
  · have ⟨hb, _⟩ := hrest
    have hwrite := fun ha h0 => hostWritesSetTheOperandRegisters s off v rest hb ha h0 htodo
    refine ⟨?_, ?_, ?_, fun i => ?_⟩ <;> rintro rfl
    · exact hwrite rfl (by decide)
    · exact hwrite rfl (by decide)
    · exact hwrite rfl (by decide)
    · fin_cases i <;> exact hwrite rfl (by decide)

/-! What a move can do with the fault record (R105, R107, R109). -/

/-- `FAULT`, `FCODE` and the sticky mark are as before. -/
def KeepsFault (s t : State) : Prop := t.fault = s.fault ∧ t.fcode = s.fcode ∧ t.faulted = s.faulted

/-- `FAULT` and `FCODE` are 0 and the sticky mark is as before (R107, R109). -/
def ClearsFault (s t : State) : Prop := t.fault = false ∧ t.fcode = 0 ∧ t.faulted = s.faulted

/-- The engine is idle with a fault recorded, as a fault leaves it (R105). -/
def RestsOnFault (s : State) : Prop := s.fault = true ∧ AtRest s

/-- The fault record is kept or cleared, or a fault is recorded, and marked, by an engine that does not rest on one
(R108, R109). -/
def FaultChange (s t : State) : Prop :=
  KeepsFault s t ∨ ClearsFault s t ∨ t.faulted = true ∧ ¬ RestsOnFault s

theorem KeepsFault.refl (s : State) : KeepsFault s s := ⟨rfl, rfl, rfl⟩

theorem keepsFault_of_keepsRegisters {s t : State} (h : KeepsRegisters s t) : KeepsFault s t := by
  obtain ⟨-, -, -, -, -, -, hfault, hfcode, hfaulted, -⟩ := h
  exact ⟨hfault, hfcode, hfaulted⟩

theorem writeReg_keepsFault (r : Reg) (v : Word) (s : State) : KeepsFault s (writeReg r v s) := by
  cases r <;> exact .refl s

theorem finishCipher_keepsFault (i : Instr) {s u : State} (h : WritesParts s u) : KeepsFault s (finishCipher i u) :=
  keepsFault_of_keepsRegisters (keepsRegisters_finishCipher i h)

theorem exec_clrf_clearsFault {s t : State} (h : exec .clrf s = .next t) : ClearsFault s t := by
  rw [exec_clrf] at h; cases h; exact ⟨rfl, rfl, rfl⟩

theorem clearsFault_assertReset (s : State) : ClearsFault s (assertReset s) := ⟨rfl, rfl, assertReset_faulted s⟩

/-- A command in flight keeps the engine from resting (R60). -/
theorem not_restsOnFault_of_inflight {s : State} {i : Instr} (hi : s.inflight = some i) : ¬ RestsOnFault s :=
  fun ⟨_, _, hnone, _⟩ => by simp [hi] at hnone

/-- An instruction run on an engine that does not rest on a fault (R102, R107). -/
theorem exec_faultChange {i : Instr} {s t : State} (hfree : ¬ RestsOnFault s) (h : exec i s = .next t) :
    FaultChange s t := by
  rcases instr_cases i with rfl | rfl | rfl | hc | htail
  · rw [exec_nop] at h; cases h; exact .inl (.refl s)
  · rw [exec_loadkey] at h; cases h; exact .inl (.refl s)
  · exact .inr (.inl (exec_clrf_clearsFault h))
  · rcases (exec_cipher hc h).registers with hkeep | ⟨c, rfl⟩
    · exact .inl (keepsFault_of_keepsRegisters hkeep)
    · exact .inr (.inr ⟨rfl, hfree⟩)
  · obtain ⟨d, len, ht⟩ := exec_tail htail s
    rw [ht] at h; cases h; exact .inl (.refl s)

/-- Of the engine's moves on a dispatch command only the first, which makes the checks, can raise a fault (R65). -/
theorem dispatchMove_faultChange (i : Instr) (d : Dir) {s : State} (hfree : ¬ RestsOnFault s) :
    FaultChange s (dispatchMove i d s) := by
  simp only [dispatchMove]
  split
  · rcases dispatchLaunch_cases d s with ⟨c, hc⟩ | ⟨-, -, hb⟩
    · rw [hc]; exact .inr (.inr ⟨rfl, hfree⟩)
    · rw [hb]; exact .inl (.refl s)
  all_goals refine .inl ?_
  · simp only [superMove]
    split_ifs
    · exact finishCipher_keepsFault i rfl
    · exact .refl s
    · simp [KeepsFault]
  · simp only [wordsMove]
    split_ifs
    · exact finishCipher_keepsFault i (by rw [WritesParts, wordsBlock_eq])
    · simp [KeepsFault]
    · exact .refl s
  · simp only [tailMove]
    split
    · exact .refl s
    · exact .refl s
    · exact finishCipher_keepsFault i rfl

theorem HostWriteResult.faultChange {wait : Bool} {off : BitVec 6} {v : Word} {s t : State}
    (h : HostWriteResult wait off v s t) (hfree : ¬ RestsOnFault s) : FaultChange s t := by
  cases h with
  | ignored => exact .inl (.refl s)
  | register _ => exact .inl (writeReg_keepsFault _ _ s)
  | clrf _ ht => exact .inr (.inl (exec_clrf_clearsFault ht))
  | illegal _ => exact .inr (.inr ⟨rfl, hfree⟩)
  | posted i _ _ _ => exact .inl (.refl s)
  | run i _ _ _ _ _ ht =>
    have hrun := exec_faultChange (not_restsOnFault_of_inflight (launch_inflight i s)) ht
    exact hrun.imp_right (.imp_right fun ⟨hmark, _⟩ => ⟨hmark, hfree⟩)

/-- An engine that rests on a fault takes no command but `CLRF`, so it records no second one (R106, R108). -/
theorem hostWrite_faultChange {wait : Bool} {off : BitVec 6} {v : Word} {s t : State}
    (h : hostWrite wait off v s = .next t) : FaultChange s t := by
  by_cases hrests : RestsOnFault s
  · obtain ⟨hf, hrest⟩ := hrests
    rcases hostWrite_faulted hrest hf h with rfl | rfl | rfl
    · exact .inl (.refl _)
    · exact .inr (.inl ⟨rfl, rfl, rfl⟩)
    · exact .inl (writeReg_keepsFault _ _ s)
  · exact (hostWrite_result h).faultChange hrests

theorem EngineMoveResult.faultChange {s t : State} (h : EngineMoveResult s t) : FaultChange s t := by
  cases h with
  | waits _ => exact .inl (.refl s)
  | part d hi => exact dispatchMove_faultChange _ d (not_restsOnFault_of_inflight hi)
  | run i hi ht => exact exec_faultChange (not_restsOnFault_of_inflight hi) ht

theorem delegateMove_keepsFault {s t : State} (h : delegateMove s = .next t) : KeepsFault s t := by
  obtain ⟨-, d, len, rfl⟩ := delegateMove_result h
  exact .refl s

theorem makeMove_faultChange {mv : Move} {s t : State} (h : makeMove mv s = .next t) : FaultChange s t := by
  cases mv with
  | wr off v => exact hostWrite_faultChange h
  | post off v => exact hostWrite_faultChange h
  | rd off => rw [hostRead_result h]; exact .inl (.refl s)
  | narrow off => cases h
  | poke a b => cases h; exact .inl (.refl s)
  | peek a => cases h; rw [peek_eq]; exact .inl (.refl s)
  | reset => cases h; exact .inr (.inl (clearsFault_assertReset s))
  | pause => cases h; exact .inl (.refl s)
  | engine => exact (engineMove_result h).faultChange
  | delegate => exact .inl (delegateMove_keepsFault h)
  | answer r =>
    obtain ⟨-, rfl⟩ := answerMove_result h
    exact .inl (.refl s)

/-- What a step can do with the fault record, whoever moves. -/
theorem step_faultChange {s t : State} (h : step s = .next t) : FaultChange s t := by
  cases htodo : s.todo with
  | nil =>
    rw [step_unscheduled htodo] at h
    rcases ownMove_result h with hd | he
    · exact .inl (delegateMove_keepsFault hd)
    · exact (engineMove_result he).faultChange
  | cons mv rest =>
    rw [step_scheduled htodo] at h
    exact makeMove_faultChange (s := { s with todo := rest }) h

/-- The invariant lets a fault stand only in an engine at rest (R105). -/
theorem engineInv_restsOnFault {s : State} (h : EngineInv s) (hf : s.fault = true) : RestsOnFault s :=
  ⟨hf, engineInv_atRest h (h.faultIdle hf)⟩

/-- Settles O22: an engine with a fault recorded rests on it, and then a step keeps the record or clears it. -/
theorem faultsDoNotNest : Obligations.FaultsDoNotNest := by
  refine ⟨fun s t hinv hf h => ?_, fun s => ⟨_, exec_clrf s, rfl, rfl⟩⟩
  rcases step_faultChange h with ⟨hfault, hfcode, -⟩ | ⟨hfault, hfcode, -⟩ | ⟨-, hfree⟩
  · exact .inl ⟨hfault.trans hf, hfcode⟩
  · exact .inr ⟨hfault, hfcode⟩
  · exact absurd (engineInv_restsOnFault hinv hf) hfree

/-- Settles O23: only recording a fault touches the mark, and it sets it. -/
theorem recordedFaultsStayMarked : Obligations.RecordedFaultsStayMarked := by
  intro s t h
  rcases step_faultChange h with ⟨hfault, -, hmark⟩ | ⟨hfault, -, hmark⟩ | ⟨hmark, -⟩
  · exact ⟨hmark.trans, fun hno hyes => absurd (hyes.symm.trans (hfault.trans hno)) (by decide)⟩
  · exact ⟨hmark.trans, fun _ hyes => absurd (hyes.symm.trans hfault) (by decide)⟩
  · exact ⟨fun _ => hmark, fun _ _ => hmark⟩

/-! The cipher commands whose checks pass (R102, R132). -/

section
variable (i : Instr) (d : Dir) {s : State} (hk : s.keyv = true)
include hk

theorem wordsCommand_keepsRegisters (hl : s.legalN) (hr : InRange s (4 * s.count.toNat)) :
    KeepsRegisters s (wordsCommand i d s) := by
  rw [wordsCommand_done i d hk (m := ⟨s.count.toNat, hl.1, hl.2⟩) rfl hr]
  exact keepsRegisters_finishCipher i (writesParts_block ..)

/-- A fixed command does its work or, under the guard, nothing (R89). -/
theorem fixedCommand_keepsRegisters : KeepsRegisters s (fixedCommand i d s) := by
  by_cases hr : InRange s 64
  · rw [fixedCommand_done i d hk hr]
    exact keepsRegisters_finishCipher i (writesParts_block ..)
  · rw [fixedCommand_guard i d hk hr]
    exact keepsRegisters_finish i s

end

/-- A command that keeps the registers ends without a fault. -/
theorem exec_without_fault {i : Instr} {s t : State} (ht : exec i s = .next t) (hkeep : KeepsRegisters s t) :
    ∃ t, exec i s = .next t ∧ t.fault = s.fault ∧ t.fcode = s.fcode ∧ t.faulted = s.faulted ∧ AtRest t := by
  obtain ⟨hfault, hfcode, hfaulted⟩ := keepsFault_of_keepsRegisters hkeep
  obtain ⟨-, -, -, -, -, -, -, -, -, -, -, -, hrest⟩ := hkeep
  exact ⟨t, ht, hfault, hfcode, hfaulted, hrest⟩

/-- Settles O39: with its checks passed each of the six keeps the registers, the fault record among them. -/
theorem wellFormedCommandsDoNotFault : Obligations.WellFormedCommandsDoNotFault := by
  refine fun s hk => ⟨fun hr i hi => ?_, fun h2 h16 hr i hi => ?_, fun i hi => ?_⟩ <;>
    rcases List.mem_pair.1 hi with rfl | rfl
  · exact exec_without_fault rfl (dispatchCommand_keepsRegisters _ _ .enc hk hr)
  · exact exec_without_fault rfl (dispatchCommand_keepsRegisters _ _ .dec hk hr)
  · exact exec_without_fault (exec_encWords s) (wordsCommand_keepsRegisters _ .enc hk ⟨h2, h16⟩ hr)
  · exact exec_without_fault (exec_decWords s) (wordsCommand_keepsRegisters _ .dec hk ⟨h2, h16⟩ hr)
  · exact exec_without_fault (exec_encFixed s) (fixedCommand_keepsRegisters _ .enc hk)
  · exact exec_without_fault (exec_decFixed s) (fixedCommand_keepsRegisters _ .dec hk)

end Sys2Proof.Laws

/-! PROOF. The engine that waits (R118, R127): idle with nothing scheduled, or with a request its delegate leaves
unanswered. -/

namespace Sys2Proof.Laws

open Sys2Proof.Machine

/-- With no command in flight the engine has nothing to go on with (R118). -/
theorem engineMove_idle {s : State} (hi : s.inflight = none) : engineMove s = .next s := by
  simp only [engineMove, hi]

/-- Settles O13: no request stands on the port, so the step is the idle engine's move. -/
theorem idleEngineWaits : Obligations.IdleEngineWaits := by
  rintro s ⟨-, hi, -, -, hport⟩ htodo
  exact (step_engineMove htodo (by simp [hport])).trans (engineMove_idle hi)

/-- A request stands on the port only for a dispatch command in flight in its tail phase (R53, R95). -/
theorem engineInv_request {s : State} (h : EngineInv s) (hp : s.port.status ≠ .quiet) :
    s.phase = .tail ∧ ∃ d, s.inflight = some (dispatchOf d) := by
  obtain ⟨hphase, -⟩ := h.port hp
  rcases h.running (by simp [hphase]) with ⟨hi, -⟩ | ⟨hi, -⟩
  · exact ⟨hphase, .enc, hi⟩
  · exact ⟨hphase, .dec, hi⟩

/-- The engine waits for the answer without a timeout (R127). -/
theorem engineMove_requested {s : State} (h : EngineInv s) (hp : s.port.status = .requested) :
    engineMove s = .next s := by
  obtain ⟨hphase, d, hi⟩ := engineInv_request h (by simp [hp])
  rw [engineMove_dispatchOf hi]
  simp only [dispatchMove, hphase, tailMove, hp]

/-- A busy engine ignores every host write that has a meaning (R51 (b), R122). -/
theorem HostWriteResult.eq_of_busy {wait : Bool} {off : BitVec 6} {v : Word} {s t : State}
    (h : HostWriteResult wait off v s t) (hb : s.busy = true) : t = s := by
  have hbusy : s.busy ≠ false := by simp [hb]
  cases h with
  | ignored => rfl
  | register idle => exact absurd idle hbusy
  | clrf idle _ => exact absurd idle hbusy
  | illegal idle => exact absurd idle hbusy
  | posted _ idle _ _ => exact absurd idle hbusy
  | run _ idle _ _ _ _ _ => exact absurd idle hbusy

/-- The engine stands in `t` where it stood in `s`: `BUSY`, the port, the command in flight and the phase are the
same. -/
def KeepsWaiting (s t : State) : Prop :=
  t.busy = s.busy ∧ t.port = s.port ∧ t.inflight = s.inflight ∧ t.phase = s.phase

theorem KeepsWaiting.refl (s : State) : KeepsWaiting s s := ⟨rfl, rfl, rfl, rfl⟩

/-- While a request stands unanswered, no move but reset and an answer gets the engine on (R127). -/
theorem makeMove_keepsWaiting {mv : Move} {s t : State} (h : EngineInv s) (hb : s.busy = true)
    (hp : s.port.status = .requested) (hreset : mv ≠ .reset) (hdelegate : mv ≠ .delegate)
    (hanswer : ∀ r, mv ≠ .answer r) (ht : makeMove mv s = .next t) : KeepsWaiting s t := by
  cases mv with
  | wr off v => rw [(hostWrite_result ht).eq_of_busy hb]; exact .refl s
  | post off v => rw [(hostWrite_result ht).eq_of_busy hb]; exact .refl s
  | rd off => rw [hostRead_result ht]; exact .refl s
  | narrow off => cases ht
  | poke a b => cases ht; exact .refl s
  | peek a => cases ht; rw [peek_eq]; exact .refl s
  | reset => exact absurd rfl hreset
  | pause => cases ht; exact .refl s
  | engine =>
    rw [makeMove, engineMove_requested h hp] at ht
    cases ht; exact .refl s
  | delegate => exact absurd rfl hdelegate
  | answer r => exact absurd rfl (hanswer r)

/-- Settles O24: the request stands for a command in flight in its tail phase, which the move taken leaves there. -/
theorem unansweredRequestHoldsTheEngine : Obligations.UnansweredRequestHoldsTheEngine := by
  intro s t mv rest h hp htodo hreset hdelegate hanswer ht
  obtain ⟨hphase, d, hi⟩ := engineInv_request h (by simp [hp])
  have hb : s.busy = true := by rw [h.busy, hi]; rfl
  rw [step_scheduled htodo] at ht
  obtain ⟨hbusy, hport, hinflight, hph⟩ :=
    makeMove_keepsWaiting (engineInv_hostSide h rest _ _ _) hb hp hreset hdelegate hanswer ht
  exact ⟨hbusy.trans hb, hport, hinflight, hph.trans hphase⟩

end Sys2Proof.Laws

/-! PROOF. Another agent's writes into a busy region (R120): the parts of a command do not read the noted offsets, and
the end of the command loses only the parts that hold one. -/

namespace Sys2Proof.Laws

open Sys2Proof.Machine

/-! The parts of a command do not read the noted offsets. -/

/-- The state with the offsets `l` noted as written by other agents. -/
def noting (l : List Nat) (s : State) : State := { s with touched := l }

theorem block_noting (l : List Nat) (d : Dir) (off : Nat) (m : MCount) (s : State) :
    block d off m (noting l s) = noting l (block d off m s) := by
  simp only [block, noting]

theorem superBlock_noting (l : List Nat) (s : State) : superBlock (noting l s) = noting l (superBlock s) := by
  simp only [superBlock, block, noting]

theorem superPhase_noting (l : List Nat) (n : Nat) (s : State) :
    superPhase n (noting l s) = noting l (superPhase n s) := by
  induction n generalizing s with
  | zero => rfl
  | succ n ih => rw [superPhase, superBlock_noting, ih]; rfl

theorem restPhase_noting (D : Config.Delegate) (l : List Nat) (s : State) :
    restPhase D (noting l s) = noting l (restPhase D s) := by
  by_cases hw : 1 < (enterWords s).work.nw.toNat
  · have hw' : 1 < (enterWords (noting l s)).work.nw.toNat := hw
    simp only [restPhase, dif_pos hw, dif_pos hw', apply_ite (noting l)]
    rfl
  · have hw' : ¬ 1 < (enterWords (noting l s)).work.nw.toNat := hw
    simp only [restPhase, dif_neg hw, dif_neg hw']
    rfl

theorem dispatchParts_noting (D : Config.Delegate) (l : List Nat) (s : State) :
    dispatchParts D (noting l s) = noting l (dispatchParts D s) := by
  have hfull : (noting l s).work = s.work := rfl
  simp only [dispatchParts, hfull, superPhase_noting, restPhase_noting, apply_ite (noting l)]
  rfl

/-! What a command leaves in the parts that hold no noted offset. -/

/-- The command meaning `f`, run from `s` with whatever offsets noted, leaves in the bytes that lie in no part with a
noted offset what one buffer holds. -/
def SameWhereClear (i : Instr) (s : State) (f : State → State) : Prop :=
  ∃ m, ∀ l c, ClearOf i s l c → readByte (f (noting l s)).buf c = readByte m c

/-- The end of a command loses only the parts that hold a noted offset (R120, R128). -/
theorem readByte_finish_clear {i : Instr} {s u : State} (hw : WritesParts s u) {l : List Nat} {c : Nat}
    (hc : ClearOf i s l c) : readByte (finish i (noting l u)).buf c = readByte u.buf c := by
  obtain ⟨hstart, hcount, -⟩ := hw.call
  refine readByte_settle i l (noting l u) c fun a ha hin => ?_
  rw [inRegion_congr (s := s) (t := noting l u) hw.keyv hstart hcount hw.buflen] at hin
  rw [partOf_congr (s := s) (t := noting l u) hw.keyv hstart hcount hw.buflen]
  exact hc a ha hin

theorem sameWhereClear_of_fault {i : Instr} {s : State} {f : State → State} {e : FCode}
    (h : ∀ l, f (noting l s) = raiseFault e (noting l s)) : SameWhereClear i s f :=
  ⟨s.buf, fun l c _ => by rw [h l]; rfl⟩

theorem sameWhereClear_of_finish {i : Instr} {s : State} {f : State → State}
    (h : ∀ l, f (noting l s) = finish i (noting l s)) : SameWhereClear i s f :=
  ⟨s.buf, fun l c hc => by rw [h l]; exact readByte_finish_clear (s := s) (u := s) rfl hc⟩

theorem sameWhereClear_of_finishCipher {i : Instr} {s u : State} {f : State → State} (hw : WritesParts s u)
    (h : ∀ l, f (noting l s) = finishCipher i (noting l u)) : SameWhereClear i s f :=
  ⟨u.buf, fun l c hc => by rw [h l, finishCipher, forgetWork_buf]; exact readByte_finish_clear hw hc⟩

theorem dispatchCommand_sameWhereClear (D : Config.Delegate) (i : Instr) (d : Dir) (s : State) :
    SameWhereClear i s (dispatchCommand D i d) := by
  by_cases hk : s.keyv = true
  · by_cases hr : InRange s s.count.toNat
    · exact sameWhereClear_of_finishCipher (writesParts_dispatchParts D d s) fun l =>
        (dispatchCommand_done D i d (s := noting l s) hk hr).trans
          (congrArg (finishCipher i) (dispatchParts_noting D l (dispatchBegin d s)))
    · exact sameWhereClear_of_fault fun l => dispatchCommand_range D i d (s := noting l s) hk hr
  · exact sameWhereClear_of_fault fun l => dispatchCommand_noKey D i d (s := noting l s) (eq_false_of_ne_true hk)

theorem fixedCommand_sameWhereClear (i : Instr) (d : Dir) (s : State) : SameWhereClear i s (fixedCommand i d) := by
  by_cases hk : s.keyv = true
  · by_cases hr : InRange s 64
    · exact sameWhereClear_of_finishCipher (writesParts_block d s.start.toNat .sixteen s) fun l =>
        (fixedCommand_done i d (s := noting l s) hk hr).trans (congrArg (finishCipher i) (block_noting l ..))
    · exact sameWhereClear_of_finish fun l => fixedCommand_guard i d (s := noting l s) hk hr
  · exact sameWhereClear_of_fault fun l => fixedCommand_noKey i d (s := noting l s) (eq_false_of_ne_true hk)

theorem wordsCommand_sameWhereClear (i : Instr) (d : Dir) (s : State) : SameWhereClear i s (wordsCommand i d) := by
  by_cases hk : s.keyv = true
  · by_cases hl : s.legalN
    · have ⟨h2, h16⟩ := hl
      by_cases hr : InRange s (4 * s.count.toNat)
      · refine sameWhereClear_of_finishCipher (writesParts_block d s.start.toNat ⟨s.count.toNat, h2, h16⟩ s) fun l => ?_
        exact (wordsCommand_done i d (s := noting l s) hk (m := ⟨s.count.toNat, h2, h16⟩) rfl hr).trans
          (congrArg (finishCipher i) (block_noting l ..))
      · exact sameWhereClear_of_fault fun l => wordsCommand_range i d (s := noting l s) hk hl hr
    · exact sameWhereClear_of_fault fun l => wordsCommand_operand i d (s := noting l s) hk hl
  · exact sameWhereClear_of_fault fun l => wordsCommand_noKey i d (s := noting l s) (eq_false_of_ne_true hk)

/-- Each cipher command is a meaning whose clear bytes do not depend on the noted offsets. -/
theorem exec_sameWhereClear {i : Instr}
    (hi : i ∈ [Instr.encrypt, .decrypt, .encFixed, .decFixed, .encWords, .decWords]) (s : State) :
    ∃ f, (∀ s', exec i s' = .next (f s')) ∧ SameWhereClear i s f := by
  simp only [List.mem_cons, List.not_mem_nil, or_false] at hi
  rcases hi with rfl | rfl | rfl | rfl | rfl | rfl
  · exact ⟨_, fun _ => rfl, dispatchCommand_sameWhereClear Config.delegate .encrypt .enc s⟩
  · exact ⟨_, fun _ => rfl, dispatchCommand_sameWhereClear Config.delegate .decrypt .dec s⟩
  · exact ⟨_, fun _ => rfl, fixedCommand_sameWhereClear .encFixed .enc s⟩
  · exact ⟨_, fun _ => rfl, fixedCommand_sameWhereClear .decFixed .dec s⟩
  · exact ⟨_, fun _ => rfl, wordsCommand_sameWhereClear .encWords .enc s⟩
  · exact ⟨_, fun _ => rfl, wordsCommand_sameWhereClear .decWords .dec s⟩

/-- Settles O56: the run with its offsets noted and the run with none leave the same buffer's bytes where nothing was
disturbed. -/
theorem onlyDisturbedPartsAreLost : Obligations.OnlyDisturbedPartsAreLost := by
  intro s t u c i hi hc ht hu
  obtain ⟨f, hexec, m, hm⟩ := exec_sameWhereClear hi s
  obtain rfl := Host.Outcome.next.inj ((hexec s).symm.trans ht)
  obtain rfl := Host.Outcome.next.inj ((hexec _).symm.trans hu)
  have hnoted := hm s.touched c hc
  have hnone := hm [] c fun _ ha => absurd ha List.not_mem_nil
  exact hnoted.trans hnone.symm

/-! A command in flight whose `OFF` stands inside a part. -/

/-- `ENCRYPT` of the 10 bytes at 0 in its words phase, with `OFF` at 1. The invariant has `OFF` and `LEFT` account for
the bytes still to do, but does not ask that `OFF` stand where a part of R66 begins: here the words run is to mix bytes 1
to 8, while R66 has bytes 0 to 7 as the words run and bytes 8 and 9 as the tail. -/
def straddling : State :=
  { State.reset with
    keyv := true, count := 10, buflen := 10, busy := true, inflight := some .encrypt, phase := .words
    work := { Work.reset with off := 1, left := 9, nw := 2 } }

theorem engineInv_straddling : EngineInv straddling where
  canonical := rfl
  inSpace := rfl
  code := by decide
  legalCode := by decide
  faultIdle := by decide
  sticky := by decide
  noKey := fun _ => rfl
  busy := rfl
  command := fun i hi => by cases hi; rfl
  rest := fun hi => by cases hi
  running := fun _ => .inl ⟨rfl, rfl, rfl, (by decide : (0 : Word).toNat + (10 : Word).toNat ≤ (10 : Word).toNat)⟩
  progress := (progress_words rfl).2 (by decide)
  port := fun hp => absurd rfl hp

/-- What byte 1 becomes in the engine's next move depends on byte 8. -/
theorem wordsMove_straddling_ne :
    readByte (wordsMove .encrypt (poke 8 1 straddling)).buf 1 ≠ readByte (wordsMove .encrypt straddling).buf 1 := by
  decide

/-- Refutes O60: the invariant admits a command in flight whose `OFF` stands at no part's first byte. In `straddling`
another agent writes byte 8, whose part is the tail; one step later byte 1, whose part is the words run, is not what it
is in the run without the write. -/
theorem not_runsKeepTheUndisturbedParts : ¬ Obligations.RunsKeepTheUndisturbedParts := by
  intro h
  obtain ⟨-, t, u, ht, hu, -, hbytes⟩ := h straddling .encrypt 8 1 1 engineInv_straddling rfl rfl
  obtain rfl : wordsMove .encrypt straddling = t := Host.Outcome.next.inj ht
  obtain rfl : wordsMove .encrypt (poke 8 1 straddling) = u := Host.Outcome.next.inj hu
  have hclear : ClearOf .encrypt straddling [(8 : Word).toNat] 1 := by
    simp only [ClearOf]
    decide
  exact wordsMove_straddling_ne (hbytes 1 (by decide) hclear)

end Sys2Proof.Laws
